-- ==== Sys2Proof/Word.lean ====
section
/-! DEFINITION. The byte of the core's streams and the fixed constants of 00_scope.md R7. -/

namespace Sys2Proof

/-- An unsigned 8-bit value (00_scope.md R9). -/
abbrev Byte := BitVec 8

/-- The start delimiter SOF (00_scope.md R7). -/
def sof : Byte := 0x7E#8

/-- SYNC_MIN_AVAIL: the least buffered count at which the synchronizer acts (00_scope.md R7). -/
def syncMinAvail : Nat := 8

/-- FID_RESET: the frame-id counter's first value (00_scope.md R7). -/
def fidReset : Byte := 0x01#8

end Sys2Proof
end

