-- ==== Sys2Proof/Config.lean ====
section
/-! DEFINITION. What an implementation fixes (the four parameters of 00_scope.md R6) and what the spec leaves free:
which agent takes the next turn (45_dispatch_engine.md R272). -/

namespace Sys2Proof

/-- The parameters of 00_scope.md R6, each with the default this spec adopts. The model takes them as an argument:
State carries them and no step writes them (log entry 1). -/
structure Params where
  /-- RXBUF_CAP, capacity in bytes of the inbound buffer. -/
  rxbufCap : Nat := 256
  /-- TXBUF_CAP, capacity in bytes of the outbound buffer. -/
  txbufCap : Nat := 256
  /-- REG_CAP, number of entries of the handler registry. -/
  regCap : Nat := 16
  /-- RX_ACCEPT_TX_TYPES, whether inbound frames of type 0x08 and 0x10 are decoded. -/
  rxAcceptTxTypes : Bool := true
  deriving DecidableEq, Repr

/-- The legal ranges of 00_scope.md R6. -/
def Params.legal (p : Params) : Bool :=
  decide (8 ≤ p.rxbufCap) && decide (p.rxbufCap ≤ 65535) && decide (1 ≤ p.txbufCap) && decide (p.txbufCap ≤ 65535)
    && decide (1 ≤ p.regCap) && decide (p.regCap ≤ 255)

/-- The agents of 45_dispatch_engine.md R270. In any state at most one step of each is enabled. -/
inductive Agent
  | rxPort | synchronizer | commandUnit | txPort | eventPort | controlPort
  deriving DecidableEq, Repr, Inhabited

/-- What the transport and the host can do to the core's inputs (10_state.md R31, 30_encoding.md R126). -/
inductive Outside
  /-- the transport offers one more byte on the rx port -/
  | offerByte (b : Byte)
  /-- the host offers the header beat of one more command -/
  | offerHeader (h : BitVec 128)
  /-- the host offers one more data beat of the last command offered -/
  | offerData (b : Byte)
  /-- the host offers one more control beat -/
  | offerControl (op : BitVec 2)
  /-- the input `transport_ok` takes a value (45_dispatch_engine.md R282) -/
  | driveTransportOk (v : Bool)
  /-- the reset input is asserted or released (70_reset_and_hazards.md R360) -/
  | driveReset (v : Bool)
  /-- the transport becomes ready, or not, to take a tx byte -/
  | driveTxReady (v : Bool)
  /-- the host becomes ready, or not, to take an event -/
  | driveEvtReady (v : Bool)
  /-- the host becomes ready, or not, to take a response -/
  | driveRespReady (v : Bool)
  deriving DecidableEq, Repr

/-- Who moves next: an agent of the core, or the world outside it (00_scope.md R12). -/
inductive Turn
  | core (a : Agent)
  | outside (o : Outside)
  deriving DecidableEq, Repr, Inhabited

/-- FREE VALUE (log entry 3). Whose turn it is, once the turns listed in State are used up: the core fixes no order among
enabled steps and a model must admit every order (45_dispatch_engine.md R272; I5 'any value'). -/
opaque Config.freeTurn : Nat → Turn

end Sys2Proof
end

