-- ==== Sys2Proof/Syntax.lean ====
section
/-! DEFINITION. The instructions: one constructor for each row of spec/opcode_table.json, the frame types of
30_encoding.md R103, and the words an instruction is made of. -/

namespace Sys2Proof

/-- The closed enumeration of frame types (00_scope.md R3, 30_encoding.md R103). -/
inductive FrameType
  | atCommand | transmit | atResponse | modemStatus | txStatus | receive | explicitReceive
  deriving DecidableEq, Repr

/-- The type byte of a frame type (30_encoding.md R103). -/
def FrameType.code : FrameType → Byte
  | .atCommand => 0x08
  | .transmit => 0x10
  | .atResponse => 0x88
  | .modemStatus => 0x8A
  | .txStatus => 0x8B
  | .receive => 0x90
  | .explicitReceive => 0x91

/-- The frame type a type byte names; every other value is `Unsupported` (00_scope.md R3). -/
def FrameType.ofByte? (t : Byte) : Option FrameType :=
  if t = 0x08 then some .atCommand
  else if t = 0x10 then some .transmit
  else if t = 0x88 then some .atResponse
  else if t = 0x8A then some .modemStatus
  else if t = 0x8B then some .txStatus
  else if t = 0x90 then some .receive
  else if t = 0x91 then some .explicitReceive
  else none

/-- One constructor for each row of spec/opcode_table.json.

A frame row's operands are its declared length `len` and the `rest` of the frame: the bytes from offset 4 on, that is the
body after the type byte and then the checksum byte (30_encoding.md R100; none at all when `len` is 0, R102). The operands
are raw because a candidate frame may be too short for its type's fields or badly checksummed and is executed all the same
(44_synchronizer.md R245); its named fields are read in Machine/Operands.lean.

A command row's operands are the header fields its opcode lists (30_encoding.md R113) and its data beats; ignored header
fields are no operands (R115). -/
inductive Instr
  /-- FRAME_AT_COMMAND: an inbound frame of type 0x08 (42_decoder.md R167). -/
  | frameAtCommand (len : BitVec 16) (rest : List Byte)
  /-- FRAME_TRANSMIT: an inbound frame of type 0x10 (42_decoder.md R168). -/
  | frameTransmit (len : BitVec 16) (rest : List Byte)
  /-- FRAME_AT_RESPONSE: an inbound frame of type 0x88 (42_decoder.md R169). -/
  | frameAtResponse (len : BitVec 16) (rest : List Byte)
  /-- FRAME_MODEM_STATUS: an inbound frame of type 0x8A (42_decoder.md R170). -/
  | frameModemStatus (len : BitVec 16) (rest : List Byte)
  /-- FRAME_TX_STATUS: an inbound frame of type 0x8B (42_decoder.md R171). -/
  | frameTxStatus (len : BitVec 16) (rest : List Byte)
  /-- FRAME_RECEIVE: an inbound frame of type 0x90 (42_decoder.md R172). -/
  | frameReceive (len : BitVec 16) (rest : List Byte)
  /-- FRAME_EXPLICIT_RECEIVE: an inbound frame of type 0x91 (42_decoder.md R173). -/
  | frameExplicitReceive (len : BitVec 16) (rest : List Byte)
  /-- FRAME_UNSUPPORTED: an inbound frame of any other type byte (42_decoder.md R161). -/
  | frameUnsupported (len : BitVec 16) (ftype : Byte) (rest : List Byte)
  /-- ADD_HANDLER, op 0x1 (45_dispatch_engine.md R286). -/
  | addHandler (key hid : Byte) (data : List Byte)
  /-- SET_ERROR_HANDLER, op 0x2 (45_dispatch_engine.md R287). -/
  | setErrorHandler (hid : Byte) (data : List Byte)
  /-- ENCODE_TRANSMIT, op 0x3 (43_encoder.md R205). -/
  | encodeTransmit (a64len : BitVec 4) (a16v : BitVec 1) (options : Byte) (w16 : BitVec 16) (addr64 : BitVec 64)
      (payload : List Byte)
  /-- ENCODE_AT_COMMAND, op 0x4 (43_encoder.md R210). -/
  | encodeAtCommand (atlen : BitVec 2) (w16 : BitVec 16) (param : List Byte)
  /-- RESERVED_OP_0: the reserved opcode 0x0 (45_dispatch_engine.md R288). -/
  | reservedOp0 (data : List Byte)
  /-- RESERVED_OP_5: the reserved opcode 0x5 (45_dispatch_engine.md R288). -/
  | reservedOp5 (data : List Byte)
  /-- RESERVED_OP_6: the reserved opcode 0x6 (45_dispatch_engine.md R288). -/
  | reservedOp6 (data : List Byte)
  /-- RESERVED_OP_7: the reserved opcode 0x7 (45_dispatch_engine.md R288). -/
  | reservedOp7 (data : List Byte)
  /-- RESERVED_OP_8: the reserved opcode 0x8 (45_dispatch_engine.md R288). -/
  | reservedOp8 (data : List Byte)
  /-- RESERVED_OP_9: the reserved opcode 0x9 (45_dispatch_engine.md R288). -/
  | reservedOp9 (data : List Byte)
  /-- RESERVED_OP_A: the reserved opcode 0xA (45_dispatch_engine.md R288). -/
  | reservedOpA (data : List Byte)
  /-- RESERVED_OP_B: the reserved opcode 0xB (45_dispatch_engine.md R288). -/
  | reservedOpB (data : List Byte)
  /-- RESERVED_OP_C: the reserved opcode 0xC (45_dispatch_engine.md R288). -/
  | reservedOpC (data : List Byte)
  /-- RESERVED_OP_D: the reserved opcode 0xD (45_dispatch_engine.md R288). -/
  | reservedOpD (data : List Byte)
  /-- RESERVED_OP_E: the reserved opcode 0xE (45_dispatch_engine.md R288). -/
  | reservedOpE (data : List Byte)
  /-- RESERVED_OP_F: the reserved opcode 0xF (45_dispatch_engine.md R288). -/
  | reservedOpF (data : List Byte)
  /-- CTL_NOP, ctl_op 0 (30_encoding.md R116). -/
  | ctlNop
  /-- CTL_BEGIN, ctl_op 1 (45_dispatch_engine.md R284). -/
  | ctlBegin
  /-- CTL_END, ctl_op 2 (45_dispatch_engine.md R285). -/
  | ctlEnd
  /-- CTL_RESERVED_3, ctl_op 3 (30_encoding.md R116). -/
  | ctlReserved3
  deriving DecidableEq, Repr

/-- The words of one instruction, by the port they cross: a frame's bytes on the rx stream, a command's header beat and
data beats, or a control beat (the two kinds of encoding of 30_encoding.md). -/
inductive Words
  | frame (bytes : List Byte)
  | command (header : BitVec 128) (data : List Byte)
  | control (op : BitVec 2)
  deriving DecidableEq, Repr

end Sys2Proof
end

