-- ==== Sys2Proof/WellFormed.lean ====
section
/-! DEFINITION. When a term of `Instr` is an instruction: its operands fit the encoding. -/

namespace Sys2Proof

/-- A frame has as many bytes after its type byte as its length field declares (30_encoding.md R100). -/
def frameWellFormed (len : BitVec 16) (rest : List Byte) : Bool := decide (rest.length = len.toNat)

/-- A command has at most 65535 data beats: `dlen` has 16 bits (30_encoding.md R113). -/
def beatsWellFormed (data : List Byte) : Bool := decide (data.length < 65536)

/-- The operands fit the encoding. -/
def Instr.wellFormed : Instr → Bool
  | .frameAtCommand len rest => frameWellFormed len rest
  | .frameTransmit len rest => frameWellFormed len rest
  | .frameAtResponse len rest => frameWellFormed len rest
  | .frameModemStatus len rest => frameWellFormed len rest
  | .frameTxStatus len rest => frameWellFormed len rest
  | .frameReceive len rest => frameWellFormed len rest
  | .frameExplicitReceive len rest => frameWellFormed len rest
  | .frameUnsupported len ftype rest => (FrameType.ofByte? ftype).isNone && frameWellFormed len rest
  | .addHandler _ _ data => beatsWellFormed data
  | .setErrorHandler _ data => beatsWellFormed data
  | .encodeTransmit _ _ _ _ _ payload => beatsWellFormed payload
  | .encodeAtCommand _ _ param => beatsWellFormed param
  | .reservedOp0 data => beatsWellFormed data
  | .reservedOp5 data => beatsWellFormed data
  | .reservedOp6 data => beatsWellFormed data
  | .reservedOp7 data => beatsWellFormed data
  | .reservedOp8 data => beatsWellFormed data
  | .reservedOp9 data => beatsWellFormed data
  | .reservedOpA data => beatsWellFormed data
  | .reservedOpB data => beatsWellFormed data
  | .reservedOpC data => beatsWellFormed data
  | .reservedOpD data => beatsWellFormed data
  | .reservedOpE data => beatsWellFormed data
  | .reservedOpF data => beatsWellFormed data
  | .ctlNop => true
  | .ctlBegin => true
  | .ctlEnd => true
  | .ctlReserved3 => true

end Sys2Proof
end

