-- ==== Sys2Proof/Decode.lean ====
section
/-! DEFINITION. The decoder: from the words of the three ports to instructions, total, refusing by name; then the encoder;
then the reading of spec/opcode_table.json's numbered words. -/

namespace Sys2Proof

/-- Why words are no instruction. -/
inductive DecodeError
  /-- the first byte is not 0x7E: such a byte is discarded by resynchronization (30_encoding.md R122) -/
  | noDelimiter
  /-- fewer bytes than the header, or than the declared length needs (44_synchronizer.md R243) -/
  | truncatedFrame
  /-- bytes after the end of the one frame asked for -/
  | trailingBytes
  /-- not exactly `dlen` data beats (30_encoding.md R113) -/
  | wrongBeatCount
  deriving DecidableEq, Repr

/-- `be16(hi, lo) = 256*hi + lo` (00_scope.md R10). -/
def be16 (hi lo : Byte) : Nat := 256 * hi.toNat + lo.toNat

/-- `hi8(v) = v div 256` (00_scope.md R10). -/
def hi8 (v : BitVec 16) : Byte := v.extractLsb' 8 8

/-- `lo8(v) = v mod 256` (00_scope.md R10). -/
def lo8 (v : BitVec 16) : Byte := v.extractLsb' 0 8

/-- The frame `[0x7E][length][type]` followed by its other bytes (30_encoding.md R100). -/
def frameBytes (len : BitVec 16) (ftype : Byte) (rest : List Byte) : List Byte :=
  sof :: hi8 len :: lo8 len :: ftype :: rest

/-- The instruction of a frame, by its type byte (30_encoding.md R103). -/
def frameInstr (len : BitVec 16) (ftype : Byte) (rest : List Byte) : Instr :=
  match FrameType.ofByte? ftype with
  | some .atCommand => .frameAtCommand len rest
  | some .transmit => .frameTransmit len rest
  | some .atResponse => .frameAtResponse len rest
  | some .modemStatus => .frameModemStatus len rest
  | some .txStatus => .frameTxStatus len rest
  | some .receive => .frameReceive len rest
  | some .explicitReceive => .frameExplicitReceive len rest
  | none => .frameUnsupported len ftype rest

/-- The instruction at the head of a byte stream, and the bytes after it. The length prefix alone says where it ends
(30_encoding.md R124). -/
def decodeStream : List Byte → Except DecodeError (Instr × List Byte)
  | d :: hi :: lo :: t :: tail =>
    if d ≠ sof then .error .noDelimiter
    else if tail.length < be16 hi lo then .error .truncatedFrame
    else .ok (frameInstr (hi ++ lo) t (tail.take (be16 hi lo)), tail.drop (be16 hi lo))
  | d :: _ => if d ≠ sof then .error .noDelimiter else .error .truncatedFrame
  | [] => .error .truncatedFrame

/-! The header fields of 30_encoding.md R113. -/

/-- `op`, bits [3:0]. -/
def hdrOp (h : BitVec 128) : BitVec 4 := h.extractLsb' 0 4
/-- `a64len`, bits [7:4]. -/
def hdrA64len (h : BitVec 128) : BitVec 4 := h.extractLsb' 4 4
/-- `a16v`, bit [8]. -/
def hdrA16v (h : BitVec 128) : BitVec 1 := h.extractLsb' 8 1
/-- `atlen`, bits [10:9]. -/
def hdrAtlen (h : BitVec 128) : BitVec 2 := h.extractLsb' 9 2
/-- `b8`, bits [23:16]. -/
def hdrB8 (h : BitVec 128) : Byte := h.extractLsb' 16 8
/-- `hid`, bits [31:24]. -/
def hdrHid (h : BitVec 128) : Byte := h.extractLsb' 24 8
/-- `dlen`, bits [47:32]. -/
def hdrDlen (h : BitVec 128) : BitVec 16 := h.extractLsb' 32 16
/-- `w16`, bits [63:48]. -/
def hdrW16 (h : BitVec 128) : BitVec 16 := h.extractLsb' 48 16
/-- `addr64`, bits [127:64]. -/
def hdrAddr64 (h : BitVec 128) : BitVec 64 := h.extractLsb' 64 64

/-- The instruction of a command header and its data beats, by its opcode (30_encoding.md R114). Bits [15:11] and every field
the opcode does not list are ignored (R115). -/
def commandInstr (h : BitVec 128) (data : List Byte) : Instr :=
  match (hdrOp h).toNat with
  | 0 => .reservedOp0 data
  | 1 => .addHandler (hdrB8 h) (hdrHid h) data
  | 2 => .setErrorHandler (hdrHid h) data
  | 3 => .encodeTransmit (hdrA64len h) (hdrA16v h) (hdrB8 h) (hdrW16 h) (hdrAddr64 h) data
  | 4 => .encodeAtCommand (hdrAtlen h) (hdrW16 h) data
  | 5 => .reservedOp5 data
  | 6 => .reservedOp6 data
  | 7 => .reservedOp7 data
  | 8 => .reservedOp8 data
  | 9 => .reservedOp9 data
  | 10 => .reservedOpA data
  | 11 => .reservedOpB data
  | 12 => .reservedOpC data
  | 13 => .reservedOpD data
  | 14 => .reservedOpE data
  | _ => .reservedOpF data

/-- A command is one header beat followed by exactly `dlen` data beats (30_encoding.md R113). -/
def decodeCommand (h : BitVec 128) (data : List Byte) : Except DecodeError Instr :=
  if data.length = (hdrDlen h).toNat then .ok (commandInstr h data) else .error .wrongBeatCount

/-- The instruction of a control beat (30_encoding.md R116). -/
def decodeControl (op : BitVec 2) : Instr :=
  match op.toNat with
  | 0 => .ctlNop
  | 1 => .ctlBegin
  | 2 => .ctlEnd
  | _ => .ctlReserved3

/-- The decoder, total on the words of every port. -/
def decode : Words → Except DecodeError Instr
  | .frame bytes =>
    match decodeStream bytes with
    | .ok (i, []) => .ok i
    | .ok (_, _ :: _) => .error .trailingBytes
    | .error e => .error e
  | .command h data => decodeCommand h data
  | .control op => .ok (decodeControl op)

/-! The encoder. -/

/-- A command header from its fields; the reserved bits [15:11] are written 0 (30_encoding.md R113, R115). -/
def mkHeader (op a64len : BitVec 4) (a16v : BitVec 1) (atlen : BitVec 2) (b8 hid : Byte) (dlen w16 : BitVec 16)
    (addr64 : BitVec 64) : BitVec 128 :=
  addr64 ++ w16 ++ dlen ++ hid ++ b8 ++ 0#5 ++ atlen ++ a16v ++ a64len ++ op

/-- `dlen` of a command with these data beats. -/
def beatCount (data : List Byte) : BitVec 16 := BitVec.ofNat 16 data.length

/-- The words of a command of a reserved opcode: every field but `op` and `dlen` is written 0. -/
def reservedWords (op : BitVec 4) (data : List Byte) : Words :=
  .command (mkHeader op 0 0 0 0 0 (beatCount data) 0 0) data

/-- The words of a well-formed instruction (30_encoding.md R100, R103, R113, R114, R116); fields an opcode does not use are
written 0, as R115 advises. -/
def encode : Instr → Words
  | .frameAtCommand len rest => .frame (frameBytes len FrameType.atCommand.code rest)
  | .frameTransmit len rest => .frame (frameBytes len FrameType.transmit.code rest)
  | .frameAtResponse len rest => .frame (frameBytes len FrameType.atResponse.code rest)
  | .frameModemStatus len rest => .frame (frameBytes len FrameType.modemStatus.code rest)
  | .frameTxStatus len rest => .frame (frameBytes len FrameType.txStatus.code rest)
  | .frameReceive len rest => .frame (frameBytes len FrameType.receive.code rest)
  | .frameExplicitReceive len rest => .frame (frameBytes len FrameType.explicitReceive.code rest)
  | .frameUnsupported len ftype rest => .frame (frameBytes len ftype rest)
  | .addHandler key hid data => .command (mkHeader 1 0 0 0 key hid (beatCount data) 0 0) data
  | .setErrorHandler hid data => .command (mkHeader 2 0 0 0 0 hid (beatCount data) 0 0) data
  | .encodeTransmit a64len a16v options w16 addr64 payload =>
    .command (mkHeader 3 a64len a16v 0 options 0 (beatCount payload) w16 addr64) payload
  | .encodeAtCommand atlen w16 param => .command (mkHeader 4 0 0 atlen 0 0 (beatCount param) w16 0) param
  | .reservedOp0 data => reservedWords 0x0 data
  | .reservedOp5 data => reservedWords 0x5 data
  | .reservedOp6 data => reservedWords 0x6 data
  | .reservedOp7 data => reservedWords 0x7 data
  | .reservedOp8 data => reservedWords 0x8 data
  | .reservedOp9 data => reservedWords 0x9 data
  | .reservedOpA data => reservedWords 0xA data
  | .reservedOpB data => reservedWords 0xB data
  | .reservedOpC data => reservedWords 0xC data
  | .reservedOpD data => reservedWords 0xD data
  | .reservedOpE data => reservedWords 0xE data
  | .reservedOpF data => reservedWords 0xF data
  | .ctlNop => .control 0
  | .ctlBegin => .control 1
  | .ctlEnd => .control 2
  | .ctlReserved3 => .control 3

/-! The numbered words of spec/opcode_table.json (log entry 10). -/

/-- The first four bytes of a frame, read by the table as one 32-bit big-endian word, then zeros up to the declared
length. -/
def tableFrame (w : Nat) : List Byte :=
  let b0 := BitVec.ofNat 8 (w / 16777216)
  let b1 := BitVec.ofNat 8 (w / 65536)
  let b2 := BitVec.ofNat 8 (w / 256)
  let b3 := BitVec.ofNat 8 w
  b0 :: b1 :: b2 :: b3 :: List.replicate (be16 b1 b2) 0

/-- The words of the instruction whose bits are `w`, in a row of `nbits` bits: 32 bits are a frame's first word; a value of two
bits in at most eight is a control beat; anything else is a command header, followed by `dlen` data beats of 0. -/
def tableWords (nbits w : Nat) : Words :=
  if nbits = 32 then .frame (tableFrame w)
  else if nbits ≤ 8 ∧ w < 4 then .control (BitVec.ofNat 2 w)
  else .command (BitVec.ofNat 128 w) (List.replicate (hdrDlen (BitVec.ofNat 128 w)).toNat 0)

/-- The instruction the decoder reads from a numbered word of the opcode table; none where it refuses. -/
def decodeTableWord (nbits w : Nat) : Option Instr :=
  match decode (tableWords nbits w) with
  | .ok i => some i
  | .error _ => none

end Sys2Proof
end

