-- ==== Sys2Proof/Machine/State.lean ====
section
/-! DEFINITION. The machine's state as plain data: the record of 10_state.md R30, the inputs of R31, and what has crossed the
output ports; the reasons a step can stop; the state after reset (70_reset_and_hazards.md R360). -/

namespace Sys2Proof.Machine

/-- Decode error codes (30_encoding.md R121); codes 0, 6 and 7 are no errors. -/
inductive ErrCode
  | invalidFrameType | frameLengthError | frameTooShort | checksumError | unsupportedFrameType
  deriving DecidableEq, Repr

/-- A decode result as an event carries it (30_encoding.md R119). -/
inductive EvResult
  | ok (fixed data : List Byte)
  | err (code : ErrCode) (a b : BitVec 16)
  deriving DecidableEq, Repr

/-- Event kinds (30_encoding.md R120). -/
inductive EventKind
  | handler | noHandler | errorHandler | errorDropped
  deriving DecidableEq, Repr

/-- The multiplexer's output for one candidate frame (30_encoding.md R119). -/
structure Event where
  kind : EventKind
  hid : Byte
  ftype : Byte
  result : EvResult
  deriving DecidableEq, Repr

/-- Response status codes (30_encoding.md R118). -/
inductive RespStatus
  | ok | invalidAddressLength | invalidCommandLength | encodeTooLong | registryFull | badOpcode
  deriving DecidableEq, Repr

/-- A response record (30_encoding.md R117). -/
structure Response where
  status : RespStatus
  rfid : Byte := 0
  rlen : BitVec 16 := 0
  rchk : Byte := 0
  deriving DecidableEq, Repr

/-- The command unit (10_state.md R39). -/
inductive CmdUnit
  | idle
  | busy (rest : List Byte) (resp : Response)
  deriving DecidableEq, Repr

/-- One entry of the handler registry (10_state.md R36). -/
structure RegEntry where
  key : Byte
  hid : Byte
  deriving DecidableEq, Repr

/-- The core's state: exactly the record of 10_state.md R30. -/
structure CoreState where
  /-- inbound buffer (R32) -/
  rxq : List Byte
  /-- outbound buffer (R33) -/
  txq : List Byte
  /-- frame-id counter (R35) -/
  fid : Byte
  /-- running flag: the mode, RUNNING or STOPPED (R34, 60_exceptions.md R335) -/
  run : Bool
  /-- handler registry, in insertion order (R36) -/
  reg : List RegEntry
  /-- error-handler slot (R37) -/
  errh : Option Byte
  /-- event register (R38) -/
  evt : Option Event
  /-- command unit (R39) -/
  cu : CmdUnit
  deriving DecidableEq, Repr

/-- A command on the command port: one header beat and the data beats offered so far (30_encoding.md R113). -/
structure Command where
  header : BitVec 128
  data : List Byte
  deriving DecidableEq, Repr

/-- The ports: the inputs of 10_state.md R31, and a record of what the core has handed over (log entries 4 and 5). -/
structure Ports where
  /-- the input `transport_ok` (45_dispatch_engine.md R282) -/
  transportOk : Bool
  /-- the reset input (70_reset_and_hazards.md R360) -/
  resetIn : Bool
  /-- the bytes the transport offers, first next (45_dispatch_engine.md R290) -/
  rxIn : List Byte
  /-- the transport is ready to take a byte (45_dispatch_engine.md R270) -/
  txReady : Bool
  /-- the host is ready to take an event (45_dispatch_engine.md R292) -/
  evtReady : Bool
  /-- the host is ready to take a response (45_dispatch_engine.md R293) -/
  respReady : Bool
  /-- the commands the host offers, first next -/
  cmdIn : List Command
  /-- the control beats the host offers, first next (30_encoding.md R116) -/
  ctlIn : List (BitVec 2)
  /-- the bytes handed to the transport, first first (45_dispatch_engine.md R291) -/
  txOut : List Byte
  /-- the events delivered, first first (45_dispatch_engine.md R292) -/
  evtOut : List Event
  /-- the responses delivered, first first (45_dispatch_engine.md R293) -/
  respOut : List Response
  deriving DecidableEq, Repr

/-- The machine: the core's record, its ports, its parameters, and who moves next. -/
structure State where
  /-- the record of 10_state.md R30 -/
  core : CoreState
  /-- inputs and outputs -/
  ports : Ports
  /-- the parameters of 00_scope.md R6; no step writes them (log entry 1) -/
  params : Params
  /-- the turns to be taken next, first next (log entry 2) -/
  sched : List Turn
  /-- the argument of the next free choice of a turn (log entry 3) -/
  tick : Nat
  deriving DecidableEq, Repr

/-- No step of this core stops with a fault: no error stops, halts or resets it (60_exceptions.md R320), and it has no
addresses that could be absent (20_memory.md R70). The type has no constructor (log entry 14). -/
inductive Fault
  deriving DecidableEq, Repr

/-- Inputs to which the model gives no meaning. -/
inductive Refusal
  /-- Raised by `exec` for an instruction that has no meaning yet; no arm raises it. Safe. -/
  | notModelled (mnemonic : String)
  /-- Raised by a frame's meaning if DECODE is applied outside `4 ≤ |raw| ≤ 65539` (42_decoder.md R160; I6). The stream path
  never does it. Safe. -/
  | decodeDomain
  /-- Raised by a frame's meaning if it consumes more bytes than the queue holds (00_scope.md R11; I7). The core never does
  it. Safe. -/
  | queueUnderrun
  deriving DecidableEq, Repr

/-- Every element of the state record at its reset value (70_reset_and_hazards.md R360, R361). -/
def CoreState.reset : CoreState :=
  { rxq := [], txq := [], fid := fidReset, run := false, reg := [], errh := none, evt := none, cu := .idle }

/-- The ports before anything is driven, offered or delivered (log entries 4 and 5). -/
def Ports.quiet : Ports :=
  { transportOk := false, resetIn := false, rxIn := [], txReady := false, evtReady := false, respReady := false,
    cmdIn := [], ctlIn := [], txOut := [], evtOut := [], respOut := [] }

/-- The machine right after reset: the core's record at its reset values, the parameters at their defaults, nothing offered
and nothing delivered. -/
def State.reset : State :=
  { core := CoreState.reset, ports := Ports.quiet, params := {}, sched := [], tick := 0 }

end Sys2Proof.Machine
end

