-- ==== Sys2Proof/Machine/Operands.lean ====
section
/-! DEFINITION. Reading operands: slices of a frame, the frame registry table of 30_encoding.md R105, the named fields of every
frame type (R106 to R112), the operands of the encode commands, and the codes of 30_encoding.md R118, R120, R121. -/

namespace Sys2Proof.Machine

/-- `b[i]` (00_scope.md R9). -/
def byteAt (b : List Byte) (i : Nat) : Byte := b.getD i 0

/-- `b[i .. j)`, empty when `j ≤ i` (00_scope.md R9). -/
def slice (b : List Byte) (i j : Nat) : List Byte := (b.drop i).take (j - i)

/-- The declared length `L` of a frame (00_scope.md R13). -/
def declaredLen (raw : List Byte) : Nat := be16 (byteAt raw 1) (byteAt raw 2)

/-! The frame registry table (30_encoding.md R105). -/

/-- `MIN(t)`, the minimum declared length. -/
def minLen : FrameType → Nat
  | .atCommand => 4
  | .transmit => 14
  | .atResponse => 5
  | .modemStatus => 2
  | .txStatus => 7
  | .receive => 12
  | .explicitReceive => 18

/-- `NFIX(t) = MIN(t) - 1`, the number of fixed-field bytes. -/
def nfix (t : FrameType) : Nat := minLen t - 1

/-- `PAY(t)`, whether the type has a variable payload. -/
def hasPayload : FrameType → Bool
  | .modemStatus | .txStatus => false
  | .atCommand | .transmit | .atResponse | .receive | .explicitReceive => true

/-- Whether the type is one the core encodes, decoded only under RX_ACCEPT_TX_TYPES (30_encoding.md R104). -/
def isTxType : FrameType → Bool
  | .atCommand | .transmit => true
  | .atResponse | .modemStatus | .txStatus | .receive | .explicitReceive => false

/-- The registry lookup: the frame type of a supported type byte (30_encoding.md R104). -/
def registry (p : Params) (t : Byte) : Option FrameType :=
  match FrameType.ofByte? t with
  | some ft => if isTxType ft && !p.rxAcceptTxTypes then none else some ft
  | none => none

/-- A type byte is supported (30_encoding.md R104). -/
def supported (p : Params) (t : Byte) : Bool := (registry p t).isSome

/-! The named fields of a frame `raw` of each type, at the offsets of 30_encoding.md R106 to R112. -/

/-- AtCommand (42_decoder.md R167). -/
structure AtCommandFields where
  frameId : Byte
  command : List Byte
  param : List Byte
  deriving DecidableEq, Repr

/-- `frameId@4`, `command@5-6`, `param@7..3+L`. -/
def atCommandFields (raw : List Byte) : AtCommandFields :=
  { frameId := byteAt raw 4, command := slice raw 5 7, param := slice raw 7 (3 + declaredLen raw) }

/-- Transmit (42_decoder.md R168). -/
structure TransmitFields where
  frameId : Byte
  addr64 : List Byte
  addr16 : List Byte
  broadcastRadius : Byte
  options : Byte
  payload : List Byte
  deriving DecidableEq, Repr

/-- `frameId@4`, `addr64@5-12`, `addr16@13-14`, `broadcastRadius@15`, `options@16`, `payload@17..3+L`. -/
def transmitFields (raw : List Byte) : TransmitFields :=
  { frameId := byteAt raw 4, addr64 := slice raw 5 13, addr16 := slice raw 13 15, broadcastRadius := byteAt raw 15,
    options := byteAt raw 16, payload := slice raw 17 (3 + declaredLen raw) }

/-- AtResponse (42_decoder.md R169). -/
structure AtResponseFields where
  frameId : Byte
  command : List Byte
  status : Byte
  data : List Byte
  deriving DecidableEq, Repr

/-- `frameId@4`, `command@5-6`, `status@7`, `data@8..3+L`. -/
def atResponseFields (raw : List Byte) : AtResponseFields :=
  { frameId := byteAt raw 4, command := slice raw 5 7, status := byteAt raw 7,
    data := slice raw 8 (3 + declaredLen raw) }

/-- ModemStatus (42_decoder.md R170). -/
structure ModemStatusFields where
  status : Byte
  deriving DecidableEq, Repr

/-- `status@4`. -/
def modemStatusFields (raw : List Byte) : ModemStatusFields := { status := byteAt raw 4 }

/-- TxStatus (42_decoder.md R171). -/
structure TxStatusFields where
  frameId : Byte
  addr16 : List Byte
  retryCount : Byte
  deliveryStatus : Byte
  discoveryStatus : Byte
  deriving DecidableEq, Repr

/-- `frameId@4`, `addr16@5-6`, `retryCount@7`, `deliveryStatus@8`, `discoveryStatus@9`. -/
def txStatusFields (raw : List Byte) : TxStatusFields :=
  { frameId := byteAt raw 4, addr16 := slice raw 5 7, retryCount := byteAt raw 7, deliveryStatus := byteAt raw 8,
    discoveryStatus := byteAt raw 9 }

/-- Receive (42_decoder.md R172). -/
structure ReceiveFields where
  addr64 : List Byte
  addr16 : List Byte
  options : Byte
  data : List Byte
  deriving DecidableEq, Repr

/-- `addr64@4-11`, `addr16@12-13`, `options@14`, `data@15..3+L`. -/
def receiveFields (raw : List Byte) : ReceiveFields :=
  { addr64 := slice raw 4 12, addr16 := slice raw 12 14, options := byteAt raw 14,
    data := slice raw 15 (3 + declaredLen raw) }

/-- ExplicitReceive (42_decoder.md R173). -/
structure ExplicitReceiveFields where
  addr64 : List Byte
  addr16 : List Byte
  srcEndpoint : Byte
  dstEndpoint : Byte
  clusterId : List Byte
  profileId : List Byte
  options : Byte
  data : List Byte
  deriving DecidableEq, Repr

/-- `addr64@4-11`, `addr16@12-13`, `srcEndpoint@14`, `dstEndpoint@15`, `clusterId@16-17`, `profileId@18-19`, `options@20`,
`data@21..3+L`. -/
def explicitReceiveFields (raw : List Byte) : ExplicitReceiveFields :=
  { addr64 := slice raw 4 12, addr16 := slice raw 12 14, srcEndpoint := byteAt raw 14, dstEndpoint := byteAt raw 15,
    clusterId := slice raw 16 18, profileId := slice raw 18 20, options := byteAt raw 20,
    data := slice raw 21 (3 + declaredLen raw) }

/-- The 16-bit value of `clusterId`, `be16(frame[16], frame[17])` (20_memory.md R74). -/
def clusterIdValue (raw : List Byte) : Nat := be16 (byteAt raw 16) (byteAt raw 17)

/-- The 16-bit value of `profileId`, `be16(frame[18], frame[19])` (20_memory.md R74). -/
def profileIdValue (raw : List Byte) : Nat := be16 (byteAt raw 18) (byteAt raw 19)

/-! Operands of the encode commands: the first wire byte lies in the most significant lane (20_memory.md R76). -/

/-- The eight address bytes, `addr64[63:56]` first (43_encoder.md R205). -/
def addr64Bytes (a : BitVec 64) : List Byte :=
  [a.extractLsb' 56 8, a.extractLsb' 48 8, a.extractLsb' 40 8, a.extractLsb' 32 8,
   a.extractLsb' 24 8, a.extractLsb' 16 8, a.extractLsb' 8 8, a.extractLsb' 0 8]

/-- The two bytes of `w16`, `w16[15:8]` first (43_encoder.md R205, R210). -/
def w16Bytes (w : BitVec 16) : List Byte := [hi8 w, lo8 w]

/-- The frame's addr16 bytes: the supplied value when `a16v` is 1, else `FF FE` (43_encoder.md R208). -/
def addr16Operand (a16v : BitVec 1) (w16 : BitVec 16) : List Byte :=
  if a16v = 1 then w16Bytes w16 else [0xFF, 0xFE]

/-! Numeric codes. -/

/-- Response status codes (30_encoding.md R118). -/
def RespStatus.code : RespStatus → BitVec 4
  | .ok => 0
  | .invalidAddressLength => 1
  | .invalidCommandLength => 2
  | .encodeTooLong => 3
  | .registryFull => 4
  | .badOpcode => 5

/-- Event kind codes (30_encoding.md R120). -/
def EventKind.code : EventKind → BitVec 2
  | .handler => 0
  | .noHandler => 1
  | .errorHandler => 2
  | .errorDropped => 3

/-- Decode error codes (30_encoding.md R121). -/
def ErrCode.code : ErrCode → BitVec 3
  | .invalidFrameType => 1
  | .frameLengthError => 2
  | .frameTooShort => 3
  | .checksumError => 4
  | .unsupportedFrameType => 5

end Sys2Proof.Machine
end

