-- ==== Sys2Proof/Machine/Ops.lean ====
section
/-! DEFINITION. The shared operations: writes of one state element, the queue primitives of 00_scope.md R11, the checksum, the
decoder of frames (DECODE), the frame builder, the dispatch multiplexer with the route to the error handler (the core's taking of an
exception), and the operations every meaning of a family shares. -/

namespace Sys2Proof.Machine

/-- What one step of this machine answers. -/
abbrev Answer := Host.Outcome State Fault Refusal

/-! Writing one element of the state. -/

/-- Replace the core's record. -/
def State.withCore (s : State) (c : CoreState) : State := { s with core := c }
/-- `rxq <- q`. -/
def State.withRxq (s : State) (q : List Byte) : State := { s with core := { s.core with rxq := q } }
/-- `txq <- q`. -/
def State.withTxq (s : State) (q : List Byte) : State := { s with core := { s.core with txq := q } }
/-- `fid <- v`. -/
def State.withFid (s : State) (v : Byte) : State := { s with core := { s.core with fid := v } }
/-- `run <- v`. -/
def State.withRun (s : State) (v : Bool) : State := { s with core := { s.core with run := v } }
/-- `reg <- r`. -/
def State.withReg (s : State) (r : List RegEntry) : State := { s with core := { s.core with reg := r } }
/-- `errh <- h`. -/
def State.withErrh (s : State) (h : Option Byte) : State := { s with core := { s.core with errh := h } }
/-- `evt <- e`. -/
def State.withEvt (s : State) (e : Option Event) : State := { s with core := { s.core with evt := e } }
/-- `cu <- u`. -/
def State.withCu (s : State) (u : CmdUnit) : State := { s with core := { s.core with cu := u } }
/-- Replace the ports. -/
def State.withPorts (s : State) (p : Ports) : State := { s with ports := p }

/-! Queue primitives (00_scope.md R11). -/

/-- `avail(Q)`. -/
def avail (q : List Byte) : Nat := q.length

/-- `peek(Q, n)`, defined only when `n ≤ avail(Q)`. -/
def peek (q : List Byte) (n : Nat) : Option (List Byte) := if n ≤ avail q then some (q.take n) else none

/-- `consume(Q, n)`: the bytes removed and the queue left; defined only when `n ≤ avail(Q)` (I7). -/
def consume (q : List Byte) (n : Nat) : Option (List Byte × List Byte) :=
  if n ≤ avail q then some (q.take n, q.drop n) else none

/-- `append(Q, bytes)`. -/
def append (q bytes : List Byte) : List Byte := q ++ bytes

/-! Checksum (41_checksum.md). -/

/-- The wrapping 8-bit sum of a span (41_checksum.md R150). -/
def byteSum (s : List Byte) : Byte := s.foldl (fun acc x => acc + x) 0

/-- CHECKSUM: `0xFF - acc` (41_checksum.md R150). -/
def checksum (s : List Byte) : Byte := 0xFF - byteSum s

/-- A frame is well-checksummed (30_encoding.md R101). -/
def wellChecksummed (f : List Byte) : Bool :=
  byteAt f (3 + declaredLen f) == checksum (slice f 3 (3 + declaredLen f))

/-! The frame decoder (42_decoder.md). -/

/-- What DECODE returns (42_decoder.md R160). -/
inductive Decoded
  | ok (ftype : Byte) (fixed data : List Byte)
  | err (code : ErrCode) (ftype : Byte) (a b : BitVec 16)
  deriving DecidableEq, Repr

/-- A natural of at most 65535 as a 16-bit info field (30_encoding.md R119). -/
def info16 (n : Nat) : BitVec 16 := BitVec.ofNat 16 n

/-- Checks 1 to 4 of DECODE, for a type of the registry (42_decoder.md R162 to R166): the first check that fails gives the result. -/
def decodeAs (t : FrameType) (ft : Byte) (raw : List Byte) : Decoded :=
  let len := declaredLen raw
  let chk := checksum (slice raw 3 (3 + len))
  if byteAt raw 3 ≠ ft then .err .invalidFrameType ft (info16 ft.toNat) (info16 (byteAt raw 3).toNat)
  else if len ≠ raw.length - 4 then .err .frameLengthError ft (info16 len) (info16 (raw.length - 4))
  else if len < minLen t then .err .frameTooShort ft (info16 len) (info16 (minLen t))
  else if chk ≠ byteAt raw (3 + len) then
    .err .checksumError ft (info16 chk.toNat) (info16 (byteAt raw (3 + len)).toNat)
  else .ok ft (slice raw 4 (3 + minLen t)) (if hasPayload t then slice raw (3 + minLen t) (3 + len) else [])

/-- DECODE (42_decoder.md R160): none outside its domain, where the model refuses; check 0 is the registry lookup (R161). -/
def decodeFrame (p : Params) (ft : Byte) (raw : List Byte) : Option Decoded :=
  if raw.length < 4 ∨ 65539 < raw.length then none
  else match registry p ft with
    | none => some (.err .unsupportedFrameType ft 0 0)
    | some t => some (decodeAs t ft raw)

/-! The dispatch multiplexer (45_dispatch_engine.md R280). -/

/-- The first entry of the registry, in insertion order, whose key is the type byte (45_dispatch_engine.md R281). -/
def lookupHandler (reg : List RegEntry) (t : Byte) : Option RegEntry := reg.find? (fun e => e.key == t)

/-- The event of a successful decode: to the first matching handler, else NO_HANDLER. -/
def routeOk (t : Byte) (fixed data : List Byte) (reg : List RegEntry) : Event :=
  match lookupHandler reg t with
  | some e => { kind := .handler, hid := e.hid, ftype := t, result := .ok fixed data }
  | none => { kind := .noHandler, hid := 0, ftype := t, result := .ok fixed data }

/-- TAKING AN EXCEPTION. The route to the error handler (60_exceptions.md R332): the event names the error slot's handler, or
ERROR_DROPPED when the slot is empty, and saves the error code and its info; nothing else is saved and no mode changes. -/
def routeErr (code : ErrCode) (t : Byte) (a b : BitVec 16) (errh : Option Byte) : Event :=
  match errh with
  | some h => { kind := .errorHandler, hid := h, ftype := t, result := .err code a b }
  | none => { kind := .errorDropped, hid := 0, ftype := t, result := .err code a b }

/-- ROUTE (45_dispatch_engine.md R280). -/
def route (res : Decoded) (reg : List RegEntry) (errh : Option Byte) : Event :=
  match res with
  | .ok t fixed data => routeOk t fixed data reg
  | .err code t a b => routeErr code t a b errh

/-- RETURNING FROM AN EXCEPTION. EVT_TAKE, which ends the handling of any event: deliver it and empty `evt`; nothing is
restored (45_dispatch_engine.md R292, 60_exceptions.md R333). -/
def evtTake (s : State) : State :=
  if s.ports.evtReady then
    match s.core.evt with
    | none => s
    | some e => (s.withEvt none).withPorts { s.ports with evtOut := s.ports.evtOut ++ [e] }
  else s

/-! The synchronizer's view of the inbound buffer (44_synchronizer.md). -/

/-- The synchronizer states, which no register holds (44_synchronizer.md R240). -/
inductive SyncState
  | waitMin | seekingDelimiter | awaitingFullFrame | frameReady
  deriving DecidableEq, Repr

/-- `syncState(q)` (44_synchronizer.md R241). -/
def syncState (q : List Byte) : SyncState :=
  if q.length < syncMinAvail then .waitMin
  else if byteAt q 0 ≠ sof then .seekingDelimiter
  else if q.length < declaredLen q + 4 then .awaitingFullFrame
  else .frameReady

/-- SYNC_FRAME is enabled (44_synchronizer.md R245) and `raw` is the candidate it consumes. -/
def frameEnabled (raw : List Byte) (s : State) : Bool :=
  s.core.run && s.core.evt.isNone && decide (syncState s.core.rxq = .frameReady)
    && decide (s.core.rxq.take (declaredLen s.core.rxq + 4) = raw)

/-- SYNC_FRAME on one candidate (44_synchronizer.md R245): consume it, DECODE it for the type `ft`, ROUTE the result into
`evt`. Where the step is not enabled nothing happens: the candidate waits. -/
def syncFrame (ft : Byte) (len : BitVec 16) (rest : List Byte) (s : State) : Answer :=
  if frameEnabled (frameBytes len ft rest) s then
    match consume s.core.rxq (frameBytes len ft rest).length with
    | none => .refused .queueUnderrun
    | some (raw, q) =>
      match decodeFrame s.params ft raw with
      | none => .refused .decodeDomain
      | some res => .next ((s.withRxq q).withEvt (some (route res s.core.reg s.core.errh)))
  else .next s

/-! The encoders (43_encoder.md). -/

/-- FRAME BUILD (43_encoder.md R201), for a body of 1 to 65535 bytes. -/
def mkframe (body : List Byte) : List Byte :=
  let len := BitVec.ofNat 16 body.length
  sof :: hi8 len :: lo8 len :: (body ++ [checksum body])

/-- The body of a Transmit frame: type, frame id 0, addr64, addr16, radius 0, options, payload (43_encoder.md R205). -/
def transmitBody (a16v : BitVec 1) (options : Byte) (w16 : BitVec 16) (addr64 : BitVec 64) (payload : List Byte) :
    List Byte :=
  [FrameType.transmit.code, 0x00] ++ addr64Bytes addr64 ++ addr16Operand a16v w16 ++ [0x00, options] ++ payload

/-- The body of an AtCommand frame: type, frame id, command, param (43_encoder.md R210). -/
def atCommandBody (frameId : Byte) (w16 : BitVec 16) (param : List Byte) : List Byte :=
  [FrameType.atCommand.code, frameId] ++ w16Bytes w16 ++ param

/-- The response of a successful encode (30_encoding.md R117): the frame id, `L` and the checksum byte. -/
def okEncodeResponse (frameId : Byte) (body : List Byte) : Response :=
  { status := .ok, rfid := frameId, rlen := BitVec.ofNat 16 body.length,
    rchk := byteAt (mkframe body) ((mkframe body).length - 1) }

/-- `cu <- Busy(frame, resp)` for a successful encode (43_encoder.md R200). -/
def startFrame (frameId : Byte) (body : List Byte) (s : State) : State :=
  s.withCu (.busy (mkframe body) (okEncodeResponse frameId body))

/-- `cu <- Busy([], resp)` with every other response field 0 (43_encoder.md R200, 60_exceptions.md R322). -/
def answer (status : RespStatus) (s : State) : State := s.withCu (.busy [] { status := status })

/-- CMD_ACCEPT runs a command only while `cu = Idle`; otherwise the command waits (45_dispatch_engine.md R293). -/
def whenIdle (effect : State → State) (s : State) : Answer :=
  match s.core.cu with
  | .idle => .next (effect s)
  | .busy _ _ => .next s

/-- ENCODE_TRANSMIT's effect; the address length is checked first, the overall length second (43_encoder.md R205, R206). -/
def encodeTransmitEffect (a64len : BitVec 4) (a16v : BitVec 1) (options : Byte) (w16 : BitVec 16) (addr64 : BitVec 64)
    (payload : List Byte) (s : State) : State :=
  if a64len ≠ 8 then answer .invalidAddressLength s
  else if 14 + payload.length > 65535 then answer .encodeTooLong s
  else startFrame 0x00 (transmitBody a16v options w16 addr64 payload) s

/-- ENCODE_AT_COMMAND's effect; the frame id is assigned and advanced only after both checks (43_encoder.md R210 to R212). -/
def encodeAtCommandEffect (atlen : BitVec 2) (w16 : BitVec 16) (param : List Byte) (s : State) : State :=
  if atlen ≠ 2 then answer .invalidCommandLength s
  else if 4 + param.length > 65535 then answer .encodeTooLong s
  else startFrame s.core.fid (atCommandBody s.core.fid w16 param) (s.withFid (s.core.fid + 1))

/-- ADD_HANDLER's effect (45_dispatch_engine.md R286). -/
def addHandlerEffect (key hid : Byte) (s : State) : State :=
  if s.core.reg.length = s.params.regCap then answer .registryFull s
  else answer .ok (s.withReg (s.core.reg ++ [{ key := key, hid := hid }]))

/-- SET_ERROR_HANDLER's effect (45_dispatch_engine.md R287). -/
def setErrorHandlerEffect (hid : Byte) (s : State) : State := answer .ok (s.withErrh (some hid))

/-- The effect of a reserved opcode (45_dispatch_engine.md R288). -/
def badOpcodeEffect (s : State) : State := answer .badOpcode s

/-- RESET: every element of the record at its reset value; inputs, parameters and what was handed over stay
(70_reset_and_hazards.md R360). -/
def resetCore (s : State) : State := s.withCore CoreState.reset

end Sys2Proof.Machine
end

