-- ==== Sys2Proof/Machine/Commands.lean ====
section
/-! DEFINITION. The meanings of the commands: CMD_ACCEPT with each opcode's rule (45_dispatch_engine.md R293). -/

namespace Sys2Proof.Machine

/-- ADD_HANDLER (45_dispatch_engine.md R286); its data beats are discarded. -/
def execAddHandler (key hid : Byte) (_data : List Byte) (s : State) : Answer := whenIdle (addHandlerEffect key hid) s

/-- SET_ERROR_HANDLER (45_dispatch_engine.md R287); its data beats are discarded. -/
def execSetErrorHandler (hid : Byte) (_data : List Byte) (s : State) : Answer := whenIdle (setErrorHandlerEffect hid) s

/-- ENCODE_TRANSMIT (43_encoder.md R205); its data beats are the payload. -/
def execEncodeTransmit (a64len : BitVec 4) (a16v : BitVec 1) (options : Byte) (w16 : BitVec 16) (addr64 : BitVec 64)
    (payload : List Byte) (s : State) : Answer :=
  whenIdle (encodeTransmitEffect a64len a16v options w16 addr64 payload) s

/-- ENCODE_AT_COMMAND (43_encoder.md R210); its data beats are the param. -/
def execEncodeAtCommand (atlen : BitVec 2) (w16 : BitVec 16) (param : List Byte) (s : State) : Answer :=
  whenIdle (encodeAtCommandEffect atlen w16 param) s

/-- RESERVED_OP_0: BAD_OPCODE (45_dispatch_engine.md R288); its data beats are discarded. -/
def execReservedOp0 (_data : List Byte) (s : State) : Answer := whenIdle badOpcodeEffect s

/-- RESERVED_OP_5: BAD_OPCODE (45_dispatch_engine.md R288); its data beats are discarded. -/
def execReservedOp5 (_data : List Byte) (s : State) : Answer := whenIdle badOpcodeEffect s

/-- RESERVED_OP_6: BAD_OPCODE (45_dispatch_engine.md R288); its data beats are discarded. -/
def execReservedOp6 (_data : List Byte) (s : State) : Answer := whenIdle badOpcodeEffect s

/-- RESERVED_OP_7: BAD_OPCODE (45_dispatch_engine.md R288); its data beats are discarded. -/
def execReservedOp7 (_data : List Byte) (s : State) : Answer := whenIdle badOpcodeEffect s

/-- RESERVED_OP_8: BAD_OPCODE (45_dispatch_engine.md R288); its data beats are discarded. -/
def execReservedOp8 (_data : List Byte) (s : State) : Answer := whenIdle badOpcodeEffect s

/-- RESERVED_OP_9: BAD_OPCODE (45_dispatch_engine.md R288); its data beats are discarded. -/
def execReservedOp9 (_data : List Byte) (s : State) : Answer := whenIdle badOpcodeEffect s

/-- RESERVED_OP_A: BAD_OPCODE (45_dispatch_engine.md R288); its data beats are discarded. -/
def execReservedOpA (_data : List Byte) (s : State) : Answer := whenIdle badOpcodeEffect s

/-- RESERVED_OP_B: BAD_OPCODE (45_dispatch_engine.md R288); its data beats are discarded. -/
def execReservedOpB (_data : List Byte) (s : State) : Answer := whenIdle badOpcodeEffect s

/-- RESERVED_OP_C: BAD_OPCODE (45_dispatch_engine.md R288); its data beats are discarded. -/
def execReservedOpC (_data : List Byte) (s : State) : Answer := whenIdle badOpcodeEffect s

/-- RESERVED_OP_D: BAD_OPCODE (45_dispatch_engine.md R288); its data beats are discarded. -/
def execReservedOpD (_data : List Byte) (s : State) : Answer := whenIdle badOpcodeEffect s

/-- RESERVED_OP_E: BAD_OPCODE (45_dispatch_engine.md R288); its data beats are discarded. -/
def execReservedOpE (_data : List Byte) (s : State) : Answer := whenIdle badOpcodeEffect s

/-- RESERVED_OP_F: BAD_OPCODE (45_dispatch_engine.md R288); its data beats are discarded. -/
def execReservedOpF (_data : List Byte) (s : State) : Answer := whenIdle badOpcodeEffect s

end Sys2Proof.Machine
end

