-- ==== Sys2Proof/Machine/Control.lean ====
section
/-! DEFINITION. The meanings of the control beats. The control port is always ready and returns no response (30_encoding.md R116). -/

namespace Sys2Proof.Machine

/-- CTL_NOP: taken with no effect (30_encoding.md R116). -/
def execCtlNop (s : State) : Answer := .next s

/-- BEGIN: `run` is set when `transport_ok` is 1 and the core is stopped; otherwise nothing changes (45_dispatch_engine.md R284). -/
def execCtlBegin (s : State) : Answer :=
  if s.ports.transportOk && !s.core.run then .next (s.withRun true) else .next s

/-- END: `run` is cleared and all other state is kept (45_dispatch_engine.md R285). -/
def execCtlEnd (s : State) : Answer := .next (s.withRun false)

/-- CTL_RESERVED_3: taken with no effect (30_encoding.md R116). -/
def execCtlReserved3 (s : State) : Answer := .next s

end Sys2Proof.Machine
end

