-- ==== Sys2Proof/Machine/Frames.lean ====
section
/-! DEFINITION. The meanings of the frame instructions: SYNC_FRAME on a candidate of each type (44_synchronizer.md R245), its DECODE
applied to the type byte the row names (42_decoder.md R167 to R173, R175). -/

namespace Sys2Proof.Machine

/-- A candidate of type 0x08 (42_decoder.md R167). It gives UNSUPPORTED_FRAME_TYPE when RX_ACCEPT_TX_TYPES is false. -/
def execFrameAtCommand (len : BitVec 16) (rest : List Byte) (s : State) : Answer :=
  syncFrame FrameType.atCommand.code len rest s

/-- A candidate of type 0x10 (42_decoder.md R168). It gives UNSUPPORTED_FRAME_TYPE when RX_ACCEPT_TX_TYPES is false. -/
def execFrameTransmit (len : BitVec 16) (rest : List Byte) (s : State) : Answer :=
  syncFrame FrameType.transmit.code len rest s

/-- A candidate of type 0x88 (42_decoder.md R169). -/
def execFrameAtResponse (len : BitVec 16) (rest : List Byte) (s : State) : Answer :=
  syncFrame FrameType.atResponse.code len rest s

/-- A candidate of type 0x8A (42_decoder.md R170). -/
def execFrameModemStatus (len : BitVec 16) (rest : List Byte) (s : State) : Answer :=
  syncFrame FrameType.modemStatus.code len rest s

/-- A candidate of type 0x8B (42_decoder.md R171). -/
def execFrameTxStatus (len : BitVec 16) (rest : List Byte) (s : State) : Answer :=
  syncFrame FrameType.txStatus.code len rest s

/-- A candidate of type 0x90 (42_decoder.md R172). -/
def execFrameReceive (len : BitVec 16) (rest : List Byte) (s : State) : Answer :=
  syncFrame FrameType.receive.code len rest s

/-- A candidate of type 0x91 (42_decoder.md R173). -/
def execFrameExplicitReceive (len : BitVec 16) (rest : List Byte) (s : State) : Answer :=
  syncFrame FrameType.explicitReceive.code len rest s

/-- A candidate of any other type byte: UNSUPPORTED_FRAME_TYPE (42_decoder.md R161). -/
def execFrameUnsupported (len : BitVec 16) (ftype : Byte) (rest : List Byte) (s : State) : Answer :=
  syncFrame ftype len rest s

end Sys2Proof.Machine
end

