-- ==== Sys2Proof/Machine/Dispatch.lean ====
section
/-! DEFINITION. One arm for each instruction: its meaning. -/

namespace Sys2Proof.Machine

def exec (i : Instr) (s : State) : Host.Outcome State Fault Refusal :=
  match i with
  | .frameAtCommand len rest => Sys2Proof.Machine.execFrameAtCommand len rest s
  | .frameTransmit len rest => Sys2Proof.Machine.execFrameTransmit len rest s
  | .frameAtResponse len rest => Sys2Proof.Machine.execFrameAtResponse len rest s
  | .frameModemStatus len rest => Sys2Proof.Machine.execFrameModemStatus len rest s
  | .frameTxStatus len rest => Sys2Proof.Machine.execFrameTxStatus len rest s
  | .frameReceive len rest => Sys2Proof.Machine.execFrameReceive len rest s
  | .frameExplicitReceive len rest => Sys2Proof.Machine.execFrameExplicitReceive len rest s
  | .frameUnsupported len ftype rest => Sys2Proof.Machine.execFrameUnsupported len ftype rest s
  | .addHandler key hid data => Sys2Proof.Machine.execAddHandler key hid data s
  | .setErrorHandler hid data => Sys2Proof.Machine.execSetErrorHandler hid data s
  | .encodeTransmit a64len a16v options w16 addr64 payload => Sys2Proof.Machine.execEncodeTransmit a64len a16v options w16 addr64 payload s
  | .encodeAtCommand atlen w16 param => Sys2Proof.Machine.execEncodeAtCommand atlen w16 param s
  | .reservedOp0 data => Sys2Proof.Machine.execReservedOp0 data s
  | .reservedOp5 data => Sys2Proof.Machine.execReservedOp5 data s
  | .reservedOp6 data => Sys2Proof.Machine.execReservedOp6 data s
  | .reservedOp7 data => Sys2Proof.Machine.execReservedOp7 data s
  | .reservedOp8 data => Sys2Proof.Machine.execReservedOp8 data s
  | .reservedOp9 data => Sys2Proof.Machine.execReservedOp9 data s
  | .reservedOpA data => Sys2Proof.Machine.execReservedOpA data s
  | .reservedOpB data => Sys2Proof.Machine.execReservedOpB data s
  | .reservedOpC data => Sys2Proof.Machine.execReservedOpC data s
  | .reservedOpD data => Sys2Proof.Machine.execReservedOpD data s
  | .reservedOpE data => Sys2Proof.Machine.execReservedOpE data s
  | .reservedOpF data => Sys2Proof.Machine.execReservedOpF data s
  | .ctlNop => Sys2Proof.Machine.execCtlNop s
  | .ctlBegin => Sys2Proof.Machine.execCtlBegin s
  | .ctlEnd => Sys2Proof.Machine.execCtlEnd s
  | .ctlReserved3 => Sys2Proof.Machine.execCtlReserved3 s

end Sys2Proof.Machine
end

