-- ==== Sys2Proof/Machine/Ports.lean ====
section
/-! DEFINITION. The port steps that no instruction names (45_dispatch_engine.md R270, R290, R291, R293; EVT_TAKE is in Machine/Ops.lean), SYNC_SEEK
(44_synchronizer.md R244), and what the world outside does to the inputs (10_state.md R31). Each step, where it is not
enabled, leaves the state as it is (log entry 7). -/

namespace Sys2Proof.Machine

/-- RX_ACCEPT: append the byte the transport offers; it then offers its next (45_dispatch_engine.md R290). A full buffer holds
the byte back (20_memory.md R87). -/
def rxAccept (s : State) : State :=
  if s.core.run && decide (s.core.rxq.length < s.params.rxbufCap) then
    match s.ports.rxIn with
    | [] => s
    | b :: bs => (s.withRxq (append s.core.rxq [b])).withPorts { s.ports with rxIn := bs }
  else s

/-- SYNC_SEEK: discard the head byte of `rxq` (44_synchronizer.md R244). -/
def syncSeek (s : State) : State :=
  if s.core.run && decide (syncState s.core.rxq = .seekingDelimiter) then s.withRxq (s.core.rxq.drop 1) else s

/-- TX_EMIT: hand the first byte of `txq` to the transport (45_dispatch_engine.md R291). -/
def txEmit (s : State) : State :=
  if s.core.run && s.ports.txReady then
    match s.core.txq with
    | [] => s
    | x :: q => (s.withTxq q).withPorts { s.ports with txOut := s.ports.txOut ++ [x] }
  else s

/-- CMD_APPEND: append the next byte of the frame to `txq`, if there is room (45_dispatch_engine.md R293, 20_memory.md R88). -/
def cmdAppend (b : Byte) (rest : List Byte) (resp : Response) (s : State) : State :=
  if s.core.txq.length < s.params.txbufCap then (s.withTxq (append s.core.txq [b])).withCu (.busy rest resp) else s

/-- RESP_TAKE: deliver the response and return to Idle (45_dispatch_engine.md R293). -/
def respTake (resp : Response) (s : State) : State :=
  if s.ports.respReady then
    (s.withCu .idle).withPorts { s.ports with respOut := s.ports.respOut ++ [resp] }
  else s

/-- One more data beat for the last command offered; none was offered: there is no command to extend (log entry 22). DESIGN
CHOICE (log entry 24): a header beat starts a new command even where the command before it lacks data beats, and later beats
go to the new one. -/
def addBeat (b : Byte) : List Command → List Command
  | [] => []
  | [c] => [{ c with data := c.data ++ [b] }]
  | c :: d :: cs => c :: addBeat b (d :: cs)

/-- What the world outside does to the ports; the core's record is not touched. A header beat always starts a new command (log
entry 24). -/
def applyOutside (o : Outside) (p : Ports) : Ports :=
  match o with
  | .offerByte b => { p with rxIn := p.rxIn ++ [b] }
  | .offerHeader h => { p with cmdIn := p.cmdIn ++ [{ header := h, data := [] }] }
  | .offerData b => { p with cmdIn := addBeat b p.cmdIn }
  | .offerControl op => { p with ctlIn := p.ctlIn ++ [op] }
  | .driveTransportOk v => { p with transportOk := v }
  | .driveReset v => { p with resetIn := v }
  | .driveTxReady v => { p with txReady := v }
  | .driveEvtReady v => { p with evtReady := v }
  | .driveRespReady v => { p with respReady := v }

end Sys2Proof.Machine
end

