-- ==== Sys2Proof/Machine/Agents.lean ====
section
/-! DEFINITION. One turn of one agent (45_dispatch_engine.md R270): the synchronizer, the command unit and the control port decode what
stands at their port and run that instruction; the other agents take their port step. -/

namespace Sys2Proof.Machine

/-- The synchronizer's turn: SYNC_SEEK, or SYNC_FRAME on the candidate decoded at the head of `rxq`, or no step
(44_synchronizer.md R241 to R245). -/
def syncTurn (s : State) : Answer :=
  match syncState s.core.rxq with
  | .waitMin => .next s
  | .seekingDelimiter => .next (syncSeek s)
  | .awaitingFullFrame => .next s
  | .frameReady =>
    match decodeStream s.core.rxq with
    | .ok (i, _) => exec i s
    | .error _ => .next s

/-- The command unit's turn: CMD_ACCEPT of a complete command, CMD_APPEND or RESP_TAKE (45_dispatch_engine.md R293). An
incomplete command waits for its data beats (43_encoder.md R204), also where a later header has been offered behind it, which
the spec does not speak of (log entry 24). -/
def commandTurn (s : State) : Answer :=
  match s.core.cu with
  | .busy (b :: rest) resp => .next (cmdAppend b rest resp s)
  | .busy [] resp => .next (respTake resp s)
  | .idle =>
    match s.ports.cmdIn with
    | [] => .next s
    | c :: cs =>
      match decodeCommand c.header c.data with
      | .ok i => exec i (s.withPorts { s.ports with cmdIn := cs })
      | .error _ => .next s

/-- The control port's turn: take the next control beat (30_encoding.md R116). -/
def controlTurn (s : State) : Answer :=
  match s.ports.ctlIn with
  | [] => .next s
  | op :: ops => exec (decodeControl op) (s.withPorts { s.ports with ctlIn := ops })

/-- The turn of an agent of the core while reset is not asserted. -/
def agentTurn (a : Agent) (s : State) : Answer :=
  match a with
  | .rxPort => .next (rxAccept s)
  | .synchronizer => syncTurn s
  | .commandUnit => commandTurn s
  | .txPort => .next (txEmit s)
  | .eventPort => .next (evtTake s)
  | .controlPort => controlTurn s

/-- One turn. While the reset input is asserted the core's only step is RESET, whichever agent's turn it is
(70_reset_and_hazards.md R360, 60_exceptions.md R331); the world outside still moves its inputs. -/
def takeTurn (t : Turn) (s : State) : Answer :=
  match t with
  | .outside o => .next (s.withPorts (applyOutside o s.ports))
  | .core a => if s.ports.resetIn then .next (resetCore s) else agentTurn a s

/-- Whose turn it is, and the state with that turn taken from the list; where the list is used up, a free value decides
(45_dispatch_engine.md R272; log entries 2 and 3). -/
def nextTurn (s : State) : Turn × State :=
  match s.sched with
  | t :: ts => (t, { s with sched := ts })
  | [] => (Config.freeTurn s.tick, { s with tick := s.tick + 1 })

/-- The step of `a` that 45_dispatch_engine.md R270 lists is enabled. For the command port "a complete command" has exactly
`dlen` data beats. -/
def enabled (a : Agent) (s : State) : Bool :=
  match a with
  | .rxPort => s.core.run && decide (s.core.rxq.length < s.params.rxbufCap) && !s.ports.rxIn.isEmpty
  | .synchronizer =>
    s.core.run && (decide (syncState s.core.rxq = .seekingDelimiter)
      || decide (syncState s.core.rxq = .frameReady) && s.core.evt.isNone)
  | .eventPort => s.core.evt.isSome && s.ports.evtReady
  | .txPort => s.core.run && !s.core.txq.isEmpty && s.ports.txReady
  | .commandUnit =>
    match s.core.cu with
    | .idle =>
      match s.ports.cmdIn with
      | [] => false
      | c :: _ => decide (c.data.length = (hdrDlen c.header).toNat)
    | .busy (_ :: _) _ => decide (s.core.txq.length < s.params.txbufCap)
    | .busy [] _ => s.ports.respReady
  | .controlPort => !s.ports.ctlIn.isEmpty

/-! Placing an instruction where the next step fetches it (log entry 12). -/

/-- The words stand at their port and it is that port's turn: for a frame, `rxq` holds it (and zeros up to the eight bytes
the synchronizer waits for), the core runs and `evt` is empty; for a command, the unit is idle and it is offered first; a
control beat is offered first. -/
def State.withFetchWords (s : State) (w : Words) : State :=
  match w with
  | .frame bytes =>
    { s with
      core := { s.core with rxq := bytes ++ List.replicate (syncMinAvail - bytes.length) 0, run := true, evt := none }
      ports := { s.ports with resetIn := false }
      sched := .core .synchronizer :: s.sched }
  | .command h data =>
    { s with
      core := { s.core with cu := .idle }
      ports := { s.ports with resetIn := false, cmdIn := { header := h, data := data } :: s.ports.cmdIn }
      sched := .core .commandUnit :: s.sched }
  | .control op =>
    { s with
      ports := { s.ports with resetIn := false, ctlIn := op :: s.ports.ctlIn }
      sched := .core .controlPort :: s.sched }

end Sys2Proof.Machine
end

