-- ==== Sys2Proof/Machine/Step.lean ====
section
/-! DEFINITION. One step of the machine: one turn of one agent, or of the world outside (00_scope.md R12). -/

namespace Sys2Proof.Machine

/-- One step: whoever is next takes its turn. -/
def step (s : State) : Host.Outcome State Fault Refusal := takeTurn (nextTurn s).1 (nextTurn s).2

/-- The state with an instruction of the opcode table placed where the next step fetches it. -/
def State.withFetchWord (s : State) (nbits w : Nat) : State := s.withFetchWords (tableWords nbits w)

end Sys2Proof.Machine
end

