-- ==== Sys2Proof/Machine/Flags.lean ====
section
/-! DEFINITION. The status outputs: STATUS0, STATUS1, the registry read port, the ports' valid and ready signals, and the packed
port records. All are functions of the state (10_state.md R41); no step writes them. -/

namespace Sys2Proof.Machine

/-- The code of a synchronizer state in STATUS0 (10_state.md R43). -/
def SyncState.code : SyncState → BitVec 2
  | .waitMin => 0
  | .seekingDelimiter => 1
  | .awaitingFullFrame => 2
  | .frameReady => 3

/-- One status bit. -/
def bit (b : Bool) : BitVec 1 := BitVec.ofBool b

/-- The overlong candidate: it awaits bytes the buffer can never hold (44_synchronizer.md R248). -/
def rxOverlong (s : State) : Bool :=
  decide (syncState s.core.rxq = .awaitingFullFrame) && decide (declaredLen s.core.rxq + 4 > s.params.rxbufCap)

/-- `cu ≠ Idle`. -/
def cmdBusy (s : State) : Bool :=
  match s.core.cu with
  | .idle => false
  | .busy _ _ => true

/-- STATUS0 (10_state.md R43). -/
def status0 (s : State) : BitVec 32 :=
  (s.core.errh.getD 0) ++ (BitVec.ofNat 8 s.core.reg.length) ++ s.core.fid ++ (syncState s.core.rxq).code
    ++ bit (rxOverlong s) ++ bit (cmdBusy s) ++ bit s.core.evt.isSome ++ bit s.core.errh.isSome
    ++ bit s.ports.transportOk ++ bit s.core.run

/-- STATUS1 (10_state.md R44). -/
def status1 (s : State) : BitVec 32 :=
  (BitVec.ofNat 16 s.core.txq.length) ++ (BitVec.ofNat 16 s.core.rxq.length)

/-- What the registry read port returns (10_state.md R45). -/
structure RegRead where
  valid : Bool
  key : Byte
  hid : Byte
  deriving DecidableEq, Repr

/-- The registry read port (10_state.md R45). -/
def registryRead (s : State) (i : Byte) : RegRead :=
  match s.core.reg[i.toNat]? with
  | some e => { valid := true, key := e.key, hid := e.hid }
  | none => { valid := false, key := 0, hid := 0 }

/-! Valid and ready signals (60_exceptions.md R327, 70_reset_and_hazards.md R361). -/

/-- The event port's valid signal: exactly while `evt ≠ none`. -/
def evtValid (s : State) : Bool := s.core.evt.isSome

/-- The response port's valid signal: exactly while `cu = Busy([], resp)`. -/
def respValid (s : State) : Bool :=
  match s.core.cu with
  | .busy [] _ => true
  | .busy (_ :: _) _ => false
  | .idle => false

/-- The rx port's ready signal (45_dispatch_engine.md R270, 20_memory.md R87). -/
def rxPortReady (s : State) : Bool := s.core.run && decide (s.core.rxq.length < s.params.rxbufCap)

/-- The tx port's valid signal. The spec gives its reset value alone (70_reset_and_hazards.md R361); that it is valid exactly
where TX_EMIT lacks nothing but a ready transport (45_dispatch_engine.md R270), and so not while the core is stopped, is the
model's reading, DEDUCED (log entry 25). -/
def txPortValid (s : State) : Bool := s.core.run && !s.core.txq.isEmpty

/-- The command port's ready signal (45_dispatch_engine.md R293). -/
def cmdPortReady (s : State) : Bool := !cmdBusy s

/-- The control port is always ready (30_encoding.md R116). -/
def ctlPortReady (_ : State) : Bool := true

/-! Packed port records. -/

/-- The response record on the response port (30_encoding.md R117). -/
def Response.packed (r : Response) : BitVec 36 := r.rchk ++ r.rlen ++ r.rfid ++ r.status.code

/-- The 136 bits of `fixed`: byte `j` is lane `j` from the top and a byte beyond `fixed` is 0 (30_encoding.md R119). -/
def fixedLanes (fixed : List Byte) : BitVec 136 :=
  byteAt fixed 0 ++ byteAt fixed 1 ++ byteAt fixed 2 ++ byteAt fixed 3 ++ byteAt fixed 4 ++ byteAt fixed 5
    ++ byteAt fixed 6 ++ byteAt fixed 7 ++ byteAt fixed 8 ++ byteAt fixed 9 ++ byteAt fixed 10 ++ byteAt fixed 11
    ++ byteAt fixed 12 ++ byteAt fixed 13 ++ byteAt fixed 14 ++ byteAt fixed 15 ++ byteAt fixed 16

/-- The event's header beat (30_encoding.md R119). `nfix` is the number of bytes of `fixed`, which for an event the core produces is
`NFIX(ftype)`. -/
def Event.header (e : Event) : BitVec 210 :=
  match e.result with
  | .ok fixed data =>
    fixedLanes fixed ++ (BitVec.ofNat 16 data.length) ++ (BitVec.ofNat 5 fixed.length) ++ 0#16 ++ 0#16 ++ 0#3
      ++ e.ftype ++ e.hid ++ e.kind.code
  | .err code a b => 0#136 ++ 0#16 ++ 0#5 ++ b ++ a ++ code.code ++ e.ftype ++ e.hid ++ e.kind.code

/-- The event's data beats (30_encoding.md R119). -/
def Event.beats (e : Event) : List Byte :=
  match e.result with
  | .ok _ data => data
  | .err _ _ _ => []

end Sys2Proof.Machine
end

