-- ==== Sys2Proof/Machine/Stream.lean ====
section
/-! DEFINITION. The stream laws' vocabulary (44_synchronizer.md R250, 20_memory.md R82, 30_encoding.md R117): the actions a byte stream
determines, what a list of commands yields, and what one step of a run takes from the streams and adds to them. -/

namespace Sys2Proof.Machine

/-- A synchronizer action (44_synchronizer.md R250). -/
inductive SyncAct
  | seek
  | frame (raw : List Byte)
  deriving DecidableEq, Repr

/-- `acts(s)` of 44_synchronizer.md R250, with a bound on the number of actions. -/
def actsUpTo (cap : Nat) : Nat → List Byte → List SyncAct
  | 0, _ => []
  | n + 1, q =>
    match syncState q with
    | .waitMin => []
    | .seekingDelimiter => .seek :: actsUpTo cap n (q.drop 1)
    | .awaitingFullFrame => []
    | .frameReady =>
      if declaredLen q + 4 > cap then []
      else .frame (q.take (declaredLen q + 4)) :: actsUpTo cap n (q.drop (declaredLen q + 4))

/-- `acts(s)` (44_synchronizer.md R250); every action consumes a byte, so the stream's length bounds their number. -/
def acts (cap : Nat) (q : List Byte) : List SyncAct := actsUpTo cap q.length q

/-- It is the turn of agent `a` and reset is not asserted. -/
def isTurnOf (a : Agent) (s : State) : Bool := decide ((nextTurn s).1 = .core a) && !s.ports.resetIn

/-- The next step is RESET. -/
def isReset (s : State) : Bool :=
  s.ports.resetIn && match (nextTurn s).1 with
    | .core _ => true
    | .outside _ => false

/-- The byte the next step accepts on the rx port, if any. -/
def rxTaken (s : State) : List Byte :=
  if isTurnOf .rxPort s && enabled .rxPort s then s.ports.rxIn.take 1 else []

/-- The synchronizer action the next step takes, if any. -/
def syncTaken (s : State) : List SyncAct :=
  if isTurnOf .synchronizer s && enabled .synchronizer s then
    if syncState s.core.rxq = .seekingDelimiter then [.seek]
    else [.frame (s.core.rxq.take (declaredLen s.core.rxq + 4))]
  else []

/-- The command the next step accepts, if any (45_dispatch_engine.md R293). -/
def cmdTaken (s : State) : List Command :=
  if isTurnOf .commandUnit s && enabled .commandUnit s then
    match s.core.cu with
    | .idle => s.ports.cmdIn.take 1
    | .busy _ _ => []
  else []

/-- What a run of several steps has done. -/
structure RunRecord where
  /-- the state reached -/
  final : State
  /-- the bytes accepted on the rx port, in order -/
  rx : List Byte
  /-- the synchronizer actions taken, in order -/
  sync : List SyncAct
  /-- the events SYNC_FRAME steps produced, in order -/
  events : List Event
  /-- the commands accepted, in order -/
  commands : List Command
  /-- some step was RESET -/
  hadReset : Bool
  deriving DecidableEq, Repr

/-- The event a SYNC_FRAME step produced, if the step was one. -/
def newEvents (taken : List SyncAct) (after : State) : List Event :=
  match taken with
  | [.frame _] => after.core.evt.toList
  | _ => []

/-- `n` steps from `s`, with the record of what they did; none if a step does not answer a next state. -/
def runRecord : Nat → State → Option RunRecord
  | 0, s => some { final := s, rx := [], sync := [], events := [], commands := [], hadReset := false }
  | n + 1, s =>
    match step s with
    | .next t =>
      match runRecord n t with
      | some r =>
        some { final := r.final, rx := rxTaken s ++ r.rx, sync := syncTaken s ++ r.sync,
               events := newEvents (syncTaken s) t ++ r.events, commands := cmdTaken s ++ r.commands,
               hadReset := isReset s || r.hadReset }
      | none => none
    | .fault _ => none
    | .refused _ => none

/-- What an event says about its candidate, its routing aside: the type byte and the result. -/
def Event.content (e : Event) : Byte × EvResult := (e.ftype, e.result)

/-- The content of the event that a decode result gives (30_encoding.md R119, 45_dispatch_engine.md R280). -/
def Decoded.content : Decoded → Byte × EvResult
  | .ok t fixed data => (t, .ok fixed data)
  | .err code t a b => (t, .err code a b)

/-- The contents of the events that a list of synchronizer actions gives, in order: `decode(raw[3], raw)` for each
`FRAME(raw)` (44_synchronizer.md R250). -/
def eventContents (p : Params) : List SyncAct → List (Byte × EvResult)
  | [] => []
  | .seek :: as => eventContents p as
  | .frame raw :: as =>
    match decodeFrame p (byteAt raw 3) raw with
    | some res => res.content :: eventContents p as
    | none => eventContents p as

/-- What one command yields: the frame it sends (no bytes if it sends none), its response, and the frame-id counter and the
number of registry entries after it. -/
structure CommandResult where
  frame : List Byte
  resp : Response
  fid : Byte
  entries : Nat
  deriving DecidableEq, Repr

/-- The result of a command that sends no frame and leaves the frame-id counter (30_encoding.md R117). -/
def CommandResult.plain (status : RespStatus) (fid : Byte) (entries : Nat) : CommandResult :=
  { frame := [], resp := { status := status, rfid := 0, rlen := 0, rchk := 0 }, fid := fid, entries := entries }

/-- The result of a successful encode of `body` with frame id `rfid` (30_encoding.md R117). -/
def CommandResult.sent (rfid : Byte) (body : List Byte) (fid : Byte) (entries : Nat) : CommandResult :=
  { frame := mkframe body
    resp := { status := .ok, rfid := rfid, rlen := BitVec.ofNat 16 body.length, rchk := checksum body }
    fid := fid
    entries := entries }

/-- What a command yields, read off its header and data beats, by the counter and the number of entries it finds (30_encoding.md
R114, R117, R118; 43_encoder.md R205, R206, R210 to R212; 45_dispatch_engine.md R286 to R288). -/
def commandResult (regCap : Nat) (fid : Byte) (entries : Nat) (c : Command) : CommandResult :=
  match (hdrOp c.header).toNat with
  | 1 => if entries = regCap then .plain .registryFull fid entries else .plain .ok fid (entries + 1)
  | 2 => .plain .ok fid entries
  | 3 =>
    if hdrA64len c.header ≠ 8 then .plain .invalidAddressLength fid entries
    else if 14 + c.data.length > 65535 then .plain .encodeTooLong fid entries
    else .sent 0x00 (transmitBody (hdrA16v c.header) (hdrB8 c.header) (hdrW16 c.header) (hdrAddr64 c.header) c.data) fid
      entries
  | 4 =>
    if hdrAtlen c.header ≠ 2 then .plain .invalidCommandLength fid entries
    else if 4 + c.data.length > 65535 then .plain .encodeTooLong fid entries
    else .sent fid (atCommandBody fid (hdrW16 c.header) c.data) (fid + 1) entries
  | _ => .plain .badOpcode fid entries

/-- What a list of commands yields, one result for each, in order: each command finds the counter and the registry as the one
before it left them (45_dispatch_engine.md R293). -/
def commandResults (regCap : Nat) (fid : Byte) (entries : Nat) : List Command → List CommandResult
  | [] => []
  | c :: cs =>
    commandResult regCap fid entries c ::
      commandResults regCap (commandResult regCap fid entries c).fid (commandResult regCap fid entries c).entries cs

/-- The bytes of the frame being appended. -/
def pendingTx (c : CoreState) : List Byte :=
  match c.cu with
  | .idle => []
  | .busy rest _ => rest

/-- The tx stream: the bytes handed over, those queued, and those of the frame being appended (20_memory.md R79, R82). -/
def txStream (s : State) : List Byte := s.ports.txOut ++ s.core.txq ++ pendingTx s.core

/-- The response the command unit holds (10_state.md R39). -/
def pendingResp (c : CoreState) : List Response :=
  match c.cu with
  | .idle => []
  | .busy _ resp => [resp]

/-- The response stream: the responses delivered, then the one the command unit holds (30_encoding.md R117). -/
def respStream (s : State) : List Response := s.ports.respOut ++ pendingResp s.core

end Sys2Proof.Machine
end

