-- ==== Sys2Proof/Safety.lean ====
section
/-! DEFINITION. What counts as a safe state, in the terms the statements use: the invariants of 10_state.md R46, what an event may
hold, and the header fields each opcode uses. -/

namespace Sys2Proof.Machine

/-- A frame that an encoder rule produces (43_encoder.md R205, R210). -/
def EncoderFrame (f : List Byte) : Prop :=
  (∃ (a16v : BitVec 1) (options : Byte) (w16 : BitVec 16) (addr64 : BitVec 64) (payload : List Byte),
    14 + payload.length ≤ 65535 ∧ f = mkframe (transmitBody a16v options w16 addr64 payload)) ∨
  (∃ (frameId : Byte) (w16 : BitVec 16) (param : List Byte),
    4 + param.length ≤ 65535 ∧ f = mkframe (atCommandBody frameId w16 param))

/-- If the command unit is busy, what is left to append is a suffix of an encoder's frame (10_state.md R46). -/
def CmdUnitOk (u : CmdUnit) : Prop :=
  match u with
  | .idle => True
  | .busy rest _ => ∃ f, EncoderFrame f ∧ rest <:+ f

/-- What an event may hold (30_encoding.md R119, R120; I28; 42_decoder.md R175; 60_exceptions.md R325): an `Ok` result names a supported
type, has all of its fixed bytes, has data only for a type with a payload, and goes to a handler or to none; an `Err` result
carries one of the three errors that occur on the stream and goes to the error handler or to none; without a target the
handler id is 0. -/
def EventOk (p : Params) (e : Event) : Prop :=
  match e.result with
  | .ok fixed data =>
    (e.kind = .handler ∨ e.kind = .noHandler ∧ e.hid = 0) ∧
    ∃ t, registry p e.ftype = some t ∧ fixed.length = nfix t ∧ data.length ≤ 65535 ∧ (hasPayload t = false → data = [])
  | .err code _ _ =>
    (code = .unsupportedFrameType ∨ code = .frameTooShort ∨ code = .checksumError) ∧
    (e.kind = .errorHandler ∨ e.kind = .errorDropped ∧ e.hid = 0)

/-- The invariants of 10_state.md R46, and that a pending event is one the core may produce. -/
structure Inv (s : State) : Prop where
  rxq_le : s.core.rxq.length ≤ s.params.rxbufCap
  txq_le : s.core.txq.length ≤ s.params.txbufCap
  reg_le : s.core.reg.length ≤ s.params.regCap
  cu_ok : CmdUnitOk s.core.cu
  evt_ok : ∀ e, s.core.evt = some e → EventOk s.params e

/-- The header bits an opcode uses: the fields that 30_encoding.md R113 lists for it. -/
def usedHeaderBits (op : BitVec 4) : BitVec 128 :=
  match op.toNat with
  | 1 => 0x00000000000000000000FFFFFFFF000F#128
  | 2 => 0x00000000000000000000FFFFFF00000F#128
  | 3 => 0xFFFFFFFFFFFFFFFFFFFFFFFF00FF01FF#128
  | 4 => 0x0000000000000000FFFFFFFF0000060F#128
  | _ => 0x00000000000000000000FFFF0000000F#128

/-- The event stream: the events delivered, then the one waiting (20_memory.md R82). -/
def evtStream (s : State) : List Event := s.ports.evtOut ++ s.core.evt.toList

end Sys2Proof.Machine
end

