-- ==== Sys2Proof/Certificates/Slice0/Obligations.lean ====
section
/-! DEFINITION. The statements for the provers. -/

open Sys2Proof Sys2Proof.Machine

/-- Words written out from the encoding decode to their instructions. A frame, a command header and a control beat written
out from the encoding tables each decode to the instruction they stand for. Formalises R100, R103, R113, R114, R116,
R128. -/
def Obligations.DecodesWordsWrittenFromTheEncoding : Prop :=
  decode (.frame [0x7E, 0x00, 0x05, 0x88, 0x01, 0x42, 0x44, 0x00, 0xF0])
      = .ok (.frameAtResponse 5 [0x01, 0x42, 0x44, 0x00, 0xF0]) ∧
  decode (.command 0x00000000000000004E4A000000000404#128 []) = .ok (.encodeAtCommand 2 0x4E4A []) ∧
  decode (.command 0x00000000000000000000000001880001#128 []) = .ok (.addHandler 0x88 0x01 []) ∧
  decode (.control 1) = .ok .ctlBegin

/-- Decoding the encoding of any well-formed instruction gives it back. For every well-formed instruction, with every
operand at every value the encoding admits, decode of encode is that instruction. Formalises R100, R103, R113, R114,
R116. -/
def Obligations.DecodeOfEncodeGivesTheInstruction : Prop :=
  ∀ i : Instr, i.wellFormed = true → decode (encode i) = .ok i

/-- The instruction at the head of a stream ends where its length prefix says. If the decoder reads an instruction at the
head of a byte stream, the instruction is well-formed, its encoding is the first L+4 bytes of the stream, L being the
big-endian value of bytes 1 and 2, and the rest of the stream is what follows. Formalises R100, R102, R124. -/
def Obligations.StreamDecodeTakesDeclaredLength : Prop :=
  ∀ (q : List Byte) (i : Instr) (r : List Byte), decodeStream q = .ok (i, r) →
    i.wellFormed = true ∧ encode i = .frame (q.take (declaredLen q + 4)) ∧ r = q.drop (declaredLen q + 4) ∧
      declaredLen q + 4 ≤ q.length

/-- Two headers that agree on the fields their opcode uses are the same command. Bits [15:11] and every header field that an
opcode does not list change no result: two headers that agree on the opcode and on the bits it uses decode alike.
Formalises R113, R115. -/
def Obligations.IgnoredHeaderBitsChangeNothing : Prop :=
  ∀ (h h' : BitVec 128) (data : List Byte), hdrOp h = hdrOp h' →
    h &&& usedHeaderBits (hdrOp h) = h' &&& usedHeaderBits (hdrOp h) → decodeCommand h data = decodeCommand h' data

/-- On the synchronizer's turn, step runs the frame at the head of rxq. When it is the synchronizer's turn, reset is not
asserted, the synchronizer state is FRAME_READY and the bytes at the head of rxq decode to an instruction, step is exec
of that instruction on the state with the turn taken; taking a listed turn only removes it from the list. Whose turn it
is is the model's own data (log entries 2 and 3). Formalises R241, R245, R271. -/
def Obligations.StepRunsDecodedFrame : Prop :=
  (∀ (s : State) (i : Instr) (r : List Byte), (nextTurn s).1 = .core .synchronizer → s.ports.resetIn = false →
      syncState s.core.rxq = .frameReady → decodeStream s.core.rxq = .ok (i, r) →
      step s = exec i (nextTurn s).2) ∧
  (∀ (s : State) (t : Turn) (ts : List Turn), s.sched = t :: ts → nextTurn s = (t, { s with sched := ts }))

/-- On the command unit's turn, step runs the command offered first. When it is the command unit's turn, reset is not
asserted, the unit is idle and the first command offered decodes to an instruction, step is exec of that instruction on
the state with the turn and the command taken. Whose turn it is is the model's own data (log entries 2 and 3).
Formalises R113, R270, R293. -/
def Obligations.StepRunsDecodedCommand : Prop :=
  ∀ (s : State) (i : Instr) (c : Command) (cs : List Command), (nextTurn s).1 = .core .commandUnit →
    s.ports.resetIn = false → s.core.cu = .idle → s.ports.cmdIn = c :: cs →
    decode (.command c.header c.data) = .ok i →
    step s = exec i { (nextTurn s).2 with ports := { s.ports with cmdIn := cs } }

/-- On the control port's turn, step runs the control beat offered first. When it is the control port's turn, reset is not
asserted and a control beat is offered, step is exec of the instruction the beat decodes to on the state with the turn
and the beat taken. Whose turn it is is the model's own data (log entries 2 and 3). Formalises R116, R270. -/
def Obligations.StepRunsDecodedControl : Prop :=
  ∀ (s : State) (i : Instr) (op : BitVec 2) (ops : List (BitVec 2)), (nextTurn s).1 = .core .controlPort →
    s.ports.resetIn = false → s.ports.ctlIn = op :: ops → decode (.control op) = .ok i →
    step s = exec i { (nextTurn s).2 with ports := { s.ports with ctlIn := ops } }

/-- An agent with no enabled step changes nothing on its turn. For each agent, if no step of it is enabled in a state, its
turn leaves that state exactly as it is. That such a turn is a step that changes nothing is the model's choice (log
entry 7). Formalises R242, R243, R270, R340. -/
def Obligations.TurnWithoutEnabledStepChangesNothing : Prop :=
  ∀ (a : Agent) (s : State), enabled a s = false → agentTurn a s = .next s

/-- A step under reset sets the whole record to its reset values and nothing else. While the reset input is asserted, the
turn of any agent of the core is RESET: every element of the record takes its reset value, whatever the state was, and
the inputs, the parameters and what was handed over are unchanged. Whose turn it is and the record of what was handed
over are the model's own data (log entries 2, 3 and 5); that every turn of the core under reset is RESET, while the
inputs stay as they are driven, is the model's reading (log entry 6). Formalises R360. -/
def Obligations.ResetClearsTheRecord : Prop :=
  ∀ (s : State) (a : Agent), (nextTurn s).1 = .core a → s.ports.resetIn = true →
    step s = .next { (nextTurn s).2 with
      core := { rxq := [], txq := [], fid := 0x01, run := false, reg := [], errh := none, evt := none, cu := .idle } }

/-- The reset values of the record and of every output derived from it. After RESET in any state, the record and the outputs
have the values of the table of R361: STATUS0 is 0x00000100 with transport_ok in bit 1, STATUS1 is 0, the registry read
port is invalid at every index, and the port signals are as listed. The state after reset has the same record.
Formalises R361. -/
def Obligations.ResetValuesOfStateAndOutputs : Prop :=
  State.reset.core = CoreState.reset ∧
  ∀ s : State, (resetCore s).core.rxq = [] ∧ (resetCore s).core.txq = [] ∧ (resetCore s).core.fid = 0x01 ∧
    (resetCore s).core.run = false ∧ (resetCore s).core.reg = [] ∧ (resetCore s).core.errh = none ∧
    (resetCore s).core.evt = none ∧ (resetCore s).core.cu = .idle ∧ (resetCore s).core = CoreState.reset ∧
    status0 (resetCore s) = (0x00000100 ||| (bit s.ports.transportOk).setWidth 32 <<< 1) ∧
    status1 (resetCore s) = 0 ∧
    (∀ i, (registryRead (resetCore s) i).valid = false) ∧
    evtValid (resetCore s) = false ∧ respValid (resetCore s) = false ∧ rxPortReady (resetCore s) = false ∧
    txPortValid (resetCore s) = false ∧ cmdPortReady (resetCore s) = true

/-- A turn of the world outside makes its one change to the inputs and touches nothing of the core. A turn of the transport
or the host always answers a next state, in which the record and the parameters are unchanged. An offered byte, command
header or control beat goes to the end of its line, behind everything offered before; an offered data beat goes to the
end of the data beats of the last command offered, and is nothing where none is; driving transport_ok, reset, or the
readiness to take a tx byte, an event or a response sets that input alone. Each turn leaves every other input and
everything handed over so far as it was; so driving transport_ok has no effect on the record in any mode. That inputs
change in turns of their own, and the record of what was handed over, are the model's choice (log entries 2, 5 and 22),
and so is what a header or data beat does where the command before it is not complete or none is offered (log entries 22
and 24). Formalises R31, R72, R113, R116, R282. -/
def Obligations.OutsideTurnsMoveInputsOnly : Prop :=
  ∀ (s : State) (o : Outside), (nextTurn s).1 = .outside o →
    ∃ t, step s = .next t ∧ t = { (nextTurn s).2 with ports := t.ports } ∧ t.core = s.core ∧ t.params = s.params ∧
      (match o with
      | .offerByte b => t.ports = { s.ports with rxIn := s.ports.rxIn ++ [b] }
      | .offerHeader h => t.ports = { s.ports with cmdIn := s.ports.cmdIn ++ [{ header := h, data := [] }] }
      | .offerData b =>
        (s.ports.cmdIn = [] → t.ports = s.ports) ∧
        ∀ (cs : List Command) (c : Command), s.ports.cmdIn = cs ++ [c] →
          t.ports = { s.ports with cmdIn := cs ++ [{ header := c.header, data := c.data ++ [b] }] }
      | .offerControl op => t.ports = { s.ports with ctlIn := s.ports.ctlIn ++ [op] }
      | .driveTransportOk v => t.ports = { s.ports with transportOk := v }
      | .driveReset v => t.ports = { s.ports with resetIn := v }
      | .driveTxReady v => t.ports = { s.ports with txReady := v }
      | .driveEvtReady v => t.ports = { s.ports with evtReady := v }
      | .driveRespReady v => t.ports = { s.ports with respReady := v })

/-- The run flag gates the rx port, the synchronizer and the tx port, and no other agent. While run is false no step of the
rx port, the synchronizer or the tx port is enabled; whether a step of the command unit, the event port or the control
port is enabled does not depend on run, and neither does RESET. Formalises R271. -/
def Obligations.RunGatesExactlyThreeAgents : Prop :=
  (∀ s : State, s.core.run = false →
    enabled .rxPort s = false ∧ enabled .synchronizer s = false ∧ enabled .txPort s = false) ∧
  (∀ (s : State) (v : Bool),
    enabled .commandUnit { s with core := { s.core with run := v } } = enabled .commandUnit s ∧
    enabled .eventPort { s with core := { s.core with run := v } } = enabled .eventPort s ∧
    enabled .controlPort { s with core := { s.core with run := v } } = enabled .controlPort s) ∧
  (∀ (s : State) (a : Agent), s.ports.resetIn = true → takeTurn (.core a) s = .next (resetCore s))

/-- The corner cases of CHECKSUM. The empty span gives FF; a span whose byte sum is a multiple of 256 gives FF, as 80 80 and
FF 01 do; the span FF gives 00; FF minus the sum is the complement of the sum; the order of bytes does not matter; two
spans differing in one byte have different checksums; two spans differing by +d in one byte and -d in another have equal
checksums. Formalises R152. -/
def Obligations.ChecksumCornerCases : Prop :=
  checksum [] = 0xFF ∧
  (∀ b : List Byte, (b.map BitVec.toNat).sum % 256 = 0 → checksum b = 0xFF) ∧
  checksum [0x80, 0x80] = 0xFF ∧ checksum [0xFF, 0x01] = 0xFF ∧ checksum [0xFF] = 0x00 ∧
  (∀ acc : Byte, (0xFF - acc : Byte) = ~~~acc ∧ acc.toNat ≤ 0xFF) ∧
  (∀ b c : List Byte, b.Perm c → checksum b = checksum c) ∧
  (∀ (b c : List Byte) (x y : Byte), x ≠ y → checksum (b ++ x :: c) ≠ checksum (b ++ y :: c)) ∧
  (∀ (a b c : List Byte) (x y d : Byte), checksum (a ++ x :: (b ++ y :: c)) = checksum (a ++ (x + d) :: (b ++ (y - d) :: c)))

/-- A frame is well-checksummed exactly when its bytes from the type on sum to FF modulo 256. For a frame with declared
length L and all of its L+4 bytes, it is well-checksummed if and only if the sum of the bytes at offsets 3 to 3+L is
0xFF modulo 256; and the err_a field of a checksum error is always the recomputed checksum. Formalises R153. -/
def Obligations.ChecksumVerificationIdentity : Prop :=
  (∀ f : List Byte, f.length = declaredLen f + 4 →
    (wellChecksummed f = true ↔ ((slice f 3 (3 + declaredLen f + 1)).map BitVec.toNat).sum % 256 = 0xFF)) ∧
  (∀ (p : Params) (ft t : Byte) (raw : List Byte) (a b : BitVec 16),
    decodeFrame p ft raw = some (.err .checksumError t a b) →
    a.toNat = (checksum (slice raw 3 (3 + declaredLen raw))).toNat)

/-- DECODE applies its checks in order and the first that fails gives the result. For a span in the domain of DECODE: an
unsupported type gives UNSUPPORTED_FRAME_TYPE with info 0, 0; else a differing type byte gives INVALID_FRAME_TYPE with
both types; else a length mismatch gives FRAME_LENGTH_ERROR with declared and actual; else a length below the minimum
gives FRAME_TOO_SHORT with L and MIN; else a checksum mismatch gives CHECKSUM_ERROR with recomputed and received; else
the result is Ok with the fixed bytes and, for a type with a payload, the data. Formalises R160, R161, R162, R163, R164,
R165, R166, R174, R328. -/
def Obligations.FirstFailingCheckGivesTheResult : Prop :=
  ∀ (p : Params) (ft : Byte) (raw : List Byte), 4 ≤ raw.length → raw.length ≤ 65539 →
    (registry p ft = none → decodeFrame p ft raw = some (.err .unsupportedFrameType ft 0 0)) ∧
    (∀ t, registry p ft = some t →
      (byteAt raw 3 ≠ ft → decodeFrame p ft raw =
        some (.err .invalidFrameType ft (BitVec.ofNat 16 ft.toNat) (BitVec.ofNat 16 (byteAt raw 3).toNat))) ∧
      (byteAt raw 3 = ft → declaredLen raw ≠ raw.length - 4 → decodeFrame p ft raw =
        some (.err .frameLengthError ft (BitVec.ofNat 16 (declaredLen raw)) (BitVec.ofNat 16 (raw.length - 4)))) ∧
      (byteAt raw 3 = ft → declaredLen raw = raw.length - 4 → declaredLen raw < minLen t → decodeFrame p ft raw =
        some (.err .frameTooShort ft (BitVec.ofNat 16 (declaredLen raw)) (BitVec.ofNat 16 (minLen t)))) ∧
      (byteAt raw 3 = ft → declaredLen raw = raw.length - 4 → minLen t ≤ declaredLen raw →
        checksum (slice raw 3 (3 + declaredLen raw)) ≠ byteAt raw (3 + declaredLen raw) → decodeFrame p ft raw =
        some (.err .checksumError ft (BitVec.ofNat 16 (checksum (slice raw 3 (3 + declaredLen raw))).toNat)
          (BitVec.ofNat 16 (byteAt raw (3 + declaredLen raw)).toNat))) ∧
      (byteAt raw 3 = ft → declaredLen raw = raw.length - 4 → minLen t ≤ declaredLen raw →
        checksum (slice raw 3 (3 + declaredLen raw)) = byteAt raw (3 + declaredLen raw) → decodeFrame p ft raw =
        some (.ok ft (slice raw 4 (3 + minLen t))
          (if hasPayload t then slice raw (3 + minLen t) (3 + declaredLen raw) else []))))

/-- A span that DECODE accepts is well-checksummed, long enough and of a supported type. Whatever the span, if DECODE
returns a decoded payload then the type byte is the one asked for and supported, the length field matches the span, the
declared length is at least the type's minimum and the checksum validates; so a checksum mismatch never gives a payload.
Formalises R101, R104, R164, R165. -/
def Obligations.DecodedPayloadsAreChecked : Prop :=
  ∀ (p : Params) (ft t : Byte) (raw fixed data : List Byte), decodeFrame p ft raw = some (.ok t fixed data) →
    t = ft ∧ byteAt raw 3 = ft ∧ raw.length = declaredLen raw + 4 ∧ wellChecksummed raw = true ∧
      ∃ k, registry p ft = some k ∧ minLen k ≤ declaredLen raw ∧ fixed.length = nfix k

/-- The bytes an Ok result delivers are the named fields of its type, in wire order. For each frame type, if DECODE returns
Ok for a span, the fixed bytes are that type's named fields at their offsets, one after the other, and the data is its
variable payload (empty for the two types without one). For ExplicitReceive the cluster and profile values are the big-
endian values of their two bytes. Formalises R74, R106, R107, R108, R109, R110, R111, R112, R166. -/
def Obligations.DeliveredBytesAreTheNamedFields : Prop :=
  ∀ (p : Params) (raw fixed data : List Byte) (t : Byte),
    (decodeFrame p 0x08 raw = some (.ok t fixed data) →
      fixed = (atCommandFields raw).frameId :: (atCommandFields raw).command ∧ data = (atCommandFields raw).param) ∧
    (decodeFrame p 0x10 raw = some (.ok t fixed data) →
      fixed = (transmitFields raw).frameId :: ((transmitFields raw).addr64 ++ (transmitFields raw).addr16 ++
        [(transmitFields raw).broadcastRadius, (transmitFields raw).options]) ∧ data = (transmitFields raw).payload) ∧
    (decodeFrame p 0x88 raw = some (.ok t fixed data) →
      fixed = (atResponseFields raw).frameId :: ((atResponseFields raw).command ++ [(atResponseFields raw).status]) ∧
        data = (atResponseFields raw).data) ∧
    (decodeFrame p 0x8A raw = some (.ok t fixed data) → fixed = [(modemStatusFields raw).status] ∧ data = []) ∧
    (decodeFrame p 0x8B raw = some (.ok t fixed data) →
      fixed = (txStatusFields raw).frameId :: ((txStatusFields raw).addr16 ++ [(txStatusFields raw).retryCount,
        (txStatusFields raw).deliveryStatus, (txStatusFields raw).discoveryStatus]) ∧ data = []) ∧
    (decodeFrame p 0x90 raw = some (.ok t fixed data) →
      fixed = (receiveFields raw).addr64 ++ (receiveFields raw).addr16 ++ [(receiveFields raw).options] ∧
        data = (receiveFields raw).data) ∧
    (decodeFrame p 0x91 raw = some (.ok t fixed data) →
      fixed = (explicitReceiveFields raw).addr64 ++ (explicitReceiveFields raw).addr16 ++
        [(explicitReceiveFields raw).srcEndpoint, (explicitReceiveFields raw).dstEndpoint] ++
        (explicitReceiveFields raw).clusterId ++ (explicitReceiveFields raw).profileId ++
        [(explicitReceiveFields raw).options] ∧ data = (explicitReceiveFields raw).data ∧
      (explicitReceiveFields raw).clusterId = [byteAt raw 16, byteAt raw 17] ∧
      clusterIdValue raw = 256 * (byteAt raw 16).toNat + (byteAt raw 17).toNat ∧
      (explicitReceiveFields raw).profileId = [byteAt raw 18, byteAt raw 19] ∧
      profileIdValue raw = 256 * (byteAt raw 18).toNat + (byteAt raw 19).toNat)

/-- A well-checksummed AtCommand frame at the head of rxq is consumed and delivered. In every state where the core runs, evt
is empty, types 0x08 and 0x10 are accepted and a whole well-checksummed AtCommand frame stands at the head of rxq, exec
answers the state in which the frame is consumed and evt holds the routed Ok result with the fixed bytes and the data;
nothing else changes. Formalises R106, R167, R245. -/
def Obligations.AtCommandFrameCompletes : Prop :=
  ∀ (s : State) (frameId cmd0 cmd1 : Byte) (data tail : List Byte) (len : BitVec 16), s.core.run = true → s.core.evt = none → s.params.rxAcceptTxTypes = true →
      len.toNat = 4 + data.length →
      s.core.rxq = frameBytes len 0x08 ([frameId, cmd0, cmd1] ++ data ++ [checksum (0x08 :: ([frameId, cmd0, cmd1] ++ data))]) ++ tail →
      exec (.frameAtCommand len ([frameId, cmd0, cmd1] ++ data ++ [checksum (0x08 :: ([frameId, cmd0, cmd1] ++ data))])) s =
        .next { s with core := { s.core with rxq := tail, evt := some (routeOk 0x08 [frameId, cmd0, cmd1] data s.core.reg) } }

/-- A well-checksummed Transmit frame at the head of rxq is consumed and delivered. In every state where the core runs, evt
is empty, types 0x08 and 0x10 are accepted and a whole well-checksummed Transmit frame stands at the head of rxq, exec
answers the state in which the frame is consumed and evt holds the routed Ok result with the fixed bytes and the data;
nothing else changes. Formalises R107, R168, R245. -/
def Obligations.TransmitFrameCompletes : Prop :=
  ∀ (s : State) (frameId a0 a1 a2 a3 a4 a5 a6 a7 n0 n1 radius options : Byte) (data tail : List Byte) (len : BitVec 16), s.core.run = true → s.core.evt = none → s.params.rxAcceptTxTypes = true →
      len.toNat = 14 + data.length →
      s.core.rxq = frameBytes len 0x10 ([frameId, a0, a1, a2, a3, a4, a5, a6, a7, n0, n1, radius, options] ++ data ++ [checksum (0x10 :: ([frameId, a0, a1, a2, a3, a4, a5, a6, a7, n0, n1, radius, options] ++ data))]) ++ tail →
      exec (.frameTransmit len ([frameId, a0, a1, a2, a3, a4, a5, a6, a7, n0, n1, radius, options] ++ data ++ [checksum (0x10 :: ([frameId, a0, a1, a2, a3, a4, a5, a6, a7, n0, n1, radius, options] ++ data))])) s =
        .next { s with core := { s.core with rxq := tail, evt := some (routeOk 0x10 [frameId, a0, a1, a2, a3, a4, a5, a6, a7, n0, n1, radius, options] data s.core.reg) } }

/-- A well-checksummed AtResponse frame at the head of rxq is consumed and delivered. In every state where the core runs,
evt is empty and a whole well-checksummed AtResponse frame stands at the head of rxq, exec answers the state in which
the frame is consumed and evt holds the routed Ok result with the fixed bytes and the data; nothing else changes.
Formalises R108, R169, R245. -/
def Obligations.AtResponseFrameCompletes : Prop :=
  ∀ (s : State) (frameId cmd0 cmd1 status : Byte) (data tail : List Byte) (len : BitVec 16), s.core.run = true → s.core.evt = none →
      len.toNat = 5 + data.length →
      s.core.rxq = frameBytes len 0x88 ([frameId, cmd0, cmd1, status] ++ data ++ [checksum (0x88 :: ([frameId, cmd0, cmd1, status] ++ data))]) ++ tail →
      exec (.frameAtResponse len ([frameId, cmd0, cmd1, status] ++ data ++ [checksum (0x88 :: ([frameId, cmd0, cmd1, status] ++ data))])) s =
        .next { s with core := { s.core with rxq := tail, evt := some (routeOk 0x88 [frameId, cmd0, cmd1, status] data s.core.reg) } }

/-- A well-checksummed ModemStatus frame at the head of rxq is consumed and delivered. In every state where the core runs,
evt is empty and a whole well-checksummed ModemStatus frame stands at the head of rxq with at least eight bytes
buffered, exec answers the state in which the frame is consumed and evt holds the routed Ok result with the fixed bytes
and no data, whatever extra bytes the frame has; nothing else changes. Formalises R109, R170, R242, R245. -/
def Obligations.ModemStatusFrameCompletes : Prop :=
  ∀ (s : State) (status : Byte) (extra tail : List Byte) (len : BitVec 16), s.core.run = true → s.core.evt = none →
      len.toNat = 2 + extra.length →
      8 ≤ s.core.rxq.length →
      s.core.rxq = frameBytes len 0x8A ([status] ++ extra ++ [checksum (0x8A :: ([status] ++ extra))]) ++ tail →
      exec (.frameModemStatus len ([status] ++ extra ++ [checksum (0x8A :: ([status] ++ extra))])) s =
        .next { s with core := { s.core with rxq := tail, evt := some (routeOk 0x8A [status] [] s.core.reg) } }

/-- A well-checksummed TxStatus frame at the head of rxq is consumed and delivered. In every state where the core runs, evt
is empty and a whole well-checksummed TxStatus frame stands at the head of rxq, exec answers the state in which the
frame is consumed and evt holds the routed Ok result with the fixed bytes and no data, whatever extra bytes the frame
has; nothing else changes. Formalises R110, R171, R245. -/
def Obligations.TxStatusFrameCompletes : Prop :=
  ∀ (s : State) (frameId n0 n1 retry delivery discovery : Byte) (extra tail : List Byte) (len : BitVec 16), s.core.run = true → s.core.evt = none →
      len.toNat = 7 + extra.length →
      s.core.rxq = frameBytes len 0x8B ([frameId, n0, n1, retry, delivery, discovery] ++ extra ++ [checksum (0x8B :: ([frameId, n0, n1, retry, delivery, discovery] ++ extra))]) ++ tail →
      exec (.frameTxStatus len ([frameId, n0, n1, retry, delivery, discovery] ++ extra ++ [checksum (0x8B :: ([frameId, n0, n1, retry, delivery, discovery] ++ extra))])) s =
        .next { s with core := { s.core with rxq := tail, evt := some (routeOk 0x8B [frameId, n0, n1, retry, delivery, discovery] [] s.core.reg) } }

/-- A well-checksummed Receive frame at the head of rxq is consumed and delivered. In every state where the core runs, evt
is empty and a whole well-checksummed Receive frame stands at the head of rxq, exec answers the state in which the frame
is consumed and evt holds the routed Ok result with the fixed bytes and the data; nothing else changes. Formalises R111,
R172, R245. -/
def Obligations.ReceiveFrameCompletes : Prop :=
  ∀ (s : State) (a0 a1 a2 a3 a4 a5 a6 a7 n0 n1 options : Byte) (data tail : List Byte) (len : BitVec 16), s.core.run = true → s.core.evt = none →
      len.toNat = 12 + data.length →
      s.core.rxq = frameBytes len 0x90 ([a0, a1, a2, a3, a4, a5, a6, a7, n0, n1, options] ++ data ++ [checksum (0x90 :: ([a0, a1, a2, a3, a4, a5, a6, a7, n0, n1, options] ++ data))]) ++ tail →
      exec (.frameReceive len ([a0, a1, a2, a3, a4, a5, a6, a7, n0, n1, options] ++ data ++ [checksum (0x90 :: ([a0, a1, a2, a3, a4, a5, a6, a7, n0, n1, options] ++ data))])) s =
        .next { s with core := { s.core with rxq := tail, evt := some (routeOk 0x90 [a0, a1, a2, a3, a4, a5, a6, a7, n0, n1, options] data s.core.reg) } }

/-- A well-checksummed ExplicitReceive frame at the head of rxq is consumed and delivered. In every state where the core
runs, evt is empty and a whole well-checksummed ExplicitReceive frame stands at the head of rxq, exec answers the state
in which the frame is consumed and evt holds the routed Ok result with the fixed bytes and the data; nothing else
changes. Formalises R112, R173, R245. -/
def Obligations.ExplicitReceiveFrameCompletes : Prop :=
  ∀ (s : State) (a0 a1 a2 a3 a4 a5 a6 a7 n0 n1 srcEp dstEp c0 c1 p0 p1 options : Byte) (data tail : List Byte) (len : BitVec 16), s.core.run = true → s.core.evt = none →
      len.toNat = 18 + data.length →
      s.core.rxq = frameBytes len 0x91 ([a0, a1, a2, a3, a4, a5, a6, a7, n0, n1, srcEp, dstEp, c0, c1, p0, p1, options] ++ data ++ [checksum (0x91 :: ([a0, a1, a2, a3, a4, a5, a6, a7, n0, n1, srcEp, dstEp, c0, c1, p0, p1, options] ++ data))]) ++ tail →
      exec (.frameExplicitReceive len ([a0, a1, a2, a3, a4, a5, a6, a7, n0, n1, srcEp, dstEp, c0, c1, p0, p1, options] ++ data ++ [checksum (0x91 :: ([a0, a1, a2, a3, a4, a5, a6, a7, n0, n1, srcEp, dstEp, c0, c1, p0, p1, options] ++ data))])) s =
        .next { s with core := { s.core with rxq := tail, evt := some (routeOk 0x91 [a0, a1, a2, a3, a4, a5, a6, a7, n0, n1, srcEp, dstEp, c0, c1, p0, p1, options] data s.core.reg) } }

/-- A frame below its type's minimum gives FRAME_TOO_SHORT, whatever its checksum. For each of the seven frame instructions
of a supported type (FRAME_AT_COMMAND, FRAME_TRANSMIT, FRAME_AT_RESPONSE, FRAME_MODEM_STATUS, FRAME_TX_STATUS,
FRAME_RECEIVE, FRAME_EXPLICIT_RECEIVE): a candidate whose declared length is below the minimum, L = 0 among them, is
consumed and evt holds the routed FRAME_TOO_SHORT error with info L and MIN; nothing else changes. Formalises R105,
R164, R174, R245, R332. -/
def Obligations.FrameBelowMinimumIsTooShort : Prop :=
  ∀ (s : State) (t : FrameType) (len : BitVec 16) (rest tail : List Byte), s.core.run = true → s.core.evt = none →
    registry s.params t.code = some t → rest.length = len.toNat → len.toNat < minLen t → 8 ≤ s.core.rxq.length →
    s.core.rxq = frameBytes len t.code rest ++ tail →
    exec (frameInstr len t.code rest) s =
      .next { s with core := { s.core with
        rxq := tail, evt := some (routeErr .frameTooShort t.code len (BitVec.ofNat 16 (minLen t)) s.core.errh) } }

/-- A long enough frame with a wrong checksum gives CHECKSUM_ERROR and no payload. For each of the seven frame instructions
of a supported type: a candidate of at least the minimum length whose last byte is not the checksum of the bytes from
the type on is consumed and evt holds the routed CHECKSUM_ERROR with the recomputed and the received byte; nothing else
changes. Formalises R101, R165, R245, R332. -/
def Obligations.BadChecksumIsReported : Prop :=
  ∀ (s : State) (t : FrameType) (len : BitVec 16) (body tail : List Byte) (c : Byte), s.core.run = true →
    s.core.evt = none → registry s.params t.code = some t → len.toNat = body.length + 1 → minLen t ≤ len.toNat →
    c ≠ checksum (t.code :: body) → 8 ≤ s.core.rxq.length →
    s.core.rxq = frameBytes len t.code (body ++ [c]) ++ tail →
    exec (frameInstr len t.code (body ++ [c])) s =
      .next { s with core := { s.core with
        rxq := tail, evt := some (routeErr .checksumError t.code ((checksum (t.code :: body)).setWidth 16) (c.setWidth 16) s.core.errh) } }

/-- Every frame a step delivers to a handler is checked. If a step puts an event of kind HANDLER into the empty event
register, the event carries an Ok result, and the candidate it came from, the first L+4 bytes of rxq, is well-
checksummed, of a supported type and at least as long as the type's minimum. Formalises R325. -/
def Obligations.OnlyCheckedFramesReachAHandler : Prop :=
  ∀ (s t : State) (e : Event), step s = .next t → s.core.evt = none → t.core.evt = some e → e.kind = .handler →
    ∃ (raw fixed data : List Byte) (k : FrameType), raw = s.core.rxq.take (declaredLen s.core.rxq + 4) ∧
      e.result = .ok fixed data ∧ e.ftype = byteAt raw 3 ∧ wellChecksummed raw = true ∧
      registry s.params e.ftype = some k ∧ minLen k ≤ declaredLen raw

/-- SYNC_SEEK discards exactly the head byte, with evt full or empty, and reports nothing. When the core runs, at least
eight bytes are buffered and the head byte is not 7E, the synchronizer's turn removes that one byte from rxq and changes
nothing else, whether or not an event is pending. Formalises R244, R323. -/
def Obligations.SeekDiscardsOneByte : Prop :=
  ∀ (s : State) (b : Byte) (q : List Byte), s.core.run = true → s.core.rxq = b :: q → b ≠ 0x7E → 7 ≤ q.length →
    agentTurn .synchronizer s = .next { s with core := { s.core with rxq := q } }

/-- The synchronizer writes nothing but rxq and evt, and does nothing on an empty buffer. Whatever the synchronizer's turn
answers differs from the state before at most in rxq and evt; with rxq empty the synchronizer state is WAIT_MIN, no
synchronizer step is enabled and nothing changes. Formalises R247. -/
def Obligations.SynchronizerWritesOnlyRxqAndEvt : Prop :=
  (∀ s t : State, agentTurn .synchronizer s = .next t →
    t = { s with core := { s.core with rxq := t.core.rxq, evt := t.core.evt } }) ∧
  (∀ s : State, s.core.rxq = [] →
    syncState s.core.rxq = .waitMin ∧ enabled .synchronizer s = false ∧ agentTurn .synchronizer s = .next s)

/-- An overlong candidate stays at the head of rxq until reset. From a state whose candidate is longer than the buffer's
capacity, every step but RESET keeps it so: no synchronizer step is enabled, no byte of rxq is lost, no new event
appears, and STATUS0 bit 5 stays 1. That steps which do nothing exist is the model's choice (log entry 7). Formalises
R248, R368. -/
def Obligations.OverlongCandidateStallsUntilReset : Prop :=
  ∀ s t : State, rxOverlong s = true → step s = .next t → isReset s = false →
    rxOverlong t = true ∧ enabled .synchronizer t = false ∧ s.core.rxq <+: t.core.rxq ∧
      (t.core.evt = s.core.evt ∨ t.core.evt = none) ∧ (status0 t).extractLsb' 5 1 = 1

/-- The bytes alone determine the synchronizer's actions and the contents of its events. For every run without a reset, of
any length and under any order of turns, from a state whose rxq fits its capacity: the actions that the bytes in rxq at
the start followed by all bytes accepted since determine are exactly the synchronizer actions taken, in order, followed
by those the bytes left in rxq determine; the events produced have, in order, the contents that decode gives for each
candidate; and where the core runs, evt is empty and no synchronizer step is enabled, no action is left. Formalises
R241, R244, R245, R250, R330. -/
def Obligations.StreamDeterminesSynchronizerActions : Prop :=
  (∀ (n : Nat) (s : State) (r : RunRecord), s.core.rxq.length ≤ s.params.rxbufCap → runRecord n s = some r →
    r.hadReset = false →
    acts s.params.rxbufCap (s.core.rxq ++ r.rx) = r.sync ++ acts s.params.rxbufCap r.final.core.rxq ∧
    r.events.map Event.content = eventContents s.params r.sync) ∧
  (∀ s : State, s.core.run = true → s.core.evt = none → enabled .synchronizer s = false →
    acts s.params.rxbufCap s.core.rxq = [])

/-- k garbage bytes without 7E before a good frame: exactly k bytes discarded, one Ok event. For k bytes none of which is
7E, followed by a well-checksummed frame of supported type, at least as long as its type's minimum, of at least eight
bytes and fitting the buffer, the actions are k seeks and that one frame, and the frame decodes to Ok. Formalises R251. -/
def Obligations.GarbageIsDiscardedAndTheFrameDelivered : Prop :=
  ∀ (p : Params) (g f : List Byte) (t : FrameType), (∀ b ∈ g, b ≠ 0x7E) → byteAt f 0 = 0x7E →
    f.length = declaredLen f + 4 → wellChecksummed f = true → registry p (byteAt f 3) = some t →
    minLen t ≤ declaredLen f → 8 ≤ f.length → f.length ≤ p.rxbufCap →
    acts p.rxbufCap (g ++ f) = List.replicate g.length .seek ++ [.frame f] ∧
    ∃ fixed data, decodeFrame p (byteAt f 3) f = some (.ok (byteAt f 3) fixed data)

/-- CMD_APPEND moves one byte when there is room, and RESP_TAKE follows the last byte. While the unit is busy with bytes
left, its turn moves the first to txq if txq has room and waits if txq is at capacity, in either mode; when no byte is
left and the host is ready, its turn delivers the response and returns to Idle. The record of responses delivered is the
model's own (log entry 5). Formalises R88, R293. -/
def Obligations.CommandUnitAppendsThenAnswers : Prop :=
  (∀ (s : State) (b : Byte) (rest : List Byte) (resp : Response), s.core.cu = .busy (b :: rest) resp →
    (s.core.txq.length < s.params.txbufCap → agentTurn .commandUnit s =
      .next { s with core := { s.core with txq := s.core.txq ++ [b], cu := .busy rest resp } }) ∧
    (s.core.txq.length = s.params.txbufCap → agentTurn .commandUnit s = .next s)) ∧
  (∀ (s : State) (resp : Response), s.core.cu = .busy [] resp → s.ports.respReady = true →
    agentTurn .commandUnit s =
      .next { s with core := { s.core with cu := .idle }, ports := { s.ports with respOut := s.ports.respOut ++ [resp] } })

/-- A frame that fits in txq is appended whole in as many turns of the command unit as it has bytes. With reset released and
room in txq for all bytes left, that many successive turns of the command unit append exactly those bytes, in order, and
leave only the response to deliver; nothing else changes, in either mode. The list of turns is the model's own data (log
entry 2). Formalises R79, R293, R375. -/
def Obligations.FrameReachesTxqWholeWithinItsLength : Prop :=
  ∀ (rest : List Byte) (resp : Response) (ts : List Turn) (s : State), s.core.cu = .busy rest resp →
    s.core.txq.length + rest.length ≤ s.params.txbufCap → s.ports.resetIn = false →
    s.sched = List.replicate rest.length (.core .commandUnit) ++ ts →
    ∃ r, runRecord rest.length s = some r ∧
      r.final = { s with core := { s.core with txq := s.core.txq ++ rest, cu := .busy [] resp }, sched := ts }

/-- The tx stream grows by the whole frames of the encodes that succeeded, in the order their commands were accepted. Over
every run without a reset, of any length and under any order of turns, the bytes handed to the transport, then those in
txq, then those still to append, are those of the start followed by the frames of the commands accepted in the run, in
the order they were accepted: the whole encoder frame of an encode that succeeds, with the frame id the counter holds
when its turn comes, and no byte of any other command. So no frame is interleaved with another, reordered, repeated or
lost; and what has been handed over stays handed over. The record of bytes handed over is the model's own (log entry 5).
Formalises R79, R82, R205, R210, R293. -/
def Obligations.TxStreamGrowsByWholeFrames : Prop :=
  ∀ (n : Nat) (s : State) (r : RunRecord), runRecord n s = some r → r.hadReset = false →
    s.ports.txOut <+: r.final.ports.txOut ∧
    txStream r.final = txStream s ++
      ((commandResults s.params.regCap s.core.fid s.core.reg.length r.commands).map CommandResult.frame).flatten ∧
    ∀ c ∈ commandResults s.params.regCap s.core.fid s.core.reg.length r.commands,
      (c.resp.rlen = 0 ∧ c.frame = []) ∨ (c.resp.status = .ok ∧ EncoderFrame c.frame)

/-- Events are taken in the order in which they were produced. Over every run without a reset, the events delivered followed
by the one pending are those of the start followed by the events produced, in order; none is lost, repeated or
reordered. The record of events delivered is the model's own (log entry 5). Formalises R82, R330. -/
def Obligations.EventsAreDeliveredInOrderProduced : Prop :=
  ∀ (n : Nat) (s : State) (r : RunRecord), runRecord n s = some r → r.hadReset = false →
    evtStream r.final = evtStream s ++ r.events

/-- Every frame the builder makes is well-checksummed and passes the decoder's type, length and checksum checks (checks 1 to
3). For a body of 1 to 65535 bytes the frame built is well-checksummed, its length field equals its length minus 4, and
its first byte is 7E; so decoding it for its own type byte gives no error of checks 1 to 3: no INVALID_FRAME_TYPE,
FRAME_LENGTH_ERROR or CHECKSUM_ERROR. An unsupported type (check 0) or a length below the type's minimum (check 2b) may
still be reported. Formalises R202. -/
def Obligations.BuiltFramesPassChecksOneToThree : Prop :=
  ∀ (t : Byte) (rest : List Byte), (t :: rest).length ≤ 65535 →
    wellChecksummed (mkframe (t :: rest)) = true ∧
    declaredLen (mkframe (t :: rest)) = (mkframe (t :: rest)).length - 4 ∧ byteAt (mkframe (t :: rest)) 0 = 0x7E ∧
    ∀ (p : Params) (c : ErrCode) (ft : Byte) (a b : BitVec 16),
      decodeFrame p t (mkframe (t :: rest)) = some (.err c ft a b) →
      c ≠ .invalidFrameType ∧ c ≠ .frameLengthError ∧ c ≠ .checksumError

/-- Round trip: decoding an encoder's frame recovers the fields. With RX_ACCEPT_TX_TYPES true: decoding the frame
ENCODE_TRANSMIT builds for a payload of at most 65521 bytes gives Ok with frame id 0, the same address, the supplied
addr16 or FF FE, radius 0, the same options and payload; decoding the frame ENCODE_AT_COMMAND builds gives the assigned
frame id, the command and the param. Formalises R178. -/
def Obligations.EncodedFramesDecodeToTheSameFields : Prop :=
  ∀ p : Params, p.rxAcceptTxTypes = true →
    (∀ (a16v : BitVec 1) (options : Byte) (w16 : BitVec 16) (addr64 : BitVec 64) (payload : List Byte),
      payload.length ≤ 65521 →
      decodeFrame p 0x10 (mkframe (transmitBody a16v options w16 addr64 payload)) =
        some (.ok 0x10 (0x00 :: (addr64Bytes addr64 ++ (if a16v = 1 then w16Bytes w16 else [0xFF, 0xFE]) ++ [0x00, options]))
          payload)) ∧
    (∀ (frameId : Byte) (w16 : BitVec 16) (param : List Byte), param.length ≤ 65531 →
      decodeFrame p 0x08 (mkframe (atCommandBody frameId w16 param)) =
        some (.ok 0x08 (frameId :: w16Bytes w16) param))

/-- ENCODE_TRANSMIT starts the frame it builds and prepares its response. With the unit idle, an 8-byte address and a
payload of at most 65521 bytes, exec sets the unit busy with the whole frame (delimiter, length, type 10, frame id 0,
the address, the supplied addr16 or FF FE, radius 0, options, payload, checksum) and the response OK with frame id 0, L
and the checksum; nothing else changes, fid included, in either mode. Formalises R200, R205, R207, R208, R209, R213. -/
def Obligations.EncodeTransmitCompletes : Prop :=
  ∀ (s : State) (a16v : BitVec 1) (options : Byte) (w16 : BitVec 16) (addr64 : BitVec 64) (payload : List Byte)
      (body : List Byte), s.core.cu = .idle → payload.length ≤ 65521 →
    body = [0x10, 0x00, addr64.extractLsb' 56 8, addr64.extractLsb' 48 8, addr64.extractLsb' 40 8,
      addr64.extractLsb' 32 8, addr64.extractLsb' 24 8, addr64.extractLsb' 16 8, addr64.extractLsb' 8 8,
      addr64.extractLsb' 0 8] ++ (if a16v = 1 then [w16.extractLsb' 8 8, w16.extractLsb' 0 8] else [0xFF, 0xFE]) ++
      [0x00, options] ++ payload →
    exec (.encodeTransmit 8 a16v options w16 addr64 payload) s =
      .next { s with core := { s.core with
        cu := .busy ([0x7E, BitVec.ofNat 8 (body.length / 256), BitVec.ofNat 8 body.length] ++ body ++ [checksum body])
          { status := .ok, rfid := 0x00, rlen := BitVec.ofNat 16 body.length, rchk := checksum body } } }

/-- ENCODE_AT_COMMAND takes the frame id, advances the counter and starts its frame. With the unit idle, two command bytes
and a param of at most 65531 bytes, exec sets the unit busy with the whole frame carrying the counter's value as frame
id, prepares the response OK with that id, L and the checksum, and advances fid by one modulo 256 (FF to 00); nothing
else changes, in either mode. Formalises R35, R85, R200, R210, R212, R213. -/
def Obligations.EncodeAtCommandCompletes : Prop :=
  ∀ (s : State) (w16 : BitVec 16) (param body : List Byte), s.core.cu = .idle → param.length ≤ 65531 →
    body = [0x08, s.core.fid, w16.extractLsb' 8 8, w16.extractLsb' 0 8] ++ param →
    exec (.encodeAtCommand 2 w16 param) s =
      .next { s with core := { s.core with
        fid := BitVec.ofNat 8 ((s.core.fid.toNat + 1) % 256)
        cu := .busy ([0x7E, BitVec.ofNat 8 (body.length / 256), BitVec.ofNat 8 body.length] ++ body ++ [checksum body])
          { status := .ok, rfid := s.core.fid, rlen := BitVec.ofNat 16 body.length, rchk := checksum body } } }

/-- Each of the twelve reserved opcodes answers BAD_OPCODE and changes nothing else. With the unit idle, RESERVED_OP_0 and
RESERVED_OP_5 to RESERVED_OP_F set the unit to answer BAD_OPCODE; the data beats are discarded and nothing else changes.
Formalises R288. -/
def Obligations.ReservedOpcodesAnswerBadOpcode : Prop :=
  ∀ (s t : State) (data : List Byte), s.core.cu = .idle →
    t = { s with core := { s.core with cu := .busy [] { status := .badOpcode, rfid := 0, rlen := 0, rchk := 0 } } } →
    exec (.reservedOp0 data) s = .next t ∧
    exec (.reservedOp5 data) s = .next t ∧
    exec (.reservedOp6 data) s = .next t ∧
    exec (.reservedOp7 data) s = .next t ∧
    exec (.reservedOp8 data) s = .next t ∧
    exec (.reservedOp9 data) s = .next t ∧
    exec (.reservedOpA data) s = .next t ∧
    exec (.reservedOpB data) s = .next t ∧
    exec (.reservedOpC data) s = .next t ∧
    exec (.reservedOpD data) s = .next t ∧
    exec (.reservedOpE data) s = .next t ∧
    exec (.reservedOpF data) s = .next t

/-- BEGIN sets run when the transport is valid and the core is stopped, END clears it, the others do nothing. CTL_BEGIN sets
run when transport_ok is 1 and run is 0 and otherwise changes nothing; CTL_END clears run and changes nothing else;
CTL_NOP and CTL_RESERVED_3 change nothing. All are taken in every state, whatever the command unit does. Formalises
R116, R282, R284, R285. -/
def Obligations.ControlBeatsSetAndClearRun : Prop :=
  ∀ s : State,
    (s.ports.transportOk = true → s.core.run = false → exec .ctlBegin s = .next { s with core := { s.core with run := true } }) ∧
    ((s.ports.transportOk = false ∨ s.core.run = true) → exec .ctlBegin s = .next s) ∧
    exec .ctlEnd s = .next { s with core := { s.core with run := false } } ∧
    exec .ctlNop s = .next s ∧ exec .ctlReserved3 s = .next s

/-- A frame of unsupported type gives the UNSUPPORTED_FRAME_TYPE error event, its checksum unread. In every state where the
core runs, evt is empty and a whole frame stands at the head of rxq with at least eight bytes buffered, exec of
FRAME_UNSUPPORTED for a type byte outside the enumeration, and of FRAME_AT_COMMAND and FRAME_TRANSMIT when
RX_ACCEPT_TX_TYPES is false, answers the state in which the frame is consumed and evt holds the routed
UNSUPPORTED_FRAME_TYPE error with info 0, 0, whatever the checksum; nothing else changes. Formalises R103, R104, R161,
R167, R168, R245, R332. -/
def Obligations.UnsupportedFrameCompletes : Prop :=
  ∀ (s : State) (len : BitVec 16) (ft : Byte) (rest tail : List Byte), s.core.run = true → s.core.evt = none →
    rest.length = len.toNat → 8 ≤ s.core.rxq.length → s.core.rxq = frameBytes len ft rest ++ tail →
    (FrameType.ofByte? ft = none → exec (.frameUnsupported len ft rest) s =
      .next { s with core := { s.core with
        rxq := tail, evt := some (routeErr .unsupportedFrameType ft 0 0 s.core.errh) } }) ∧
    (ft = 0x08 → s.params.rxAcceptTxTypes = false → exec (.frameAtCommand len rest) s =
      .next { s with core := { s.core with
        rxq := tail, evt := some (routeErr .unsupportedFrameType 0x08 0 0 s.core.errh) } }) ∧
    (ft = 0x10 → s.params.rxAcceptTxTypes = false → exec (.frameTransmit len rest) s =
      .next { s with core := { s.core with
        rxq := tail, evt := some (routeErr .unsupportedFrameType 0x10 0 0 s.core.errh) } })

/-- Where a decode result goes: the first matching handler, or the error slot. An Ok result whose type byte has an entry
after entries of other keys goes to that entry (kind HANDLER), whatever entries follow; with no entry, NO_HANDLER and id
0; the error slot plays no part. An error goes to the error slot (ERROR_HANDLER) with its code, type byte and both info
fields, or is ERROR_DROPPED with id 0; the registry plays no part. An entry whose key is not a supported type never
changes where a decode result goes. Formalises R280, R281, R332. -/
def Obligations.RouteGivesTheTarget : Prop :=
  (∀ (t h : Byte) (fixed data : List Byte) (reg1 reg2 : List RegEntry) (e : Option Byte), (∀ x ∈ reg1, x.key ≠ t) →
    route (.ok t fixed data) (reg1 ++ { key := t, hid := h } :: reg2) e =
      { kind := .handler, hid := h, ftype := t, result := .ok fixed data } ∧
    route (.ok t fixed data) reg1 e = { kind := .noHandler, hid := 0, ftype := t, result := .ok fixed data }) ∧
  (∀ (c : ErrCode) (t h : Byte) (a b : BitVec 16) (reg : List RegEntry),
    route (.err c t a b) reg (some h) = { kind := .errorHandler, hid := h, ftype := t, result := .err c a b } ∧
    route (.err c t a b) reg none = { kind := .errorDropped, hid := 0, ftype := t, result := .err c a b }) ∧
  (∀ (p : Params) (k h ft : Byte) (raw : List Byte) (res : Decoded) (reg1 reg2 : List RegEntry) (e : Option Byte),
    supported p k = false → decodeFrame p ft raw = some res →
    route res (reg1 ++ { key := k, hid := h } :: reg2) e = route res (reg1 ++ reg2) e)

/-- The encoders refuse a wrong operand length first and an overlong frame second, and keep fid. With the unit idle:
ENCODE_TRANSMIT with an address length other than 8 answers INVALID_ADDRESS_LENGTH whatever the payload, and with 8 and
a payload of 65522 bytes or more ENCODE_TOO_LONG; ENCODE_AT_COMMAND with a command length other than 2 answers
INVALID_COMMAND_LENGTH, and with 2 and a param of 65532 bytes or more ENCODE_TOO_LONG. No frame byte is queued and
nothing but the unit changes, fid included. Formalises R203, R204, R206, R211, R322, R329. -/
def Obligations.EncodeErrorsQueueNothing : Prop :=
  ∀ (s : State) (n : BitVec 4) (m : BitVec 2) (a16v : BitVec 1) (options : Byte) (w16 : BitVec 16)
      (addr64 : BitVec 64) (payload : List Byte), s.core.cu = .idle →
    (n ≠ 8 → exec (.encodeTransmit n a16v options w16 addr64 payload) s =
      .next { s with core := { s.core with
        cu := .busy [] { status := .invalidAddressLength, rfid := 0, rlen := 0, rchk := 0 } } }) ∧
    (n = 8 → 65522 ≤ payload.length → exec (.encodeTransmit n a16v options w16 addr64 payload) s =
      .next { s with core := { s.core with
        cu := .busy [] { status := .encodeTooLong, rfid := 0, rlen := 0, rchk := 0 } } }) ∧
    (m ≠ 2 → exec (.encodeAtCommand m w16 payload) s =
      .next { s with core := { s.core with
        cu := .busy [] { status := .invalidCommandLength, rfid := 0, rlen := 0, rchk := 0 } } }) ∧
    (m = 2 → 65532 ≤ payload.length → exec (.encodeAtCommand m w16 payload) s =
      .next { s with core := { s.core with
        cu := .busy [] { status := .encodeTooLong, rfid := 0, rlen := 0, rchk := 0 } } })

/-- ADD_HANDLER appends its entry or answers REGISTRY_FULL; SET_ERROR_HANDLER replaces the slot. With the unit idle:
ADD_HANDLER below capacity appends its entry at the end of reg, any key and id being accepted, and answers OK; at
capacity reg is unchanged and the answer is REGISTRY_FULL. SET_ERROR_HANDLER sets errh to the given id, whatever it
held, and answers OK. The data beats are discarded and nothing else changes, in either mode. That a registry is full
exactly at its capacity is read as the spec writes it (log entry 20). Formalises R36, R37, R286, R287. -/
def Obligations.HandlerCommandsWriteTheirRegister : Prop :=
  ∀ (s : State) (key hid : Byte) (data : List Byte), s.core.cu = .idle →
    (s.core.reg.length ≠ s.params.regCap → exec (.addHandler key hid data) s =
      .next { s with core := { s.core with
        reg := s.core.reg ++ [{ key := key, hid := hid }], cu := .busy [] { status := .ok, rfid := 0, rlen := 0, rchk := 0 } } }) ∧
    (s.core.reg.length = s.params.regCap → exec (.addHandler key hid data) s =
      .next { s with core := { s.core with cu := .busy [] { status := .registryFull, rfid := 0, rlen := 0, rchk := 0 } } }) ∧
    exec (.setErrorHandler hid data) s =
      .next { s with core := { s.core with
        errh := some hid, cu := .busy [] { status := .ok, rfid := 0, rlen := 0, rchk := 0 } } }

/-- RX_ACCEPT, TX_EMIT and EVT_TAKE each move one byte or event. When the core runs and rxq has room, the rx port's turn
appends the byte offered first and the transport then offers its next; when rxq is at capacity the turn changes nothing,
so no byte is dropped or overwritten. When the core runs and the transport is ready, the tx port's turn hands over the
first byte of txq, event pending or not. When an event is pending and the host is ready, the event port's turn delivers
it and empties evt, in either mode, and restores nothing. The record of bytes and events handed over is the model's own
(log entry 5). Formalises R87, R290, R291, R292, R333. -/
def Obligations.PortTurnsMoveOneItem : Prop :=
  (∀ (s : State) (b : Byte) (bs : List Byte), s.core.run = true → s.core.rxq.length < s.params.rxbufCap →
    s.ports.rxIn = b :: bs →
    agentTurn .rxPort s =
      .next { s with core := { s.core with rxq := s.core.rxq ++ [b] }, ports := { s.ports with rxIn := bs } }) ∧
  (∀ s : State, s.core.rxq.length = s.params.rxbufCap → agentTurn .rxPort s = .next s) ∧
  (∀ (s : State) (x : Byte) (q : List Byte), s.core.run = true → s.ports.txReady = true → s.core.txq = x :: q →
    agentTurn .txPort s =
      .next { s with core := { s.core with txq := q }, ports := { s.ports with txOut := s.ports.txOut ++ [x] } }) ∧
  (∀ (s : State) (e : Event), s.core.evt = some e → s.ports.evtReady = true →
    agentTurn .eventPort s =
      .next { s with core := { s.core with evt := none }, ports := { s.ports with evtOut := s.ports.evtOut ++ [e] } })

/-- A command waits while the unit is busy, and a frame until SYNC_FRAME is enabled on it. For every command instruction, if
the command unit is busy, exec leaves the state as it is: commands run strictly one at a time. For every frame
instruction, if the core is stopped, or evt is full, or the synchronizer state is not FRAME_READY, or the candidate at
the head of rxq is another one, exec leaves the state as it is. That waiting is a next state that changes nothing is the
model's choice (log entry 7). Formalises R242, R243, R245, R271, R293. -/
def Obligations.InstructionsWaitUntilEnabled : Prop :=
  (∀ (i : Instr) (h : BitVec 128) (data rest : List Byte) (resp : Response) (s : State), encode i = .command h data →
    s.core.cu = .busy rest resp → exec i s = .next s) ∧
  (∀ (i : Instr) (raw : List Byte) (s : State), encode i = .frame raw →
    (s.core.run = false ∨ s.core.evt ≠ none ∨ syncState s.core.rxq ≠ .frameReady ∨
      s.core.rxq.take (declaredLen s.core.rxq + 4) ≠ raw) → exec i s = .next s)

/-- No instruction and no step stops the core, and none changes a parameter. Every instruction in every state, and every
step of every state, answers a next state, with the four parameters unchanged: no error stops, halts or resets the core.
That a step with nothing to do answers the same state is the model's choice (log entry 7). Formalises R6, R31, R320. -/
def Obligations.NoStepStops : Prop :=
  (∀ (i : Instr) (s : State), ∃ t, exec i s = .next t ∧ t.params = s.params) ∧
  (∀ s : State, ∃ t, step s = .next t ∧ t.params = s.params)

/-- The frame-id counter changes only when an AT frame carrying its value is started. If a step that is not RESET changes
fid, then the unit was idle, fid advanced by exactly one modulo 256, and the unit now holds the whole AtCommand frame
that carries the old value; every other step leaves fid alone. Formalises R35, R207, R211, R212. -/
def Obligations.FrameIdAdvancesOnlyWithAnAtFrame : Prop :=
  ∀ s t : State, step s = .next t → isReset s = false → t.core.fid ≠ s.core.fid →
    s.core.cu = .idle ∧ t.core.fid = s.core.fid + 1 ∧
      ∃ (w16 : BitVec 16) (param : List Byte) (resp : Response), 4 + param.length ≤ 65535 ∧
        t.core.cu = .busy (mkframe (atCommandBody s.core.fid w16 param)) resp ∧ resp.rfid = s.core.fid

/-- Without reset the registry only grows at its end, by at most one entry a step, and the error slot is never emptied. A
step that is not RESET leaves reg as it is or appends one entry, and leaves errh as it is or sets it to some id; no step
removes or reorders an entry or clears the slot. Formalises R36, R37, R286, R287. -/
def Obligations.HandlerRegistersAreNeverCleared : Prop :=
  ∀ s t : State, step s = .next t → isReset s = false →
    (t.core.reg = s.core.reg ∨ ∃ e : RegEntry, t.core.reg = s.core.reg ++ [e] ∧ s.core.reg.length ≠ s.params.regCap) ∧
    (t.core.errh = s.core.errh ∨ ∃ h : Byte, t.core.errh = some h)

/-- Only BEGIN with a valid transport enters RUNNING, and only END or reset leaves it. A step that is not RESET and starts
run had it false, transport_ok true and the beat BEGIN taken on the control port's turn; one that stops it took the beat
END on the control port's turn. A mode change changes no other element of the record. Formalises R34, R284, R285, R335. -/
def Obligations.ModeChangesOnlyByControlBeatOrReset : Prop :=
  ∀ s t : State, step s = .next t → isReset s = false → t.core.run ≠ s.core.run →
    (nextTurn s).1 = .core .controlPort ∧ t.core = { s.core with run := t.core.run } ∧
    ((t.core.run = true ∧ s.ports.transportOk = true ∧ ∃ ops, s.ports.ctlIn = 1 :: ops) ∨
     (t.core.run = false ∧ ∃ ops, s.ports.ctlIn = 2 :: ops))

/-- Every step keeps the capacity bounds, the encoder suffix and the form of the pending event. From every state that meets
the four invariants of R46 and whose pending event is one the core may produce (an Ok result for a supported type with
exactly its fixed bytes and a target or none, or one of the three errors that occur on the stream,
UNSUPPORTED_FRAME_TYPE, FRAME_TOO_SHORT and CHECKSUM_ERROR, for the error handler or none), every step answers a state
that meets them. Formalises R46, R119, R175, R321, R325. -/
def Obligations.EveryStepKeepsTheInvariants : Prop :=
  ∀ s t : State, Inv s → step s = .next t → Inv t

/-- The state after reset meets the invariants. The state after reset, and the state RESET answers from any state, meet the
invariants of R46. The parameters of the state after reset are the spec's defaults: capacities of 256 bytes inbound and
outbound, 16 registry entries, types 0x08 and 0x10 accepted. They are legal, and parameters are legal exactly where the
inbound capacity is 8 to 65535, the outbound capacity 1 to 65535 and the registry capacity 1 to 255. That State.reset
carries the default parameters is the model's choice (log entry 1). Formalises R6, R46, R361. -/
def Obligations.ResetMeetsTheInvariants : Prop :=
  Inv State.reset ∧ (∀ s : State, Inv (resetCore s)) ∧
  State.reset.params = { rxbufCap := 256, txbufCap := 256, regCap := 16, rxAcceptTxTypes := true } ∧
  State.reset.params.legal = true ∧
  (∀ p : Params, p.legal = true ↔ 8 ≤ p.rxbufCap ∧ p.rxbufCap ≤ 65535 ∧ 1 ≤ p.txbufCap ∧ p.txbufCap ≤ 65535 ∧
    1 ≤ p.regCap ∧ p.regCap ≤ 255)

/-- The fields of STATUS0. Each field of STATUS0 has the value of the table of R43, in every state; the reset value is
0x00000100 with transport_ok in bit 1. Formalises R43. -/
def Obligations.Status0ShowsTheState : Prop :=
  (∀ s : State,
    (status0 s).extractLsb' 0 1 = BitVec.ofBool s.core.run ∧
    (status0 s).extractLsb' 1 1 = BitVec.ofBool s.ports.transportOk ∧
    (status0 s).extractLsb' 2 1 = BitVec.ofBool (decide (s.core.errh ≠ none)) ∧
    (status0 s).extractLsb' 3 1 = BitVec.ofBool (decide (s.core.evt ≠ none)) ∧
    (status0 s).extractLsb' 4 1 = BitVec.ofBool (decide (s.core.cu ≠ .idle)) ∧
    (status0 s).extractLsb' 5 1 = BitVec.ofBool (decide (syncState s.core.rxq = .awaitingFullFrame ∧
      be16 (byteAt s.core.rxq 1) (byteAt s.core.rxq 2) + 4 > s.params.rxbufCap)) ∧
    (status0 s).extractLsb' 6 2 = (match syncState s.core.rxq with
      | .waitMin => 0#2
      | .seekingDelimiter => 1#2
      | .awaitingFullFrame => 2#2
      | .frameReady => 3#2) ∧
    (status0 s).extractLsb' 8 8 = s.core.fid ∧
    (s.core.reg.length < 256 → ((status0 s).extractLsb' 16 8).toNat = s.core.reg.length) ∧
    (status0 s).extractLsb' 24 8 = s.core.errh.getD 0) ∧
  (∀ (s : State) (v : Bool), s.core = CoreState.reset → s.ports.transportOk = v →
    (status0 s).toNat = 0x00000100 + (if v then 2 else 0))

/-- The response record and the event header hold their fields at their bits. Each field of the packed response stands at
its bits, the six statuses with the codes 0 to 5 of R118. In the header beat of an event, the kind, with the codes 0 to
3 of R120, the handler id and the type byte stand at their bits; for an Ok result the error fields are 0, nfix and dlen
are the numbers of fixed and data bytes and lane j holds fixed byte j, 0 beyond them; for an error the code, 1 to 5 as
R121 numbers the five errors, and both info fields stand at their bits and all lanes and counts are 0. Formalises R76,
R117, R118, R119, R120, R121. -/
def Obligations.PortRecordsArePackedAsLaidOut : Prop :=
  (∀ r : Response,
    r.packed.extractLsb' 0 4 = (match r.status with
      | .ok => 0#4
      | .invalidAddressLength => 1#4
      | .invalidCommandLength => 2#4
      | .encodeTooLong => 3#4
      | .registryFull => 4#4
      | .badOpcode => 5#4) ∧ r.packed.extractLsb' 4 8 = r.rfid ∧
    r.packed.extractLsb' 12 16 = r.rlen ∧ r.packed.extractLsb' 28 8 = r.rchk) ∧
  (∀ e : Event,
    e.header.extractLsb' 0 2 = (match e.kind with
      | .handler => 0#2
      | .noHandler => 1#2
      | .errorHandler => 2#2
      | .errorDropped => 3#2) ∧ e.header.extractLsb' 2 8 = e.hid ∧
    e.header.extractLsb' 10 8 = e.ftype) ∧
  (∀ (e : Event) (fixed data : List Byte), e.result = .ok fixed data → fixed.length ≤ 17 → data.length ≤ 65535 →
    e.header.extractLsb' 18 3 = 0 ∧ e.header.extractLsb' 21 16 = 0 ∧ e.header.extractLsb' 37 16 = 0 ∧
    (e.header.extractLsb' 53 5).toNat = fixed.length ∧ (e.header.extractLsb' 58 16).toNat = data.length ∧
    e.beats = data ∧ ∀ j : Nat, j < 17 → e.header.extractLsb' (202 - 8 * j) 8 = fixed.getD j 0) ∧
  (∀ (e : Event) (c : ErrCode) (a b : BitVec 16), e.result = .err c a b →
    e.header.extractLsb' 18 3 = (match c with
      | .invalidFrameType => 1#3
      | .frameLengthError => 2#3
      | .frameTooShort => 3#3
      | .checksumError => 4#3
      | .unsupportedFrameType => 5#3) ∧ e.header.extractLsb' 21 16 = a ∧ e.header.extractLsb' 37 16 = b ∧
    e.header.extractLsb' 53 157 = 0 ∧ e.beats = [])

/-- The ports' valid and ready signals. The event port is valid exactly while evt is not empty; the response port exactly
while the unit is busy with no byte left; the command port is ready exactly while the unit is idle; the rx port is ready
exactly while the core runs with room in rxq; the tx port is valid exactly while the core runs and txq is not empty.
While the event port is not valid the event port has no enabled step, while the rx port is not ready the rx port has
none, and while the tx port is not valid the tx port has none. That the tx port is not valid while the core is stopped
is the model's reading (log entry 25). Formalises R270, R293, R299, R327. -/
def Obligations.ValidSignalsFollowTheRegisters : Prop :=
  ∀ s : State,
    (evtValid s = true ↔ s.core.evt ≠ none) ∧ (respValid s = true ↔ ∃ resp, s.core.cu = .busy [] resp) ∧
    (cmdPortReady s = true ↔ s.core.cu = .idle) ∧
    (rxPortReady s = true ↔ s.core.run = true ∧ s.core.rxq.length < s.params.rxbufCap) ∧
    (txPortValid s = true ↔ s.core.run = true ∧ s.core.txq ≠ []) ∧
    (evtValid s = false → enabled .eventPort s = false) ∧ (rxPortReady s = false → enabled .rxPort s = false) ∧
    (txPortValid s = false → enabled .txPort s = false)

/-- STATUS1 shows how many bytes each buffer holds; the registry read port returns entry i or invalid. In a state whose
buffers are within capacities of at most 65535, bits [15:0] of STATUS1 are the number of bytes in rxq and bits [31:16]
the number in txq; after reset the word is 0. For every index below the number of entries the registry read port returns
valid with the key and handler id of that entry; for every other index it returns valid 0, key 0 and handler id 0, in
either mode. Formalises R6, R44, R45. -/
def Obligations.StatusWordsAndRegistryPortShowTheState : Prop :=
  (∀ s : State, s.core.rxq.length ≤ s.params.rxbufCap → s.core.txq.length ≤ s.params.txbufCap →
    s.params.rxbufCap ≤ 65535 → s.params.txbufCap ≤ 65535 →
    ((status1 s).extractLsb' 0 16).toNat = s.core.rxq.length ∧
    ((status1 s).extractLsb' 16 16).toNat = s.core.txq.length) ∧
  (∀ s : State, s.core = CoreState.reset → status1 s = 0) ∧
  (∀ (s : State) (i : Byte),
    (∀ h : i.toNat < s.core.reg.length, registryRead s i =
      { valid := true, key := (s.core.reg[i.toNat]'h).key, hid := (s.core.reg[i.toNat]'h).hid }) ∧
    (s.core.reg.length ≤ i.toNat → registryRead s i = { valid := false, key := 0, hid := 0 }))

/-- Every command yields exactly one response, and responses come in command order. Over every run without a reset, of any
length and under any order of turns, the responses delivered, then the one the command unit holds, are those of the
start followed by one for each command accepted in the run, in the order they were accepted: its status, frame id,
length and checksum are those its opcode's rule gives, for the counter and the registry as the commands before it left
them. No response is lost, repeated or reordered, and what has been delivered stays delivered. The counter and the
number of registry entries at the end are those the last of these commands leaves. The record of responses delivered is
the model's own (log entry 5). Formalises R82, R117, R118, R293. -/
def Obligations.EveryCommandIsAnsweredOnceInOrder : Prop :=
  ∀ (n : Nat) (s : State) (r : RunRecord), runRecord n s = some r → r.hadReset = false →
    s.ports.respOut <+: r.final.ports.respOut ∧
    respStream r.final = respStream s ++
      (commandResults s.params.regCap s.core.fid s.core.reg.length r.commands).map CommandResult.resp ∧
    (respStream r.final).length = (respStream s).length + r.commands.length ∧
    (r.final.core.fid, r.final.core.reg.length) =
      ((commandResults s.params.regCap s.core.fid s.core.reg.length r.commands).map (fun c => (c.fid, c.entries))).getLastD
        (s.core.fid, s.core.reg.length)
end

