-- ==== Sys2Proof/Laws/Decode.lean ====
section
/-! SUPPORT. The small lemmas of the encoding: type bytes, byte order, header fields, and what the stream decoder answers. -/

namespace Sys2Proof

/-! Type bytes. -/

@[simp] theorem FrameType.ofByte?_code (t : FrameType) : FrameType.ofByte? t.code = some t := by cases t <;> decide

theorem FrameType.code_of_ofByte? {b : Byte} {t : FrameType} (h : FrameType.ofByte? b = some t) : t.code = b := by
  unfold FrameType.ofByte? at h
  split at h
  · next hb => cases h; exact hb.symm
  · split at h
    · next hb => cases h; exact hb.symm
    · split at h
      · next hb => cases h; exact hb.symm
      · split at h
        · next hb => cases h; exact hb.symm
        · split at h
          · next hb => cases h; exact hb.symm
          · split at h
            · next hb => cases h; exact hb.symm
            · split at h
              · next hb => cases h; exact hb.symm
              · cases h

/-! Byte order. -/

theorem be16_lt (hi lo : Byte) : be16 hi lo < 65536 := by unfold be16; omega

theorem toNat_hi8 (v : BitVec 16) : (hi8 v).toNat = v.toNat / 256 := by
  simp only [hi8, BitVec.extractLsb'_toNat, Nat.shiftRight_eq_div_pow]
  have := v.isLt
  omega

theorem toNat_lo8 (v : BitVec 16) : (lo8 v).toNat = v.toNat % 256 := by
  simp [lo8, BitVec.extractLsb'_toNat]

@[simp] theorem be16_hi8_lo8 (v : BitVec 16) : be16 (hi8 v) (lo8 v) = v.toNat := by
  simp only [be16, toNat_hi8, toNat_lo8]
  omega

theorem be16_eq_toNat_append (hi lo : Byte) : be16 hi lo = (hi ++ lo).toNat := by
  have hlo := lo.isLt
  rw [BitVec.toNat_append, ← Nat.shiftLeft_add_eq_or_of_lt hlo, Nat.shiftLeft_eq]
  unfold be16
  omega

@[simp] theorem hi8_append_lo8 (v : BitVec 16) : hi8 v ++ lo8 v = v := by
  apply BitVec.eq_of_toNat_eq
  rw [← be16_eq_toNat_append, be16_hi8_lo8]

@[simp] theorem hi8_append (hi lo : Byte) : hi8 (hi ++ lo) = hi := by
  apply BitVec.eq_of_toNat_eq
  rw [toNat_hi8, ← be16_eq_toNat_append]
  have := lo.isLt
  unfold be16
  omega

@[simp] theorem lo8_append (hi lo : Byte) : lo8 (hi ++ lo) = lo := by
  apply BitVec.eq_of_toNat_eq
  rw [toNat_lo8, ← be16_eq_toNat_append]
  have := lo.isLt
  unfold be16
  omega

/-! Frames. -/

@[simp] theorem length_frameBytes (len : BitVec 16) (t : Byte) (rest : List Byte) :
    (frameBytes len t rest).length = rest.length + 4 := rfl

/-- The encoding of a frame instruction is its frame. -/
@[simp] theorem encode_frameInstr (len : BitVec 16) (t : Byte) (rest : List Byte) :
    encode (frameInstr len t rest) = .frame (frameBytes len t rest) := by
  unfold frameInstr
  split
  all_goals first
    | (next h => simp only [encode, FrameType.code_of_ofByte? h])
    | rfl

theorem wellFormed_frameInstr (len : BitVec 16) (t : Byte) (rest : List Byte) :
    (frameInstr len t rest).wellFormed = decide (rest.length = len.toNat) := by
  unfold frameInstr
  split <;> simp_all [Instr.wellFormed, frameWellFormed]

/-- The stream decoder reads a whole frame and leaves what follows it. -/
theorem decodeStream_frameBytes (len : BitVec 16) (t : Byte) (rest tail : List Byte) (h : rest.length = len.toNat) :
    decodeStream (frameBytes len t rest ++ tail) = .ok (frameInstr len t rest, tail) := by
  simp [frameBytes, decodeStream, ← h]

/-- What the stream decoder can answer: a frame whose bytes are the head of the stream. -/
theorem decodeStream_eq_ok {q r : List Byte} {i : Instr} (h : decodeStream q = .ok (i, r)) :
    ∃ len t rest, rest.length = BitVec.toNat len ∧ i = frameInstr len t rest ∧ q = frameBytes len t rest ++ r := by
  match q, h with
  | d :: hi :: lo :: t :: tail, h =>
    simp only [decodeStream] at h
    split at h
    · cases h
    · next hd =>
      split at h
      · cases h
      · next hlen =>
        cases h
        refine ⟨hi ++ lo, t, tail.take (be16 hi lo), ?_, rfl, ?_⟩
        · rw [← be16_eq_toNat_append, List.length_take]; omega
        · have hd : d = sof := by simpa using hd
          simp [frameBytes, hd]
  | [d], h => simp only [decodeStream] at h; split at h <;> cases h
  | [d, _], h => simp only [decodeStream] at h; split at h <;> cases h
  | [d, _, _], h => simp only [decodeStream] at h; split at h <;> cases h
  | [], h => simp [decodeStream] at h

/-! Header fields. -/

section
variable (op a64len : BitVec 4) (a16v : BitVec 1) (atlen : BitVec 2) (b8 hid : Byte) (dlen w16 : BitVec 16)
  (addr64 : BitVec 64)

@[simp] theorem hdrOp_mkHeader : hdrOp (mkHeader op a64len a16v atlen b8 hid dlen w16 addr64) = op := by
  apply BitVec.eq_of_getLsbD_eq
  intro i hi
  simp only [hdrOp, mkHeader, BitVec.getLsbD_extractLsb', BitVec.getLsbD_append]
  grind

@[simp] theorem hdrA64len_mkHeader : hdrA64len (mkHeader op a64len a16v atlen b8 hid dlen w16 addr64) = a64len := by
  apply BitVec.eq_of_getLsbD_eq
  intro i hi
  simp only [hdrA64len, mkHeader, BitVec.getLsbD_extractLsb', BitVec.getLsbD_append]
  grind

@[simp] theorem hdrA16v_mkHeader : hdrA16v (mkHeader op a64len a16v atlen b8 hid dlen w16 addr64) = a16v := by
  apply BitVec.eq_of_getLsbD_eq
  intro i hi
  simp only [hdrA16v, mkHeader, BitVec.getLsbD_extractLsb', BitVec.getLsbD_append]
  grind

@[simp] theorem hdrAtlen_mkHeader : hdrAtlen (mkHeader op a64len a16v atlen b8 hid dlen w16 addr64) = atlen := by
  apply BitVec.eq_of_getLsbD_eq
  intro i hi
  simp only [hdrAtlen, mkHeader, BitVec.getLsbD_extractLsb', BitVec.getLsbD_append]
  grind

@[simp] theorem hdrB8_mkHeader : hdrB8 (mkHeader op a64len a16v atlen b8 hid dlen w16 addr64) = b8 := by
  apply BitVec.eq_of_getLsbD_eq
  intro i hi
  simp only [hdrB8, mkHeader, BitVec.getLsbD_extractLsb', BitVec.getLsbD_append]
  grind

@[simp] theorem hdrHid_mkHeader : hdrHid (mkHeader op a64len a16v atlen b8 hid dlen w16 addr64) = hid := by
  apply BitVec.eq_of_getLsbD_eq
  intro i hi
  simp only [hdrHid, mkHeader, BitVec.getLsbD_extractLsb', BitVec.getLsbD_append]
  grind

@[simp] theorem hdrDlen_mkHeader : hdrDlen (mkHeader op a64len a16v atlen b8 hid dlen w16 addr64) = dlen := by
  apply BitVec.eq_of_getLsbD_eq
  intro i hi
  simp only [hdrDlen, mkHeader, BitVec.getLsbD_extractLsb', BitVec.getLsbD_append]
  grind

@[simp] theorem hdrW16_mkHeader : hdrW16 (mkHeader op a64len a16v atlen b8 hid dlen w16 addr64) = w16 := by
  apply BitVec.eq_of_getLsbD_eq
  intro i hi
  simp only [hdrW16, mkHeader, BitVec.getLsbD_extractLsb', BitVec.getLsbD_append]
  grind

@[simp] theorem hdrAddr64_mkHeader : hdrAddr64 (mkHeader op a64len a16v atlen b8 hid dlen w16 addr64) = addr64 := by
  apply BitVec.eq_of_getLsbD_eq
  intro i hi
  simp only [hdrAddr64, mkHeader, BitVec.getLsbD_extractLsb', BitVec.getLsbD_append]
  grind

end

end Sys2Proof
end

