-- ==== Sys2Proof/Laws/State.lean ====
section
/-! SUPPORT. One lemma for each field and each update of the state. -/

namespace Sys2Proof.Machine

@[simp] theorem State.withRxq_rxq (s : State) (v : List Byte) : (s.withRxq v).core.rxq = v := rfl
@[simp] theorem State.withRxq_txq (s : State) (v : List Byte) : (s.withRxq v).core.txq = s.core.txq := rfl
@[simp] theorem State.withRxq_fid (s : State) (v : List Byte) : (s.withRxq v).core.fid = s.core.fid := rfl
@[simp] theorem State.withRxq_run (s : State) (v : List Byte) : (s.withRxq v).core.run = s.core.run := rfl
@[simp] theorem State.withRxq_reg (s : State) (v : List Byte) : (s.withRxq v).core.reg = s.core.reg := rfl
@[simp] theorem State.withRxq_errh (s : State) (v : List Byte) : (s.withRxq v).core.errh = s.core.errh := rfl
@[simp] theorem State.withRxq_evt (s : State) (v : List Byte) : (s.withRxq v).core.evt = s.core.evt := rfl
@[simp] theorem State.withRxq_cu (s : State) (v : List Byte) : (s.withRxq v).core.cu = s.core.cu := rfl
@[simp] theorem State.withRxq_ports (s : State) (v : List Byte) : (s.withRxq v).ports = s.ports := rfl
@[simp] theorem State.withRxq_params (s : State) (v : List Byte) : (s.withRxq v).params = s.params := rfl
@[simp] theorem State.withRxq_sched (s : State) (v : List Byte) : (s.withRxq v).sched = s.sched := rfl
@[simp] theorem State.withRxq_tick (s : State) (v : List Byte) : (s.withRxq v).tick = s.tick := rfl

@[simp] theorem State.withTxq_rxq (s : State) (v : List Byte) : (s.withTxq v).core.rxq = s.core.rxq := rfl
@[simp] theorem State.withTxq_txq (s : State) (v : List Byte) : (s.withTxq v).core.txq = v := rfl
@[simp] theorem State.withTxq_fid (s : State) (v : List Byte) : (s.withTxq v).core.fid = s.core.fid := rfl
@[simp] theorem State.withTxq_run (s : State) (v : List Byte) : (s.withTxq v).core.run = s.core.run := rfl
@[simp] theorem State.withTxq_reg (s : State) (v : List Byte) : (s.withTxq v).core.reg = s.core.reg := rfl
@[simp] theorem State.withTxq_errh (s : State) (v : List Byte) : (s.withTxq v).core.errh = s.core.errh := rfl
@[simp] theorem State.withTxq_evt (s : State) (v : List Byte) : (s.withTxq v).core.evt = s.core.evt := rfl
@[simp] theorem State.withTxq_cu (s : State) (v : List Byte) : (s.withTxq v).core.cu = s.core.cu := rfl
@[simp] theorem State.withTxq_ports (s : State) (v : List Byte) : (s.withTxq v).ports = s.ports := rfl
@[simp] theorem State.withTxq_params (s : State) (v : List Byte) : (s.withTxq v).params = s.params := rfl
@[simp] theorem State.withTxq_sched (s : State) (v : List Byte) : (s.withTxq v).sched = s.sched := rfl
@[simp] theorem State.withTxq_tick (s : State) (v : List Byte) : (s.withTxq v).tick = s.tick := rfl

@[simp] theorem State.withFid_rxq (s : State) (v : Byte) : (s.withFid v).core.rxq = s.core.rxq := rfl
@[simp] theorem State.withFid_txq (s : State) (v : Byte) : (s.withFid v).core.txq = s.core.txq := rfl
@[simp] theorem State.withFid_fid (s : State) (v : Byte) : (s.withFid v).core.fid = v := rfl
@[simp] theorem State.withFid_run (s : State) (v : Byte) : (s.withFid v).core.run = s.core.run := rfl
@[simp] theorem State.withFid_reg (s : State) (v : Byte) : (s.withFid v).core.reg = s.core.reg := rfl
@[simp] theorem State.withFid_errh (s : State) (v : Byte) : (s.withFid v).core.errh = s.core.errh := rfl
@[simp] theorem State.withFid_evt (s : State) (v : Byte) : (s.withFid v).core.evt = s.core.evt := rfl
@[simp] theorem State.withFid_cu (s : State) (v : Byte) : (s.withFid v).core.cu = s.core.cu := rfl
@[simp] theorem State.withFid_ports (s : State) (v : Byte) : (s.withFid v).ports = s.ports := rfl
@[simp] theorem State.withFid_params (s : State) (v : Byte) : (s.withFid v).params = s.params := rfl
@[simp] theorem State.withFid_sched (s : State) (v : Byte) : (s.withFid v).sched = s.sched := rfl
@[simp] theorem State.withFid_tick (s : State) (v : Byte) : (s.withFid v).tick = s.tick := rfl

@[simp] theorem State.withRun_rxq (s : State) (v : Bool) : (s.withRun v).core.rxq = s.core.rxq := rfl
@[simp] theorem State.withRun_txq (s : State) (v : Bool) : (s.withRun v).core.txq = s.core.txq := rfl
@[simp] theorem State.withRun_fid (s : State) (v : Bool) : (s.withRun v).core.fid = s.core.fid := rfl
@[simp] theorem State.withRun_run (s : State) (v : Bool) : (s.withRun v).core.run = v := rfl
@[simp] theorem State.withRun_reg (s : State) (v : Bool) : (s.withRun v).core.reg = s.core.reg := rfl
@[simp] theorem State.withRun_errh (s : State) (v : Bool) : (s.withRun v).core.errh = s.core.errh := rfl
@[simp] theorem State.withRun_evt (s : State) (v : Bool) : (s.withRun v).core.evt = s.core.evt := rfl
@[simp] theorem State.withRun_cu (s : State) (v : Bool) : (s.withRun v).core.cu = s.core.cu := rfl
@[simp] theorem State.withRun_ports (s : State) (v : Bool) : (s.withRun v).ports = s.ports := rfl
@[simp] theorem State.withRun_params (s : State) (v : Bool) : (s.withRun v).params = s.params := rfl
@[simp] theorem State.withRun_sched (s : State) (v : Bool) : (s.withRun v).sched = s.sched := rfl
@[simp] theorem State.withRun_tick (s : State) (v : Bool) : (s.withRun v).tick = s.tick := rfl

@[simp] theorem State.withReg_rxq (s : State) (v : List RegEntry) : (s.withReg v).core.rxq = s.core.rxq := rfl
@[simp] theorem State.withReg_txq (s : State) (v : List RegEntry) : (s.withReg v).core.txq = s.core.txq := rfl
@[simp] theorem State.withReg_fid (s : State) (v : List RegEntry) : (s.withReg v).core.fid = s.core.fid := rfl
@[simp] theorem State.withReg_run (s : State) (v : List RegEntry) : (s.withReg v).core.run = s.core.run := rfl
@[simp] theorem State.withReg_reg (s : State) (v : List RegEntry) : (s.withReg v).core.reg = v := rfl
@[simp] theorem State.withReg_errh (s : State) (v : List RegEntry) : (s.withReg v).core.errh = s.core.errh := rfl
@[simp] theorem State.withReg_evt (s : State) (v : List RegEntry) : (s.withReg v).core.evt = s.core.evt := rfl
@[simp] theorem State.withReg_cu (s : State) (v : List RegEntry) : (s.withReg v).core.cu = s.core.cu := rfl
@[simp] theorem State.withReg_ports (s : State) (v : List RegEntry) : (s.withReg v).ports = s.ports := rfl
@[simp] theorem State.withReg_params (s : State) (v : List RegEntry) : (s.withReg v).params = s.params := rfl
@[simp] theorem State.withReg_sched (s : State) (v : List RegEntry) : (s.withReg v).sched = s.sched := rfl
@[simp] theorem State.withReg_tick (s : State) (v : List RegEntry) : (s.withReg v).tick = s.tick := rfl

@[simp] theorem State.withErrh_rxq (s : State) (v : Option Byte) : (s.withErrh v).core.rxq = s.core.rxq := rfl
@[simp] theorem State.withErrh_txq (s : State) (v : Option Byte) : (s.withErrh v).core.txq = s.core.txq := rfl
@[simp] theorem State.withErrh_fid (s : State) (v : Option Byte) : (s.withErrh v).core.fid = s.core.fid := rfl
@[simp] theorem State.withErrh_run (s : State) (v : Option Byte) : (s.withErrh v).core.run = s.core.run := rfl
@[simp] theorem State.withErrh_reg (s : State) (v : Option Byte) : (s.withErrh v).core.reg = s.core.reg := rfl
@[simp] theorem State.withErrh_errh (s : State) (v : Option Byte) : (s.withErrh v).core.errh = v := rfl
@[simp] theorem State.withErrh_evt (s : State) (v : Option Byte) : (s.withErrh v).core.evt = s.core.evt := rfl
@[simp] theorem State.withErrh_cu (s : State) (v : Option Byte) : (s.withErrh v).core.cu = s.core.cu := rfl
@[simp] theorem State.withErrh_ports (s : State) (v : Option Byte) : (s.withErrh v).ports = s.ports := rfl
@[simp] theorem State.withErrh_params (s : State) (v : Option Byte) : (s.withErrh v).params = s.params := rfl
@[simp] theorem State.withErrh_sched (s : State) (v : Option Byte) : (s.withErrh v).sched = s.sched := rfl
@[simp] theorem State.withErrh_tick (s : State) (v : Option Byte) : (s.withErrh v).tick = s.tick := rfl

@[simp] theorem State.withEvt_rxq (s : State) (v : Option Event) : (s.withEvt v).core.rxq = s.core.rxq := rfl
@[simp] theorem State.withEvt_txq (s : State) (v : Option Event) : (s.withEvt v).core.txq = s.core.txq := rfl
@[simp] theorem State.withEvt_fid (s : State) (v : Option Event) : (s.withEvt v).core.fid = s.core.fid := rfl
@[simp] theorem State.withEvt_run (s : State) (v : Option Event) : (s.withEvt v).core.run = s.core.run := rfl
@[simp] theorem State.withEvt_reg (s : State) (v : Option Event) : (s.withEvt v).core.reg = s.core.reg := rfl
@[simp] theorem State.withEvt_errh (s : State) (v : Option Event) : (s.withEvt v).core.errh = s.core.errh := rfl
@[simp] theorem State.withEvt_evt (s : State) (v : Option Event) : (s.withEvt v).core.evt = v := rfl
@[simp] theorem State.withEvt_cu (s : State) (v : Option Event) : (s.withEvt v).core.cu = s.core.cu := rfl
@[simp] theorem State.withEvt_ports (s : State) (v : Option Event) : (s.withEvt v).ports = s.ports := rfl
@[simp] theorem State.withEvt_params (s : State) (v : Option Event) : (s.withEvt v).params = s.params := rfl
@[simp] theorem State.withEvt_sched (s : State) (v : Option Event) : (s.withEvt v).sched = s.sched := rfl
@[simp] theorem State.withEvt_tick (s : State) (v : Option Event) : (s.withEvt v).tick = s.tick := rfl

@[simp] theorem State.withCu_rxq (s : State) (v : CmdUnit) : (s.withCu v).core.rxq = s.core.rxq := rfl
@[simp] theorem State.withCu_txq (s : State) (v : CmdUnit) : (s.withCu v).core.txq = s.core.txq := rfl
@[simp] theorem State.withCu_fid (s : State) (v : CmdUnit) : (s.withCu v).core.fid = s.core.fid := rfl
@[simp] theorem State.withCu_run (s : State) (v : CmdUnit) : (s.withCu v).core.run = s.core.run := rfl
@[simp] theorem State.withCu_reg (s : State) (v : CmdUnit) : (s.withCu v).core.reg = s.core.reg := rfl
@[simp] theorem State.withCu_errh (s : State) (v : CmdUnit) : (s.withCu v).core.errh = s.core.errh := rfl
@[simp] theorem State.withCu_evt (s : State) (v : CmdUnit) : (s.withCu v).core.evt = s.core.evt := rfl
@[simp] theorem State.withCu_cu (s : State) (v : CmdUnit) : (s.withCu v).core.cu = v := rfl
@[simp] theorem State.withCu_ports (s : State) (v : CmdUnit) : (s.withCu v).ports = s.ports := rfl
@[simp] theorem State.withCu_params (s : State) (v : CmdUnit) : (s.withCu v).params = s.params := rfl
@[simp] theorem State.withCu_sched (s : State) (v : CmdUnit) : (s.withCu v).sched = s.sched := rfl
@[simp] theorem State.withCu_tick (s : State) (v : CmdUnit) : (s.withCu v).tick = s.tick := rfl

@[simp] theorem State.withCore_core (s : State) (v : CoreState) : (s.withCore v).core = v := rfl
@[simp] theorem State.withCore_ports (s : State) (v : CoreState) : (s.withCore v).ports = s.ports := rfl
@[simp] theorem State.withCore_params (s : State) (v : CoreState) : (s.withCore v).params = s.params := rfl
@[simp] theorem State.withCore_sched (s : State) (v : CoreState) : (s.withCore v).sched = s.sched := rfl
@[simp] theorem State.withCore_tick (s : State) (v : CoreState) : (s.withCore v).tick = s.tick := rfl

@[simp] theorem State.withPorts_ports (s : State) (v : Ports) : (s.withPorts v).ports = v := rfl
@[simp] theorem State.withPorts_core (s : State) (v : Ports) : (s.withPorts v).core = s.core := rfl
@[simp] theorem State.withPorts_params (s : State) (v : Ports) : (s.withPorts v).params = s.params := rfl
@[simp] theorem State.withPorts_sched (s : State) (v : Ports) : (s.withPorts v).sched = s.sched := rfl
@[simp] theorem State.withPorts_tick (s : State) (v : Ports) : (s.withPorts v).tick = s.tick := rfl

end Sys2Proof.Machine
end

