-- ==== Sys2Proof/Laws/Ops.lean ====
section
/-! SUPPORT. One lemma for each shared operation: everything it can do. -/

namespace Sys2Proof.Machine

/-! Slices and queues. -/

theorem consume_eq_some {q a r : List Byte} {n : Nat} (h : consume q n = some (a, r)) :
    n ≤ q.length ∧ a = q.take n ∧ r = q.drop n := by
  unfold consume avail at h
  split at h
  · next hn => cases h; exact ⟨hn, rfl, rfl⟩
  · cases h

theorem consume_of_le {q : List Byte} {n : Nat} (h : n ≤ q.length) : consume q n = some (q.take n, q.drop n) := by
  simp [consume, avail, h]

@[simp] theorem byteAt_cons_zero (b : Byte) (q : List Byte) : byteAt (b :: q) 0 = b := rfl
@[simp] theorem byteAt_cons_succ (b : Byte) (q : List Byte) (n : Nat) : byteAt (b :: q) (n + 1) = byteAt q n := rfl

theorem byteAt_append_left {q r : List Byte} {n : Nat} (h : n < q.length) : byteAt (q ++ r) n = byteAt q n := by
  unfold byteAt
  rw [List.getD_append _ _ _ _ h]

theorem byteAt_append_length (q r : List Byte) (x : Byte) : byteAt (q ++ x :: r) q.length = x := by
  unfold byteAt
  rw [List.getD_append_right _ _ _ _ (Nat.le_refl _)]
  simp

theorem length_slice (b : List Byte) (i j : Nat) : (slice b i j).length = min (j - i) (b.length - i) := by
  simp [slice]

/-- A slice begins with the byte at its start. -/
theorem slice_eq_cons {b : List Byte} {i j : Nat} (h : i < j) (hb : i < b.length) :
    slice b i j = byteAt b i :: slice b (i + 1) j := by
  unfold slice byteAt
  rw [List.drop_eq_getElem_cons hb, show j - i = (j - (i + 1)) + 1 by omega, List.take_succ_cons]
  simp [hb]

/-- A slice ends with the byte before its end. -/
theorem slice_succ {b : List Byte} {i j : Nat} (h : i ≤ j) (hb : j < b.length) :
    slice b i (j + 1) = slice b i j ++ [byteAt b j] := by
  unfold slice byteAt
  rw [show j + 1 - i = (j - i) + 1 by omega, List.take_add_one, List.getElem?_drop, show i + (j - i) = j by omega]
  simp [hb]

@[simp] theorem slice_self (b : List Byte) (i : Nat) : slice b i i = [] := by simp [slice]

/-- The bytes of a frame that its checksum covers. -/
theorem slice_frameBytes_checked {len : BitVec 16} {t c : Byte} {body : List Byte} (h : body.length + 1 = len.toNat) :
    slice (frameBytes len t (body ++ [c])) 3 (3 + len.toNat) = t :: body := by
  simp only [slice, frameBytes, List.drop_succ_cons, List.drop_zero]
  rw [← List.cons_append, List.take_left' (by simp; omega)]

/-- The last byte of a frame. -/
theorem byteAt_frameBytes_last {len : BitVec 16} {t c : Byte} {body : List Byte} (h : body.length + 1 = len.toNat) :
    byteAt (frameBytes len t (body ++ [c])) (3 + len.toNat) = c := by
  have hlast := byteAt_append_length (sof :: hi8 len :: lo8 len :: t :: body) [] c
  rw [show 3 + len.toNat = (sof :: hi8 len :: lo8 len :: t :: body).length by simp; omega]
  exact hlast

/-- The declared length of a frame's bytes, whatever follows them. -/
@[simp] theorem declaredLen_frameBytes_append (len : BitVec 16) (t : Byte) (rest tail : List Byte) :
    declaredLen (frameBytes len t rest ++ tail) = len.toNat := by
  simp [declaredLen, frameBytes]

@[simp] theorem declaredLen_frameBytes (len : BitVec 16) (t : Byte) (rest : List Byte) :
    declaredLen (frameBytes len t rest) = len.toNat := by
  simp [declaredLen, frameBytes]

theorem declaredLen_append {q r : List Byte} (h : 3 ≤ q.length) : declaredLen (q ++ r) = declaredLen q := by
  unfold declaredLen
  rw [byteAt_append_left (by omega), byteAt_append_left (by omega)]

theorem declaredLen_lt (q : List Byte) : declaredLen q < 65536 := be16_lt _ _

/-- A stream that is ready holds its candidate in full: the frame decoder reads it. -/
theorem frameReady_split {q : List Byte} (h : syncState q = .frameReady) :
    ∃ len t rest tail, rest.length = BitVec.toNat len ∧ q = frameBytes len t rest ++ tail := by
  unfold syncState syncMinAvail at h
  split at h
  · cases h
  · next h8 =>
    split at h
    · cases h
    · next hd =>
      split at h
      · cases h
      · next hl =>
        match q, h8, hd, hl with
        | d :: hi :: lo :: t :: tail, _, hd, hl =>
          have hd : d = sof := by simpa using hd
          simp only [declaredLen, byteAt_cons_succ, byteAt_cons_zero, List.length_cons] at hl
          refine ⟨hi ++ lo, t, tail.take (be16 hi lo), tail.drop (be16 hi lo), ?_, ?_⟩
          · rw [← be16_eq_toNat_append, List.length_take]; omega
          · simp [frameBytes, hd]
        | [], h8, _, _ => exact absurd (by simp : ([] : List Byte).length < 8) h8
        | [_], h8, _, _ => exact absurd (by simp) h8
        | [_, _], h8, _, _ => exact absurd (by simp) h8
        | [_, _, _], h8, _, _ => exact absurd (by simp) h8

/-- When the synchronizer state is FRAME_READY. -/
theorem syncState_eq_frameReady {q : List Byte} :
    syncState q = .frameReady ↔ 8 ≤ q.length ∧ byteAt q 0 = sof ∧ declaredLen q + 4 ≤ q.length := by
  unfold syncState syncMinAvail
  split
  · next h => simp; omega
  · next h =>
    split
    · next hd => simp; intro _ h0; exact absurd h0 hd
    · next hd =>
      split
      · next hl => simp; omega
      · next hl =>
        have hd : byteAt q 0 = sof := by simpa using hd
        simp [hd]; omega

/-- When the synchronizer state is SEEKING_DELIMITER. -/
theorem syncState_eq_seeking {q : List Byte} :
    syncState q = .seekingDelimiter ↔ 8 ≤ q.length ∧ byteAt q 0 ≠ sof := by
  unfold syncState syncMinAvail
  split
  · next h => simp; omega
  · next h =>
    split
    · next hd => simp [hd]; omega
    · next hd =>
      split
      · simp; intro _; simpa using hd
      · simp; intro _; simpa using hd

/-- When the synchronizer state is AWAITING_FULL_FRAME. -/
theorem syncState_eq_awaiting {q : List Byte} :
    syncState q = .awaitingFullFrame ↔ 8 ≤ q.length ∧ byteAt q 0 = sof ∧ q.length < declaredLen q + 4 := by
  unfold syncState syncMinAvail
  split
  · next h => simp; omega
  · next h =>
    split
    · next hd => simp; intro _ h0; exact absurd h0 hd
    · next hd =>
      have hd : byteAt q 0 = sof := by simpa using hd
      split
      · next hl => simp [hd, hl]; omega
      · next hl => simp [hd]; omega

/-! Checksum. -/

@[simp] theorem byteSum_nil : byteSum [] = 0 := rfl

theorem foldl_add_start (s : List Byte) (a : Byte) : s.foldl (fun acc x => acc + x) a = a + byteSum s := by
  induction s generalizing a with
  | nil => simp
  | cons x s ih =>
    simp only [byteSum, List.foldl_cons]
    rw [ih, ih (0 + x)]
    simp [BitVec.add_assoc]

@[simp] theorem byteSum_cons (x : Byte) (s : List Byte) : byteSum (x :: s) = x + byteSum s := by
  rw [byteSum, List.foldl_cons, foldl_add_start]
  simp

@[simp] theorem byteSum_append (s r : List Byte) : byteSum (s ++ r) = byteSum s + byteSum r := by
  induction s with
  | nil => simp
  | cons x s ih => simp [ih, BitVec.add_assoc]

/-- The wrapping sum is the sum of the bytes modulo 256. -/
theorem toNat_byteSum (s : List Byte) : (byteSum s).toNat = (s.map BitVec.toNat).sum % 256 := by
  induction s with
  | nil => rfl
  | cons x s ih => simp [BitVec.toNat_add, ih]

/-! Decoding and routing. -/

/-- What the registry lookup answers. -/
theorem registry_eq_some {p : Params} {b : Byte} {t : FrameType} (h : registry p b = some t) :
    t.code = b ∧ FrameType.ofByte? b = some t ∧ (isTxType t = true → p.rxAcceptTxTypes = true) := by
  unfold registry at h
  split at h
  · next k hk =>
    split at h
    · cases h
    · next hn =>
      cases h
      refine ⟨FrameType.code_of_ofByte? hk, hk, fun ht => ?_⟩
      simpa [ht] using hn
  · cases h

theorem registry_code (p : Params) (t : FrameType) :
    registry p t.code = if isTxType t && !p.rxAcceptTxTypes then none else some t := by
  simp [registry]

/-- What DECODE answers, in its domain. -/
theorem decodeFrame_of_domain (p : Params) (ft : Byte) {raw : List Byte} (h : 4 ≤ raw.length) (h' : raw.length ≤ 65539) :
    decodeFrame p ft raw =
      match registry p ft with
      | none => some (.err .unsupportedFrameType ft 0 0)
      | some t => some (decodeAs t ft raw) := by
  have hd : ¬(raw.length < 4 ∨ 65539 < raw.length) := by omega
  cases hr : registry p ft <;> simp only [decodeFrame, if_neg hd, hr]

/-- DECODE answers outside its domain nothing, and inside it one of two things. -/
theorem decodeFrame_eq_some {p : Params} {ft : Byte} {raw : List Byte} {res : Decoded}
    (h : decodeFrame p ft raw = some res) :
    (4 ≤ raw.length ∧ raw.length ≤ 65539) ∧
      (registry p ft = none ∧ res = .err .unsupportedFrameType ft 0 0 ∨
        ∃ t, registry p ft = some t ∧ res = decodeAs t ft raw) := by
  unfold decodeFrame at h
  split at h
  · cases h
  · next hd =>
    refine ⟨by omega, ?_⟩
    split at h
    · next hr => cases h; exact .inl ⟨hr, rfl⟩
    · next t hr => cases h; exact .inr ⟨t, hr, rfl⟩

/-- The type byte and content of what checks 1 to 4 answer. -/
theorem decodeAs_eq_ok {t : FrameType} {ft ft' : Byte} {raw fixed data : List Byte}
    (h : decodeAs t ft raw = .ok ft' fixed data) :
    ft' = ft ∧ byteAt raw 3 = ft ∧ declaredLen raw = raw.length - 4 ∧ minLen t ≤ declaredLen raw ∧
      checksum (slice raw 3 (3 + declaredLen raw)) = byteAt raw (3 + declaredLen raw) ∧
      fixed = slice raw 4 (3 + minLen t) ∧
      data = if hasPayload t then slice raw (3 + minLen t) (3 + declaredLen raw) else [] := by
  unfold decodeAs at h
  simp only at h
  split at h
  · cases h
  · next h1 =>
    split at h
    · cases h
    · next h2 =>
      split at h
      · cases h
      · next h3 =>
        split at h
        · cases h
        · next h4 =>
          cases h
          exact ⟨rfl, by simpa using h1, by simpa using h2, by omega, by simpa using h4, rfl, rfl⟩

/-- What the route of a decode result is. -/
theorem route_cases (res : Decoded) (reg : List RegEntry) (errh : Option Byte) :
    (∃ t fixed data, res = .ok t fixed data ∧
      ((∃ e ∈ reg, e.key = t ∧
          route res reg errh = { kind := .handler, hid := e.hid, ftype := t, result := .ok fixed data }) ∨
        ((∀ e ∈ reg, e.key ≠ t) ∧
          route res reg errh = { kind := .noHandler, hid := 0, ftype := t, result := .ok fixed data }))) ∨
    (∃ c t a b, res = .err c t a b ∧
      ((∃ h, errh = some h ∧
          route res reg errh = { kind := .errorHandler, hid := h, ftype := t, result := .err c a b }) ∨
        (errh = none ∧
          route res reg errh = { kind := .errorDropped, hid := 0, ftype := t, result := .err c a b }))) := by
  cases res with
  | ok t fixed data =>
    left
    refine ⟨t, fixed, data, rfl, ?_⟩
    simp only [route, routeOk, lookupHandler]
    cases hf : reg.find? (fun e => e.key == t) with
    | some e =>
      left
      exact ⟨e, List.mem_of_find?_eq_some hf, by simpa using List.find?_some hf, rfl⟩
    | none =>
      right
      exact ⟨fun e he => by simpa using List.find?_eq_none.mp hf e he, rfl⟩
  | err c t a b =>
    right
    refine ⟨c, t, a, b, rfl, ?_⟩
    cases errh with
    | some h => exact .inl ⟨h, rfl, rfl⟩
    | none => exact .inr ⟨rfl, rfl⟩

/-! SYNC_FRAME. -/

/-- When SYNC_FRAME is enabled on a candidate. -/
theorem frameEnabled_iff (raw : List Byte) (s : State) :
    frameEnabled raw s = true ↔ s.core.run = true ∧ s.core.evt = none ∧ syncState s.core.rxq = .frameReady ∧
      s.core.rxq.take (declaredLen s.core.rxq + 4) = raw := by
  simp [frameEnabled, and_assoc]

/-- Where the candidate stands at the head of the buffer, enabled means running with `evt` empty and eight bytes there. -/
theorem frameEnabled_of_head {len : BitVec 16} {t : Byte} {rest tail : List Byte} {s : State} (hrun : s.core.run = true)
    (hevt : s.core.evt = none) (hlen : rest.length = len.toNat) (hq : s.core.rxq = frameBytes len t rest ++ tail)
    (h8 : 8 ≤ s.core.rxq.length) : frameEnabled (frameBytes len t rest) s = true := by
  rw [frameEnabled_iff, syncState_eq_frameReady]
  refine ⟨hrun, hevt, ⟨h8, ?_, ?_⟩, ?_⟩
  · rw [hq]; rfl
  · rw [hq, declaredLen_frameBytes_append, List.length_append, length_frameBytes]; omega
  · rw [hq, declaredLen_frameBytes_append]
    exact List.take_left' (by rw [length_frameBytes, hlen])

/-- SYNC_FRAME where it is enabled: it consumes the candidate and writes the routed result. -/
theorem syncFrame_of_enabled {ft : Byte} {len : BitVec 16} {rest : List Byte} {s : State}
    (h : frameEnabled (frameBytes len ft rest) s = true) :
    rest.length = len.toNat ∧ s.core.rxq = frameBytes len ft rest ++ s.core.rxq.drop (rest.length + 4) ∧
    ∃ res, decodeFrame s.params ft (frameBytes len ft rest) = some res ∧
      syncFrame ft len rest s =
        .next ((s.withRxq (s.core.rxq.drop (rest.length + 4))).withEvt (some (route res s.core.reg s.core.errh))) := by
  have hen := h
  rw [frameEnabled_iff, syncState_eq_frameReady] at h
  obtain ⟨-, -, ⟨-, -, hle⟩, htake⟩ := h
  have hcat : s.core.rxq = frameBytes len ft rest ++ s.core.rxq.drop (declaredLen s.core.rxq + 4) := by
    rw [← htake]; exact (List.take_append_drop _ _).symm
  have hL : declaredLen s.core.rxq = len.toNat := by
    rw [hcat, declaredLen_frameBytes_append]
  have hlen : rest.length = len.toNat := by
    have := congrArg List.length htake
    rw [List.length_take, length_frameBytes] at this
    omega
  rw [hL, ← hlen] at hcat
  refine ⟨hlen, hcat, ?_⟩
  have hle' : (frameBytes len ft rest).length ≤ s.core.rxq.length := by rw [length_frameBytes]; omega
  have hb := len.isLt
  have htk : s.core.rxq.take (frameBytes len ft rest).length = frameBytes len ft rest := by
    rw [length_frameBytes, hlen, ← hL]
    exact htake
  have hres : ∃ res, decodeFrame s.params ft (frameBytes len ft rest) = some res := by
    rw [decodeFrame_of_domain _ _ (by rw [length_frameBytes]; omega) (by rw [length_frameBytes]; omega)]
    cases registry s.params ft <;> exact ⟨_, rfl⟩
  obtain ⟨res, hres⟩ := hres
  refine ⟨res, hres, ?_⟩
  unfold syncFrame
  rw [if_pos hen, consume_of_le hle']
  rw [length_frameBytes] at htk
  simp only [length_frameBytes, htk, hres]

/-- SYNC_FRAME on a whole frame at the head of the buffer, the core running with `evt` empty. -/
theorem syncFrame_of_head {len : BitVec 16} {t : Byte} {rest tail : List Byte} {s : State} {res : Decoded}
    (hrun : s.core.run = true) (hevt : s.core.evt = none) (hlen : rest.length = len.toNat)
    (hq : s.core.rxq = frameBytes len t rest ++ tail) (h8 : 8 ≤ s.core.rxq.length)
    (hres : decodeFrame s.params t (frameBytes len t rest) = some res) :
    syncFrame t len rest s = .next ((s.withRxq tail).withEvt (some (route res s.core.reg s.core.errh))) := by
  obtain ⟨-, -, res', h, h'⟩ := syncFrame_of_enabled (frameEnabled_of_head hrun hevt hlen hq h8)
  rw [hres] at h
  cases h
  rw [h', hq, List.drop_left' (by simp)]

/-- Everything SYNC_FRAME can answer. -/
theorem syncFrame_cases (ft : Byte) (len : BitVec 16) (rest : List Byte) (s : State) :
    (frameEnabled (frameBytes len ft rest) s = false ∧ syncFrame ft len rest s = .next s) ∨
    (frameEnabled (frameBytes len ft rest) s = true ∧ rest.length = len.toNat ∧
      s.core.rxq = frameBytes len ft rest ++ s.core.rxq.drop (rest.length + 4) ∧
      ∃ res, decodeFrame s.params ft (frameBytes len ft rest) = some res ∧
        syncFrame ft len rest s =
          .next ((s.withRxq (s.core.rxq.drop (rest.length + 4))).withEvt (some (route res s.core.reg s.core.errh)))) := by
  cases h : frameEnabled (frameBytes len ft rest) s with
  | false => exact .inl ⟨rfl, by unfold syncFrame; rw [h]; rfl⟩
  | true => exact .inr ⟨rfl, syncFrame_of_enabled h⟩

/-! Commands. -/

/-- CMD_ACCEPT acts where the unit is idle. -/
theorem whenIdle_of_idle {f : State → State} {s : State} (h : s.core.cu = .idle) : whenIdle f s = .next (f s) := by
  simp [whenIdle, h]

/-- CMD_ACCEPT waits where the unit is busy. -/
theorem whenIdle_of_busy {f : State → State} {s : State} {rest : List Byte} {resp : Response}
    (h : s.core.cu = .busy rest resp) : whenIdle f s = .next s := by
  simp [whenIdle, h]

/-- The length of a built frame. -/
@[simp] theorem length_mkframe (body : List Byte) : (mkframe body).length = body.length + 4 := by
  simp [mkframe]

/-- A built frame as the bytes of a frame. -/
theorem mkframe_cons (t : Byte) (rest : List Byte) :
    mkframe (t :: rest) =
      frameBytes (BitVec.ofNat 16 (rest.length + 1)) t (rest ++ [checksum (t :: rest)]) := by
  simp [mkframe, frameBytes]

/-- The last byte of a built frame is its checksum. -/
theorem okEncodeResponse_rchk (frameId : Byte) (body : List Byte) :
    (okEncodeResponse frameId body).rchk = checksum body := by
  have h : mkframe body = (sof :: hi8 (BitVec.ofNat 16 body.length) :: lo8 (BitVec.ofNat 16 body.length) :: body) ++
      checksum body :: [] := by simp [mkframe]
  have hl : (mkframe body).length - 1 =
      (sof :: hi8 (BitVec.ofNat 16 body.length) :: lo8 (BitVec.ofNat 16 body.length) :: body).length := by simp
  simp only [okEncodeResponse]
  rw [hl, h]
  exact byteAt_append_length _ _ _

/-- Everything ENCODE_TRANSMIT's effect can be. -/
theorem encodeTransmitEffect_cases (n : BitVec 4) (a16v : BitVec 1) (options : Byte) (w16 : BitVec 16)
    (addr64 : BitVec 64) (payload : List Byte) (s : State) :
    (∃ status, encodeTransmitEffect n a16v options w16 addr64 payload s = s.withCu (.busy [] { status := status })) ∨
    (n = 8 ∧ 14 + payload.length ≤ 65535 ∧
      encodeTransmitEffect n a16v options w16 addr64 payload s =
        startFrame 0x00 (transmitBody a16v options w16 addr64 payload) s) := by
  unfold encodeTransmitEffect answer
  split
  · exact .inl ⟨_, rfl⟩
  · next h =>
    split
    · exact .inl ⟨_, rfl⟩
    · next hl => exact .inr ⟨by simpa using h, by omega, rfl⟩

/-- Everything ENCODE_AT_COMMAND's effect can be. -/
theorem encodeAtCommandEffect_cases (n : BitVec 2) (w16 : BitVec 16) (param : List Byte) (s : State) :
    (∃ status, encodeAtCommandEffect n w16 param s = s.withCu (.busy [] { status := status })) ∨
    (n = 2 ∧ 4 + param.length ≤ 65535 ∧
      encodeAtCommandEffect n w16 param s =
        startFrame s.core.fid (atCommandBody s.core.fid w16 param) (s.withFid (s.core.fid + 1))) := by
  unfold encodeAtCommandEffect answer
  split
  · exact .inl ⟨_, rfl⟩
  · next h =>
    split
    · exact .inl ⟨_, rfl⟩
    · next hl => exact .inr ⟨by simpa using h, by omega, rfl⟩

/-- Everything ADD_HANDLER's effect can be. -/
theorem addHandlerEffect_cases (key hid : Byte) (s : State) :
    (s.core.reg.length = s.params.regCap ∧
      addHandlerEffect key hid s = s.withCu (.busy [] { status := .registryFull })) ∨
    (s.core.reg.length ≠ s.params.regCap ∧
      addHandlerEffect key hid s =
        (s.withReg (s.core.reg ++ [{ key := key, hid := hid }])).withCu (.busy [] { status := .ok })) := by
  unfold addHandlerEffect answer
  split
  · next h => exact .inl ⟨h, rfl⟩
  · next h => exact .inr ⟨h, rfl⟩

end Sys2Proof.Machine
end

