-- ==== Sys2Proof/Laws/Agents.lean ====
section
/-! SUPPORT. What a step can do, said once: one effect for each step of 45_dispatch_engine.md R270, and the inversion of `step`. -/

namespace Sys2Proof.Machine

/-- What accepting a command can do to the state (45_dispatch_engine.md R286 to R288, 43_encoder.md R205, R210). -/
inductive AcceptEffect (s : State) : State → Prop
  /-- an answer with no other effect -/
  | answer (status : RespStatus) : AcceptEffect s (s.withCu (.busy [] { status := status }))
  | addHandler (e : RegEntry) (h : s.core.reg.length ≠ s.params.regCap) :
      AcceptEffect s ((s.withReg (s.core.reg ++ [e])).withCu (.busy [] { status := .ok }))
  | setErrorHandler (h : Byte) : AcceptEffect s ((s.withErrh (some h)).withCu (.busy [] { status := .ok }))
  | transmit (a16v : BitVec 1) (options : Byte) (w16 : BitVec 16) (addr64 : BitVec 64) (payload : List Byte)
      (h : 14 + payload.length ≤ 65535) :
      AcceptEffect s (startFrame 0x00 (transmitBody a16v options w16 addr64 payload) s)
  | atCommand (w16 : BitVec 16) (param : List Byte) (h : 4 + param.length ≤ 65535) :
      AcceptEffect s (startFrame s.core.fid (atCommandBody s.core.fid w16 param) (s.withFid (s.core.fid + 1)))

/-- What a frame instruction can do: consume its candidate and write the routed result (44_synchronizer.md R245). -/
inductive FrameEffect (s : State) : State → Prop
  | mk (ft : Byte) (len : BitVec 16) (rest : List Byte) (res : Decoded)
      (enabled : frameEnabled (frameBytes len ft rest) s = true) (hlen : rest.length = len.toNat)
      (hq : s.core.rxq = frameBytes len ft rest ++ s.core.rxq.drop (rest.length + 4))
      (hres : decodeFrame s.params ft (frameBytes len ft rest) = some res) :
      FrameEffect s
        ((s.withRxq (s.core.rxq.drop (rest.length + 4))).withEvt (some (route res s.core.reg s.core.errh)))

theorem syncFrame_effect {ft : Byte} {len : BitVec 16} {rest : List Byte} {s t : State}
    (h : syncFrame ft len rest s = .next t) : t = s ∨ FrameEffect s t := by
  rcases syncFrame_cases ft len rest s with ⟨-, h'⟩ | ⟨hen, hlen, hq, res, hres, h'⟩
  · rw [h'] at h; cases h; exact .inl rfl
  · rw [h'] at h; cases h; exact .inr (.mk ft len rest res hen hlen hq hres)

theorem whenIdle_effect {f : State → State} {s t : State} (hf : AcceptEffect s (f s)) (h : whenIdle f s = .next t) :
    (t = s ∧ s.core.cu ≠ .idle) ∨ s.core.cu = .idle ∧ AcceptEffect s t := by
  cases hc : s.core.cu with
  | idle => rw [whenIdle_of_idle hc] at h; cases h; exact .inr ⟨rfl, hf⟩
  | busy rest resp => rw [whenIdle_of_busy hc] at h; cases h; exact .inl ⟨rfl, by simp⟩

theorem encodeTransmit_effect (n : BitVec 4) (a16v : BitVec 1) (options : Byte) (w16 : BitVec 16) (addr64 : BitVec 64)
    (payload : List Byte) (s : State) : AcceptEffect s (encodeTransmitEffect n a16v options w16 addr64 payload s) := by
  rcases encodeTransmitEffect_cases n a16v options w16 addr64 payload s with ⟨st, h⟩ | ⟨-, hl, h⟩
  · rw [h]; exact .answer st
  · rw [h]; exact .transmit _ _ _ _ _ hl

theorem encodeAtCommand_effect (n : BitVec 2) (w16 : BitVec 16) (param : List Byte) (s : State) :
    AcceptEffect s (encodeAtCommandEffect n w16 param s) := by
  rcases encodeAtCommandEffect_cases n w16 param s with ⟨st, h⟩ | ⟨-, hl, h⟩
  · rw [h]; exact .answer st
  · rw [h]; exact .atCommand _ _ hl

theorem addHandler_effect (key hid : Byte) (s : State) : AcceptEffect s (addHandlerEffect key hid s) := by
  rcases addHandlerEffect_cases key hid s with ⟨-, h⟩ | ⟨hl, h⟩
  · rw [h]; exact .answer _
  · rw [h]; exact .addHandler _ hl

/-- Everything an instruction can do: nothing (it waits or has no effect), its frame's dispatch, its command's effect on an idle
unit, or a control beat's write of `run`. -/
theorem exec_effect {i : Instr} {s t : State} (h : exec i s = .next t) :
    (t = s ∧ ((∃ hd d, encode i = .command hd d) → s.core.cu ≠ .idle)) ∨ ((∃ b, encode i = .frame b) ∧ FrameEffect s t) ∨
      ((∃ hd d, encode i = .command hd d) ∧ s.core.cu = .idle ∧ AcceptEffect s t) ∨
      (i = .ctlBegin ∧ s.ports.transportOk = true ∧ s.core.run = false ∧ t = s.withRun true) ∨
      (i = .ctlEnd ∧ t = s.withRun false) := by
  have frame : ∀ {ft len rest}, (∃ b, encode i = .frame b) → syncFrame ft len rest s = .next t →
      (t = s ∧ ((∃ hd d, encode i = .command hd d) → s.core.cu ≠ .idle)) ∨ ((∃ b, encode i = .frame b) ∧ FrameEffect s t) ∨
        ((∃ hd d, encode i = .command hd d) ∧ s.core.cu = .idle ∧ AcceptEffect s t) ∨
        (i = .ctlBegin ∧ s.ports.transportOk = true ∧ s.core.run = false ∧ t = s.withRun true) ∨
        (i = .ctlEnd ∧ t = s.withRun false) := fun hi hs =>
    (syncFrame_effect hs).imp (fun he => ⟨he, fun ⟨_, _, hc⟩ => by obtain ⟨_, hb⟩ := hi; rw [hb] at hc; cases hc⟩)
      fun he => .inl ⟨hi, he⟩
  have command : ∀ {f}, (∃ hd d, encode i = .command hd d) → AcceptEffect s (f s) → whenIdle f s = .next t →
      (t = s ∧ ((∃ hd d, encode i = .command hd d) → s.core.cu ≠ .idle)) ∨ ((∃ b, encode i = .frame b) ∧ FrameEffect s t) ∨
        ((∃ hd d, encode i = .command hd d) ∧ s.core.cu = .idle ∧ AcceptEffect s t) ∨
        (i = .ctlBegin ∧ s.ports.transportOk = true ∧ s.core.run = false ∧ t = s.withRun true) ∨
        (i = .ctlEnd ∧ t = s.withRun false) := fun hi hf hs =>
    (whenIdle_effect hf hs).imp (fun he => ⟨he.1, fun _ => he.2⟩) fun he => .inr (.inl ⟨hi, he.1, he.2⟩)
  cases i with
  | frameAtCommand len rest => exact frame ⟨_, rfl⟩ h
  | frameTransmit len rest => exact frame ⟨_, rfl⟩ h
  | frameAtResponse len rest => exact frame ⟨_, rfl⟩ h
  | frameModemStatus len rest => exact frame ⟨_, rfl⟩ h
  | frameTxStatus len rest => exact frame ⟨_, rfl⟩ h
  | frameReceive len rest => exact frame ⟨_, rfl⟩ h
  | frameExplicitReceive len rest => exact frame ⟨_, rfl⟩ h
  | frameUnsupported len ftype rest => exact frame ⟨_, rfl⟩ h
  | addHandler key hid data => exact command ⟨_, _, rfl⟩ (addHandler_effect _ _ _) h
  | setErrorHandler hid data => exact command ⟨_, _, rfl⟩ (.setErrorHandler hid) h
  | encodeTransmit n a16v options w16 addr64 payload => exact command ⟨_, _, rfl⟩ (encodeTransmit_effect ..) h
  | encodeAtCommand n w16 param => exact command ⟨_, _, rfl⟩ (encodeAtCommand_effect ..) h
  | reservedOp0 data => exact command ⟨_, _, rfl⟩ (.answer .badOpcode) h
  | reservedOp5 data => exact command ⟨_, _, rfl⟩ (.answer .badOpcode) h
  | reservedOp6 data => exact command ⟨_, _, rfl⟩ (.answer .badOpcode) h
  | reservedOp7 data => exact command ⟨_, _, rfl⟩ (.answer .badOpcode) h
  | reservedOp8 data => exact command ⟨_, _, rfl⟩ (.answer .badOpcode) h
  | reservedOp9 data => exact command ⟨_, _, rfl⟩ (.answer .badOpcode) h
  | reservedOpA data => exact command ⟨_, _, rfl⟩ (.answer .badOpcode) h
  | reservedOpB data => exact command ⟨_, _, rfl⟩ (.answer .badOpcode) h
  | reservedOpC data => exact command ⟨_, _, rfl⟩ (.answer .badOpcode) h
  | reservedOpD data => exact command ⟨_, _, rfl⟩ (.answer .badOpcode) h
  | reservedOpE data => exact command ⟨_, _, rfl⟩ (.answer .badOpcode) h
  | reservedOpF data => exact command ⟨_, _, rfl⟩ (.answer .badOpcode) h
  | ctlNop => cases h; exact .inl ⟨rfl, fun ⟨_, _, hc⟩ => by cases hc⟩
  | ctlBegin =>
    simp only [exec, execCtlBegin] at h
    split at h
    · next hc =>
      cases h
      simp only [Bool.and_eq_true, Bool.not_eq_true'] at hc
      exact .inr (.inr (.inr (.inl ⟨rfl, hc.1, hc.2, rfl⟩)))
    · cases h; exact .inl ⟨rfl, fun ⟨_, _, hc⟩ => by cases hc⟩
  | ctlEnd => cases h; exact .inr (.inr (.inr (.inr ⟨rfl, rfl⟩)))
  | ctlReserved3 => cases h; exact .inl ⟨rfl, fun ⟨_, _, hc⟩ => by cases hc⟩

theorem encode_commandInstr (hd : BitVec 128) (data : List Byte) :
    ∃ h d, encode (commandInstr hd data) = .command h d := by
  unfold commandInstr
  split <;> exact ⟨_, _, rfl⟩

theorem encode_decodeControl (op : BitVec 2) : ∃ o, encode (decodeControl op) = .control o := by
  unfold decodeControl
  split <;> exact ⟨_, rfl⟩

/-- What the turn of each agent can do, reset not being asserted (45_dispatch_engine.md R270). -/
inductive AgentEffect (s : State) : Agent → State → Prop
  /-- no step of the agent is enabled, and none is taken -/
  | wait (a : Agent) (idle : enabled a s = false) : AgentEffect s a s
  | rxAccept (b : Byte) (bs : List Byte) (run : s.core.run = true) (room : s.core.rxq.length < s.params.rxbufCap)
      (offered : s.ports.rxIn = b :: bs) :
      AgentEffect s .rxPort ((s.withRxq (s.core.rxq ++ [b])).withPorts { s.ports with rxIn := bs })
  | syncSeek (run : s.core.run = true) (state : syncState s.core.rxq = .seekingDelimiter) :
      AgentEffect s .synchronizer (s.withRxq (s.core.rxq.drop 1))
  | syncFrame (t : State) (h : FrameEffect s t) : AgentEffect s .synchronizer t
  | txEmit (x : Byte) (q : List Byte) (run : s.core.run = true) (ready : s.ports.txReady = true)
      (queued : s.core.txq = x :: q) :
      AgentEffect s .txPort ((s.withTxq q).withPorts { s.ports with txOut := s.ports.txOut ++ [x] })
  | evtTake (e : Event) (ready : s.ports.evtReady = true) (pending : s.core.evt = some e) :
      AgentEffect s .eventPort ((s.withEvt none).withPorts { s.ports with evtOut := s.ports.evtOut ++ [e] })
  | cmdAccept (c : Command) (cs : List Command) (t : State) (idle : s.core.cu = .idle)
      (offered : s.ports.cmdIn = c :: cs) (whole : c.data.length = (hdrDlen c.header).toNat)
      (run : exec (commandInstr c.header c.data) (s.withPorts { s.ports with cmdIn := cs }) = .next t)
      (h : AcceptEffect (s.withPorts { s.ports with cmdIn := cs }) t) :
      AgentEffect s .commandUnit t
  | cmdAppend (b : Byte) (rest : List Byte) (resp : Response) (busy : s.core.cu = .busy (b :: rest) resp)
      (room : s.core.txq.length < s.params.txbufCap) :
      AgentEffect s .commandUnit ((s.withTxq (s.core.txq ++ [b])).withCu (.busy rest resp))
  | respTake (resp : Response) (busy : s.core.cu = .busy [] resp) (ready : s.ports.respReady = true) :
      AgentEffect s .commandUnit
        ((s.withCu .idle).withPorts { s.ports with respOut := s.ports.respOut ++ [resp] })
  | ctlNone (op : BitVec 2) (ops : List (BitVec 2)) (offered : s.ports.ctlIn = op :: ops) :
      AgentEffect s .controlPort (s.withPorts { s.ports with ctlIn := ops })
  | ctlBegin (ops : List (BitVec 2)) (offered : s.ports.ctlIn = 1 :: ops) (ok : s.ports.transportOk = true)
      (stopped : s.core.run = false) :
      AgentEffect s .controlPort ((s.withPorts { s.ports with ctlIn := ops }).withRun true)
  | ctlEnd (ops : List (BitVec 2)) (offered : s.ports.ctlIn = 2 :: ops) :
      AgentEffect s .controlPort ((s.withPorts { s.ports with ctlIn := ops }).withRun false)

theorem rxAccept_effect (s : State) : AgentEffect s .rxPort (rxAccept s) := by
  unfold rxAccept append
  split
  · next h =>
    simp only [Bool.and_eq_true, decide_eq_true_eq] at h
    split
    · next hb => exact .wait _ (by simp [enabled, hb])
    · next b bs hb => exact .rxAccept b bs h.1 h.2 hb
  · next h => exact .wait _ (by simp only [enabled, Bool.not_eq_true] at h ⊢; rw [h]; rfl)

theorem txEmit_effect (s : State) : AgentEffect s .txPort (txEmit s) := by
  unfold txEmit
  split
  · next h =>
    simp only [Bool.and_eq_true] at h
    split
    · next hq => exact .wait _ (by simp [enabled, hq])
    · next x q hq => exact .txEmit x q h.1 h.2 hq
  · next h => exact .wait _ (by simp only [enabled]; grind)

theorem evtTake_effect (s : State) : AgentEffect s .eventPort (evtTake s) := by
  unfold evtTake
  split
  · next h =>
    split
    · next he => exact .wait _ (by simp [enabled, he])
    · next e he => exact .evtTake e h he
  · next h => exact .wait _ (by simp [enabled, h])

/-- The meaning of a frame instruction is SYNC_FRAME for its type byte. -/
theorem exec_frameInstr (len : BitVec 16) (t : Byte) (rest : List Byte) (s : State) :
    exec (frameInstr len t rest) s = syncFrame t len rest s := by
  unfold frameInstr
  split
  all_goals first
    | (next h => rw [← FrameType.code_of_ofByte? h]; rfl)
    | rfl

theorem syncTurn_effect {s t : State} (h : syncTurn s = .next t) : AgentEffect s .synchronizer t := by
  unfold syncTurn at h
  split at h
  · next hs => cases h; exact .wait _ (by simp [enabled, hs])
  · next hs =>
    cases h
    unfold syncSeek
    cases hr : s.core.run with
    | true => rw [if_pos (by simp [hs])]; exact .syncSeek hr hs
    | false => exact .wait _ (by simp [enabled, hr])
  · next hs => cases h; exact .wait _ (by simp [enabled, hs])
  · next hs =>
    obtain ⟨len, ft, rest, tail, hl, hq⟩ := frameReady_split hs
    rw [hq, decodeStream_frameBytes _ _ _ _ hl] at h
    simp only [exec_frameInstr] at h
    rcases syncFrame_cases ft len rest s with ⟨hen, h'⟩ | ⟨hen, hlen, hq', res, hres, h'⟩
    · rw [h'] at h
      cases h
      refine .wait _ ?_
      rw [Bool.eq_false_iff, ne_eq, frameEnabled_iff] at hen
      have htake : s.core.rxq.take (declaredLen s.core.rxq + 4) = frameBytes len ft rest := by
        rw [hq, declaredLen_frameBytes_append]
        exact List.take_left' (by rw [length_frameBytes, hl])
      cases hr : s.core.run <;> cases he : s.core.evt <;> simp_all [enabled]
    · rw [h'] at h
      cases h
      exact .syncFrame _ (.mk ft len rest res hen hlen hq' hres)

theorem commandTurn_effect {s t : State} (h : commandTurn s = .next t) : AgentEffect s .commandUnit t := by
  unfold commandTurn at h
  split at h
  · next b rest resp hc =>
    cases h
    unfold cmdAppend append
    split
    · next hr => exact .cmdAppend b rest resp hc hr
    · next hr => exact .wait _ (by simp [enabled, hc]; omega)
  · next resp hc =>
    cases h
    unfold respTake
    split
    · next hr => exact .respTake resp hc hr
    · next hr => exact .wait _ (by simp [enabled, hc, hr])
  · next hidle =>
    split at h
    · next hcmd => cases h; exact .wait _ (by simp [enabled, hidle, hcmd])
    · next c cs hcmd =>
      split at h
      · next i hd =>
        obtain ⟨hwhole, hi⟩ : c.data.length = (hdrDlen c.header).toNat ∧ i = commandInstr c.header c.data := by
          unfold decodeCommand at hd
          split at hd
          · next hl => cases hd; exact ⟨hl, rfl⟩
          · cases hd
        obtain ⟨hh, dd, henc⟩ := encode_commandInstr c.header c.data
        rw [← hi] at henc
        rcases exec_effect h with ⟨-, hw⟩ | ⟨⟨_, he⟩, -⟩ | ⟨-, -, he⟩ | ⟨hi, -⟩ | ⟨hi, -⟩
        · exact absurd hidle (hw ⟨hh, dd, henc⟩)
        · rw [henc] at he; cases he
        · exact .cmdAccept c cs t hidle hcmd hwhole (hi ▸ h) he
        · rw [hi] at henc; cases henc
        · rw [hi] at henc; cases henc
      · next e hd =>
        cases h
        refine .wait _ ?_
        unfold decodeCommand at hd
        split at hd
        · cases hd
        · next hn => simpa [enabled, hidle, hcmd] using hn

theorem controlTurn_effect {s t : State} (h : controlTurn s = .next t) : AgentEffect s .controlPort t := by
  unfold controlTurn at h
  split at h
  · next hops => cases h; exact .wait _ (by simp [enabled, hops])
  · next op ops hops =>
    obtain ⟨o, ho⟩ := encode_decodeControl op
    rcases exec_effect h with ⟨rfl, -⟩ | ⟨⟨_, he⟩, -⟩ | ⟨⟨_, _, he⟩, -⟩ | ⟨hi, hok, hrun, rfl⟩ | ⟨hi, rfl⟩
    · exact .ctlNone op ops hops
    · rw [ho] at he; cases he
    · rw [ho] at he; cases he
    · have : op = 1 := by revert hi; clear * -; revert op; decide
      exact .ctlBegin ops (this ▸ hops) hok hrun
    · have : op = 2 := by revert hi; clear * -; revert op; decide
      exact .ctlEnd ops (this ▸ hops)

/-- Everything the turn of an agent can do. -/
theorem agentTurn_effect {a : Agent} {s t : State} (h : agentTurn a s = .next t) : AgentEffect s a t := by
  cases a with
  | rxPort => cases h; exact rxAccept_effect s
  | synchronizer => exact syncTurn_effect h
  | commandUnit => exact commandTurn_effect h
  | txPort => cases h; exact txEmit_effect s
  | eventPort => cases h; exact evtTake_effect s
  | controlPort => exact controlTurn_effect h

/-! The step. -/

@[simp] theorem nextTurn_core (s : State) : (nextTurn s).2.core = s.core := by
  unfold nextTurn; cases s.sched <;> rfl
@[simp] theorem nextTurn_ports (s : State) : (nextTurn s).2.ports = s.ports := by
  unfold nextTurn; cases s.sched <;> rfl
@[simp] theorem nextTurn_params (s : State) : (nextTurn s).2.params = s.params := by
  unfold nextTurn; cases s.sched <;> rfl

/-- Everything a step can do: a turn of the world outside, RESET, or the turn of an agent. `u` is the state with the turn
taken. -/
theorem step_effect {s t : State} (h : step s = .next t) :
    ∃ u, u = (nextTurn s).2 ∧ u.core = s.core ∧ u.ports = s.ports ∧ u.params = s.params ∧
      ((∃ o, (nextTurn s).1 = .outside o ∧ isReset s = false ∧ t = u.withPorts (applyOutside o s.ports)) ∨
       (∃ a, (nextTurn s).1 = .core a ∧ s.ports.resetIn = true ∧ isReset s = true ∧ t = resetCore u) ∨
       (∃ a, (nextTurn s).1 = .core a ∧ s.ports.resetIn = false ∧ isReset s = false ∧ AgentEffect u a t)) := by
  refine ⟨_, rfl, nextTurn_core s, nextTurn_ports s, nextTurn_params s, ?_⟩
  unfold step takeTurn at h
  split at h
  · next o ho => cases h; exact .inl ⟨o, ho, by simp [isReset, ho], by simp⟩
  · next a ha =>
    rw [nextTurn_ports] at h
    split at h
    · next hr => cases h; exact .inr (.inl ⟨a, ha, hr, by simp [isReset, ha, hr], rfl⟩)
    · next hr => exact .inr (.inr ⟨a, ha, by simpa using hr, by simp [isReset, hr], agentTurn_effect h⟩)

/-- A data beat extends the last command offered (log entry 24). -/
@[simp] theorem addBeat_append_singleton (b : Byte) (cs : List Command) (c : Command) :
    addBeat b (cs ++ [c]) = cs ++ [{ c with data := c.data ++ [b] }] := by
  induction cs with
  | nil => rfl
  | cons x cs ih =>
    cases cs with
    | nil => rfl
    | cons y cs => simpa [addBeat] using ih

/-- What the world outside leaves alone. -/
@[simp] theorem applyOutside_txOut (o : Outside) (p : Ports) : (applyOutside o p).txOut = p.txOut := by cases o <;> rfl
@[simp] theorem applyOutside_evtOut (o : Outside) (p : Ports) : (applyOutside o p).evtOut = p.evtOut := by cases o <;> rfl
@[simp] theorem applyOutside_respOut (o : Outside) (p : Ports) : (applyOutside o p).respOut = p.respOut := by
  cases o <;> rfl

end Sys2Proof.Machine
end

