-- ==== Sys2Proof/Laws/PerInstr.lean ====
section
/-! SUPPORT. The family MatchesTable: the first word of an instruction's encoding is one of its row's words in spec/opcode_table.json,
its masked bits being the row's match value. One lemma for each instruction. -/

namespace Sys2Proof.Laws

/-- The first word of an instruction's words has this row's mask and match value: of a frame the first four bytes, big-endian
(30_encoding.md R100); of a command the header beat (R113); of a control beat its two bits (R116). -/
def firstWordMatches (mask value : Nat) : Words → Prop
  | .frame (b0 :: b1 :: b2 :: b3 :: _) => (b0 ++ b1 ++ b2 ++ b3) &&& BitVec.ofNat 32 mask = BitVec.ofNat 32 value
  | .frame _ => False
  | .command h _ => h &&& BitVec.ofNat 128 mask = BitVec.ofNat 128 value
  | .control op => op &&& BitVec.ofNat 2 mask = BitVec.ofNat 2 value

theorem frameBytes_matches (len : BitVec 16) (t : Byte) (rest : List Byte) (value : Nat)
    (h : BitVec.ofNat 32 value = sof ++ 0#16 ++ t) : firstWordMatches 0xFF0000FF value (.frame (frameBytes len t rest)) := by
  have hm : ∀ i : Fin 32, (BitVec.ofNat 32 0xFF0000FF).getLsbD i = decide (i.val < 8 ∨ 24 ≤ i.val) := by decide
  simp only [frameBytes, firstWordMatches, h]
  apply BitVec.eq_of_getLsbD_eq
  intro i hi
  rw [BitVec.getLsbD_and, hm ⟨i, hi⟩]
  simp only [BitVec.getLsbD_append]
  grind

theorem delimiter_matches (len : BitVec 16) (t : Byte) (rest : List Byte) :
    firstWordMatches 0xFF000000 0x7E000000 (.frame (frameBytes len t rest)) := by
  have hm : ∀ i : Fin 32, (BitVec.ofNat 32 0xFF000000).getLsbD i = decide (24 ≤ i.val) := by decide
  simp only [frameBytes, firstWordMatches]
  rw [show BitVec.ofNat 32 0x7E000000 = sof ++ 0#24 from rfl]
  apply BitVec.eq_of_getLsbD_eq
  intro i hi
  rw [BitVec.getLsbD_and, hm ⟨i, hi⟩]
  simp only [BitVec.getLsbD_append]
  grind

theorem header_matches (h : BitVec 128) (data : List Byte) (value : Nat)
    (hv : BitVec.ofNat 128 value = (hdrOp h).setWidth 128) : firstWordMatches 0xF value (.command h data) := by
  simp only [firstWordMatches, hv]
  apply BitVec.eq_of_getLsbD_eq
  intro i hi
  have hm : (BitVec.ofNat 128 0xF).getLsbD i = decide (i < 4) := by
    rw [BitVec.getLsbD_ofNat, show 0xF = 2 ^ 4 - 1 from rfl, Nat.testBit_two_pow_sub_one]
    simp [hi]
  rw [BitVec.getLsbD_and, hm]
  simp [hdrOp, hi]
  grind

namespace MatchesTable

/-- The row of spec/opcode_table.json: mask and match value. -/
def row : Instr → Nat × Nat
  | .frameAtCommand _ _ => (0xFF0000FF, 0x7E000008)
  | .frameTransmit _ _ => (0xFF0000FF, 0x7E000010)
  | .frameAtResponse _ _ => (0xFF0000FF, 0x7E000088)
  | .frameModemStatus _ _ => (0xFF0000FF, 0x7E00008A)
  | .frameTxStatus _ _ => (0xFF0000FF, 0x7E00008B)
  | .frameReceive _ _ => (0xFF0000FF, 0x7E000090)
  | .frameExplicitReceive _ _ => (0xFF0000FF, 0x7E000091)
  | .frameUnsupported _ _ _ => (0xFF000000, 0x7E000000)
  | .addHandler _ _ _ => (0xF, 0x1)
  | .setErrorHandler _ _ => (0xF, 0x2)
  | .encodeTransmit _ _ _ _ _ _ => (0xF, 0x3)
  | .encodeAtCommand _ _ _ => (0xF, 0x4)
  | .reservedOp0 _ => (0xF, 0x0)
  | .reservedOp5 _ => (0xF, 0x5)
  | .reservedOp6 _ => (0xF, 0x6)
  | .reservedOp7 _ => (0xF, 0x7)
  | .reservedOp8 _ => (0xF, 0x8)
  | .reservedOp9 _ => (0xF, 0x9)
  | .reservedOpA _ => (0xF, 0xA)
  | .reservedOpB _ => (0xF, 0xB)
  | .reservedOpC _ => (0xF, 0xC)
  | .reservedOpD _ => (0xF, 0xD)
  | .reservedOpE _ => (0xF, 0xE)
  | .reservedOpF _ => (0xF, 0xF)
  | .ctlNop => (0x3, 0x0)
  | .ctlBegin => (0x3, 0x1)
  | .ctlEnd => (0x3, 0x2)
  | .ctlReserved3 => (0x3, 0x3)

/-- The encoding of the instruction is a word of its row. -/
def Statement (i : Instr) : Prop := firstWordMatches (row i).1 (row i).2 (encode i)

theorem frameAtCommand (len : BitVec 16) (rest : List Byte) : Statement (.frameAtCommand len rest) :=
  frameBytes_matches _ _ _ _ (by simp only [row]; decide)

theorem frameTransmit (len : BitVec 16) (rest : List Byte) : Statement (.frameTransmit len rest) :=
  frameBytes_matches _ _ _ _ (by simp only [row]; decide)

theorem frameAtResponse (len : BitVec 16) (rest : List Byte) : Statement (.frameAtResponse len rest) :=
  frameBytes_matches _ _ _ _ (by simp only [row]; decide)

theorem frameModemStatus (len : BitVec 16) (rest : List Byte) : Statement (.frameModemStatus len rest) :=
  frameBytes_matches _ _ _ _ (by simp only [row]; decide)

theorem frameTxStatus (len : BitVec 16) (rest : List Byte) : Statement (.frameTxStatus len rest) :=
  frameBytes_matches _ _ _ _ (by simp only [row]; decide)

theorem frameReceive (len : BitVec 16) (rest : List Byte) : Statement (.frameReceive len rest) :=
  frameBytes_matches _ _ _ _ (by simp only [row]; decide)

theorem frameExplicitReceive (len : BitVec 16) (rest : List Byte) : Statement (.frameExplicitReceive len rest) :=
  frameBytes_matches _ _ _ _ (by simp only [row]; decide)

theorem frameUnsupported (len : BitVec 16) (ftype : Byte) (rest : List Byte) : Statement (.frameUnsupported len ftype rest) :=
  delimiter_matches _ _ _

theorem addHandler (key hid : Byte) (data : List Byte) : Statement (.addHandler key hid data) :=
  header_matches _ _ _ (by rw [hdrOp_mkHeader]; rfl)

theorem setErrorHandler (hid : Byte) (data : List Byte) : Statement (.setErrorHandler hid data) :=
  header_matches _ _ _ (by rw [hdrOp_mkHeader]; rfl)

theorem encodeTransmit (n : BitVec 4) (a16v : BitVec 1) (options : Byte) (w16 : BitVec 16) (addr64 : BitVec 64)
    (payload : List Byte) :
    Statement (.encodeTransmit n a16v options w16 addr64 payload) :=
  header_matches _ _ _ (by rw [hdrOp_mkHeader]; rfl)

theorem encodeAtCommand (n : BitVec 2) (w16 : BitVec 16) (param : List Byte) : Statement (.encodeAtCommand n w16 param) :=
  header_matches _ _ _ (by rw [hdrOp_mkHeader]; rfl)

theorem reservedOp0 (data : List Byte) : Statement (.reservedOp0 data) :=
  header_matches _ _ _ (by rw [hdrOp_mkHeader]; rfl)

theorem reservedOp5 (data : List Byte) : Statement (.reservedOp5 data) :=
  header_matches _ _ _ (by rw [hdrOp_mkHeader]; rfl)

theorem reservedOp6 (data : List Byte) : Statement (.reservedOp6 data) :=
  header_matches _ _ _ (by rw [hdrOp_mkHeader]; rfl)

theorem reservedOp7 (data : List Byte) : Statement (.reservedOp7 data) :=
  header_matches _ _ _ (by rw [hdrOp_mkHeader]; rfl)

theorem reservedOp8 (data : List Byte) : Statement (.reservedOp8 data) :=
  header_matches _ _ _ (by rw [hdrOp_mkHeader]; rfl)

theorem reservedOp9 (data : List Byte) : Statement (.reservedOp9 data) :=
  header_matches _ _ _ (by rw [hdrOp_mkHeader]; rfl)

theorem reservedOpA (data : List Byte) : Statement (.reservedOpA data) :=
  header_matches _ _ _ (by rw [hdrOp_mkHeader]; rfl)

theorem reservedOpB (data : List Byte) : Statement (.reservedOpB data) :=
  header_matches _ _ _ (by rw [hdrOp_mkHeader]; rfl)

theorem reservedOpC (data : List Byte) : Statement (.reservedOpC data) :=
  header_matches _ _ _ (by rw [hdrOp_mkHeader]; rfl)

theorem reservedOpD (data : List Byte) : Statement (.reservedOpD data) :=
  header_matches _ _ _ (by rw [hdrOp_mkHeader]; rfl)

theorem reservedOpE (data : List Byte) : Statement (.reservedOpE data) :=
  header_matches _ _ _ (by rw [hdrOp_mkHeader]; rfl)

theorem reservedOpF (data : List Byte) : Statement (.reservedOpF data) :=
  header_matches _ _ _ (by rw [hdrOp_mkHeader]; rfl)

theorem ctlNop : Statement (.ctlNop) :=
  rfl

theorem ctlBegin : Statement (.ctlBegin) :=
  rfl

theorem ctlEnd : Statement (.ctlEnd) :=
  rfl

theorem ctlReserved3 : Statement (.ctlReserved3) :=
  rfl

end MatchesTable

end Sys2Proof.Laws
end

