-- ==== Sys2Proof/Laws/Stream.lean ====
section
/-! SUPPORT. The small lemmas of the stream laws: `acts` unfolded once, what one step takes from the inbound streams, and what it adds to
the outbound ones. -/

namespace Sys2Proof.Machine

/-- A bound beyond the stream's length changes nothing. -/
theorem actsUpTo_ge (cap : Nat) : ∀ (n : Nat) (q : List Byte), q.length ≤ n → actsUpTo cap n q = acts cap q := by
  have : ∀ (m n : Nat) (q : List Byte), q.length ≤ n → q.length ≤ m → actsUpTo cap n q = actsUpTo cap m q := by
    intro m
    induction m with
    | zero =>
      intro n q hn hm
      cases n with
      | zero => rfl
      | succ n => simp [actsUpTo, syncState, syncMinAvail]; rw [if_pos (by omega)]
    | succ m ih =>
      intro n q hn hm
      cases n with
      | zero => simp [actsUpTo, syncState, syncMinAvail]; rw [if_pos (by omega)]
      | succ n =>
        simp only [actsUpTo]
        split
        · rfl
        · next h =>
          rw [syncState_eq_seeking] at h
          rw [ih n _ (by simp; omega) (by simp; omega)]
        · rfl
        · next h =>
          rw [syncState_eq_frameReady] at h
          split
          · rfl
          · rw [ih n _ (by simp; omega) (by simp; omega)]
  intro n q h
  exact this _ _ _ h (Nat.le_refl _)

theorem acts_waitMin {cap : Nat} {q : List Byte} (h : syncState q = .waitMin) : acts cap q = [] := by
  rw [← actsUpTo_ge cap (q.length + 1) q (by omega), actsUpTo, h]

theorem acts_awaiting {cap : Nat} {q : List Byte} (h : syncState q = .awaitingFullFrame) : acts cap q = [] := by
  rw [← actsUpTo_ge cap (q.length + 1) q (by omega), actsUpTo, h]

theorem acts_seeking {cap : Nat} {q : List Byte} (h : syncState q = .seekingDelimiter) :
    acts cap q = .seek :: acts cap (q.drop 1) := by
  rw [← actsUpTo_ge cap (q.length + 1) q (by omega), actsUpTo, h]
  simp only
  rw [actsUpTo_ge]
  simp

theorem acts_frameReady {cap : Nat} {q : List Byte} (h : syncState q = .frameReady) :
    acts cap q =
      if declaredLen q + 4 > cap then []
      else .frame (q.take (declaredLen q + 4)) :: acts cap (q.drop (declaredLen q + 4)) := by
  rw [← actsUpTo_ge cap (q.length + 1) q (by omega), actsUpTo, h]
  simp only
  rw [actsUpTo_ge]
  simp

/-- Bytes that arrive later do not change a seek. -/
theorem acts_append_seek {cap : Nat} {q r : List Byte} (h : syncState q = .seekingDelimiter) :
    acts cap (q ++ r) = .seek :: acts cap (q.drop 1 ++ r) := by
  rw [syncState_eq_seeking] at h
  have hs : syncState (q ++ r) = .seekingDelimiter := by
    rw [syncState_eq_seeking]
    exact ⟨by simp; omega, by rw [byteAt_append_left (by omega)]; exact h.2⟩
  rw [acts_seeking hs, List.drop_append_of_le_length (by omega)]

/-- Bytes that arrive later do not change a candidate. -/
theorem acts_append_frame {cap : Nat} {q r : List Byte} (h : syncState q = .frameReady) (hc : declaredLen q + 4 ≤ cap) :
    acts cap (q ++ r) = .frame (q.take (declaredLen q + 4)) :: acts cap (q.drop (declaredLen q + 4) ++ r) := by
  rw [syncState_eq_frameReady] at h
  have hd : declaredLen (q ++ r) = declaredLen q := declaredLen_append (by omega)
  have hs : syncState (q ++ r) = .frameReady := by
    rw [syncState_eq_frameReady]
    refine ⟨by simp; omega, ?_, by rw [hd]; simp; omega⟩
    rw [byteAt_append_left (by omega)]
    exact h.2.1
  rw [acts_frameReady hs, hd, if_neg (by omega), List.drop_append_of_le_length (by omega),
    List.take_append_of_le_length (by omega)]

/-- What one step other than RESET does to the inbound buffer, with the byte it accepts and the synchronizer action it
takes. -/
theorem step_inbound {s t : State} (h : step s = .next t) (hr : isReset s = false)
    (hcap : s.core.rxq.length ≤ s.params.rxbufCap) :
    t.core.rxq.length ≤ t.params.rxbufCap ∧ t.params = s.params ∧
    ((syncTaken s = [] ∧ t.core.rxq = s.core.rxq ++ rxTaken s) ∨
     (rxTaken s = [] ∧ syncTaken s = [.seek] ∧ syncState s.core.rxq = .seekingDelimiter ∧
       t.core.rxq = s.core.rxq.drop 1) ∨
     (rxTaken s = [] ∧ ∃ raw res, syncTaken s = [.frame raw] ∧ syncState s.core.rxq = .frameReady ∧
       raw = s.core.rxq.take (declaredLen s.core.rxq + 4) ∧
       t.core.rxq = s.core.rxq.drop (declaredLen s.core.rxq + 4) ∧
       decodeFrame s.params (byteAt raw 3) raw = some res ∧ s.core.evt = none ∧
       t.core.evt = some (route res s.core.reg s.core.errh))) := by
  obtain ⟨u, hu, hc, hp, hpar, ⟨o, ht, -, rfl⟩ | ⟨a, ht, -, hr', rfl⟩ | ⟨a, ht, hres, -, he⟩⟩ := step_effect h
  · have h1 : rxTaken s = [] := by simp [rxTaken, isTurnOf, ht]
    have h2 : syncTaken s = [] := by simp [syncTaken, isTurnOf, ht]
    simp [h1, h2, hc, hpar, hcap]
  · simp [hr] at hr'
  · have en : ∀ b, enabled b u = enabled b s := by intro b; cases b <;> simp only [enabled, hc, hp, hpar]
    have h1 : a ≠ .rxPort → rxTaken s = [] := by intro ha; simp [rxTaken, isTurnOf, ht, ha]
    have h2 : a ≠ .synchronizer → syncTaken s = [] := by intro ha; simp [syncTaken, isTurnOf, ht, ha]
    clear hu h hr
    cases he
    case wait hen =>
      rw [en] at hen
      have h1 : rxTaken s = [] := by
        by_cases ha : a = .rxPort
        · subst ha; simp [rxTaken, hen]
        · exact h1 ha
      have h2 : syncTaken s = [] := by
        by_cases ha : a = .synchronizer
        · subst ha; simp [syncTaken, hen]
        · exact h2 ha
      simp [h1, h2, hc, hpar, hcap]
    case rxAccept b bs hrun room hoff =>
      rw [hc] at hrun room; rw [hpar] at room; rw [hp] at hoff
      refine ⟨by simp [hc, hpar]; omega, by simp [hpar], .inl ⟨h2 (by decide), ?_⟩⟩
      simp [rxTaken, isTurnOf, ht, hres, enabled, hrun, room, hoff, hc]
    case syncSeek hrun hs =>
      rw [hc] at hrun hs
      refine ⟨by simp [hc, hpar]; omega, by simp [hpar], .inr (.inl ⟨h1 (by decide), ?_, hs, by simp [hc]⟩)⟩
      simp [syncTaken, isTurnOf, ht, hres, enabled, hrun, hs]
    case syncFrame hf =>
      obtain ⟨ft, len, rest, res, hen, hl, hq, hres'⟩ := hf
      obtain ⟨e1, e2, e3, e4⟩ := (frameEnabled_iff _ _).1 hen
      have hdl : declaredLen u.core.rxq = len.toNat := by rw [hq, declaredLen_frameBytes_append]
      refine ⟨by simp [hc, hpar]; omega, by simp [hpar],
        .inr (.inr ⟨h1 (by decide), _, res, ?_, hc ▸ e3, rfl, ?_, ?_, hc ▸ e2, ?_⟩)⟩
      · rw [hc] at e1 e2 e3
        simp [syncTaken, isTurnOf, ht, hres, enabled, e1, e2, e3]
      · simp [← hc, hdl, hl]
      · rw [← hc, e4, ← hpar]; exact hres'
      · simp [hc]
    case cmdAccept hacc =>
      cases hacc <;> simp [h1, h2, hc, hpar, hcap, startFrame]
    all_goals simp [h1, h2, hc, hpar, hcap]

/-- Routing does not change what an event says about its candidate. -/
@[simp] theorem route_content (res : Decoded) (reg : List RegEntry) (errh : Option Byte) :
    (route res reg errh).content = res.content := by
  cases res <;> simp only [route, routeOk, routeErr, Decoded.content] <;> split <;> rfl

@[simp] theorem eventContents_append (p : Params) (a b : List SyncAct) :
    eventContents p (a ++ b) = eventContents p a ++ eventContents p b := by
  induction a with
  | nil => rfl
  | cons x a ih =>
    cases x <;> simp only [List.cons_append, eventContents, ih]
    split <;> simp

/-- Each command has one result. -/
@[simp] theorem length_commandResults (regCap : Nat) (cs : List Command) :
    ∀ (fid : Byte) (entries : Nat), (commandResults regCap fid entries cs).length = cs.length := by
  induction cs with
  | nil => intros; rfl
  | cons c cs ih => intros; simp [commandResults, ih]

/-- A successful encode holds the frame and the response that `CommandResult.sent` names. -/
theorem startFrame_result (frameId fid : Byte) (entries : Nat) (body : List Byte) (s : State) :
    (startFrame frameId body s).core.cu =
      .busy (CommandResult.sent frameId body fid entries).frame (CommandResult.sent frameId body fid entries).resp := by
  simp only [startFrame, State.withCu, CommandResult.sent, CmdUnit.busy.injEq, true_and]
  rw [← okEncodeResponse_rchk frameId body]
  rfl

/-- Everything an accepted command does that a later command can find: the unit holds the frame and the response of
`commandResult`, and the counter and the number of entries are those it names. -/
theorem exec_commandInstr_result {hd : BitVec 128} {data : List Byte} {s t : State} (hidle : s.core.cu = .idle)
    (h : exec (commandInstr hd data) s = .next t) :
    t.core.cu = .busy (commandResult s.params.regCap s.core.fid s.core.reg.length ⟨hd, data⟩).frame
        (commandResult s.params.regCap s.core.fid s.core.reg.length ⟨hd, data⟩).resp ∧
      t.core.fid = (commandResult s.params.regCap s.core.fid s.core.reg.length ⟨hd, data⟩).fid ∧
      t.core.reg.length = (commandResult s.params.regCap s.core.fid s.core.reg.length ⟨hd, data⟩).entries := by
  have plain : ∀ status, whenIdle (answer status) s = .next t → t = answer status s := by
    intro status hs; rw [whenIdle_of_idle hidle] at hs; cases hs; rfl
  unfold commandInstr at h
  simp only [commandResult]
  split at h
  case h_2 ho =>
    rw [ho]
    simp only [exec, execAddHandler, whenIdle_of_idle hidle] at h
    cases h
    simp only [addHandlerEffect]
    split <;> simp [answer, CommandResult.plain]
  case h_3 ho =>
    rw [ho]
    simp only [exec, execSetErrorHandler, whenIdle_of_idle hidle] at h
    cases h
    simp [setErrorHandlerEffect, answer, CommandResult.plain]
  case h_4 ho =>
    rw [ho]
    simp only [exec, execEncodeTransmit, whenIdle_of_idle hidle] at h
    cases h
    simp only [encodeTransmitEffect]
    split
    · simp [answer, CommandResult.plain]
    · split
      · simp [answer, CommandResult.plain]
      · exact ⟨startFrame_result .., rfl, rfl⟩
  case h_5 ho =>
    rw [ho]
    simp only [exec, execEncodeAtCommand, whenIdle_of_idle hidle] at h
    cases h
    simp only [encodeAtCommandEffect]
    split
    · simp [answer, CommandResult.plain]
    · split
      · simp [answer, CommandResult.plain]
      · exact ⟨startFrame_result .., rfl, rfl⟩
  all_goals
    rw [show t = answer .badOpcode s from plain _ h]
    split <;> first | contradiction | omega | simp [answer, CommandResult.plain]

/-- What one step other than RESET does to the outbound streams, the counter and the number of entries: it accepts no command
and leaves them, or accepts one and extends them as `commandResult` says. -/
theorem step_outbound {s t : State} (h : step s = .next t) (hr : isReset s = false) :
    t.params = s.params ∧
    ((cmdTaken s = [] ∧ txStream t = txStream s ∧ respStream t = respStream s ∧ t.core.fid = s.core.fid ∧
        t.core.reg.length = s.core.reg.length) ∨
     ∃ c, cmdTaken s = [c] ∧
       txStream t = txStream s ++ (commandResult s.params.regCap s.core.fid s.core.reg.length c).frame ∧
       respStream t = respStream s ++ [(commandResult s.params.regCap s.core.fid s.core.reg.length c).resp] ∧
       t.core.fid = (commandResult s.params.regCap s.core.fid s.core.reg.length c).fid ∧
       t.core.reg.length = (commandResult s.params.regCap s.core.fid s.core.reg.length c).entries) := by
  obtain ⟨u, hu, hc, hp, hpar, ⟨o, ht, -, rfl⟩ | ⟨a, ht, -, hr', rfl⟩ | ⟨a, ht, hres, -, he⟩⟩ := step_effect h
  · have h1 : cmdTaken s = [] := by simp [cmdTaken, isTurnOf, ht]
    simp [h1, hc, hpar, txStream, respStream]
  · simp [hr] at hr'
  · have h1 : a ≠ .commandUnit → cmdTaken s = [] := by intro ha; simp [cmdTaken, isTurnOf, ht, ha]
    clear hu h hr
    cases he
    case wait hen =>
      have h1 : cmdTaken s = [] := by
        by_cases ha : a = .commandUnit
        · subst ha
          have : enabled .commandUnit s = false := by rw [← hen]; simp only [enabled, hc, hp, hpar]
          simp [cmdTaken, this]
        · exact h1 ha
      simp [h1, hc, hp, hpar, txStream, respStream]
    case cmdAccept c cs idle offered whole run hacc =>
      obtain ⟨e1, e2, e3⟩ := exec_commandInstr_result (by simpa using idle) run
      have hpc : t.params = u.params ∧ t.ports.txOut = u.ports.txOut ∧ t.ports.respOut = u.ports.respOut ∧
          t.core.txq = u.core.txq := by
        cases hacc <;> simp [startFrame]
      rw [hc] at idle
      rw [hp] at offered
      simp only [State.withPorts_core, State.withPorts_params, hc, hpar] at e1 e2 e3
      refine ⟨hpc.1.trans hpar, .inr ⟨c, ?_, ?_, ?_, e2, e3⟩⟩
      · simp [cmdTaken, isTurnOf, ht, hres, enabled, idle, offered, whole]
      · simp [txStream, pendingTx, e1, hpc, hp, hc, idle]
      · simp [respStream, pendingResp, e1, hpc, hp, idle]
    case cmdAppend b rest resp busy room =>
      rw [hc] at busy
      have h1 : cmdTaken s = [] := by simp [cmdTaken, busy]
      simp [h1, hc, hp, hpar, txStream, respStream, pendingTx, pendingResp, busy]
    case respTake resp busy rdy =>
      rw [hc] at busy
      have h1 : cmdTaken s = [] := by simp [cmdTaken, busy]
      simp [h1, hc, hp, hpar, txStream, respStream, pendingTx, pendingResp, busy]
    case txEmit x q hrun hrdy hq =>
      rw [hc] at hq
      simp [h1, hc, hp, hpar, txStream, respStream, pendingTx, pendingResp, hq]
    case syncFrame hf =>
      cases hf
      simp [h1, hc, hp, hpar, txStream, respStream, pendingTx, pendingResp]
    all_goals simp [h1, hc, hp, hpar, txStream, respStream, pendingTx, pendingResp]

/-- A longer run is a step and a shorter run. -/
theorem runRecord_succ {n : Nat} {s : State} {r : RunRecord} (h : runRecord (n + 1) s = some r) :
    ∃ t r', step s = .next t ∧ runRecord n t = some r' ∧
      r = {
        final := r'.final
        rx := rxTaken s ++ r'.rx
        sync := syncTaken s ++ r'.sync
        events := newEvents (syncTaken s) t ++ r'.events
        commands := cmdTaken s ++ r'.commands
        hadReset := isReset s || r'.hadReset } := by
  simp only [runRecord] at h
  split at h
  · next t ht =>
    split at h
    · next r' hr' => cases h; exact ⟨t, r', ht, hr', rfl⟩
    · cases h
  · cases h
  · cases h

end Sys2Proof.Machine
end

