-- ==== Sys2Proof/Machine/HostActions.lean ====
section
/-! DEFINITION. The written syntax of host actions (30_encoding.md R125 to R128), each action as the turns it stands for, and the
eager schedule that the spec's test programs use (92_eei_decisions.md D39). -/

namespace Sys2Proof.Machine

/-- The host actions of 30_encoding.md R126 and the pseudo-action of R127. -/
inductive HostAction
  /-- `ADDH key, hid` -/
  | addh (key hid : Byte)
  /-- `SETERR hid` -/
  | seterr (hid : Byte)
  /-- `TX a64[/n], a16, opt, data`; no `a16` is `-` -/
  | tx (a64 : BitVec 64) (n : BitVec 4) (a16 : Option (BitVec 16)) (opt : Byte) (data : List Byte)
  /-- `AT cmd[/n], data` -/
  | at (cmd : BitVec 16) (n : BitVec 2) (data : List Byte)
  /-- `CMD op`: a raw command with all other fields 0 -/
  | cmd (op : BitVec 4)
  | begin
  | endRun
  | reset
  /-- `TRANSPORT ok` -/
  | transport (ok : Bool)
  /-- `RX bytes` -/
  | rx (bytes : List Byte)
  | take
  /-- `INIT`, for a transport handle that is valid or not (30_encoding.md R127) -/
  | init (valid : Bool)
  deriving DecidableEq, Repr

/-- The header of a command action (30_encoding.md R113, R128). -/
def HostAction.header? : HostAction → Option (BitVec 128)
  | .addh key hid => some (mkHeader 1 0 0 0 key hid 0 0 0)
  | .seterr hid => some (mkHeader 2 0 0 0 0 hid 0 0 0)
  | .tx a64 n a16 opt data =>
    some (mkHeader 3 n (if a16.isSome then 1 else 0) 0 opt 0 (beatCount data) (a16.getD 0) a64)
  | .at c n data => some (mkHeader 4 0 0 n 0 0 (beatCount data) c 0)
  | .cmd op => some (mkHeader op 0 0 0 0 0 0 0 0)
  | .begin | .endRun | .reset | .transport _ | .rx _ | .take | .init _ => none

/-- The data beats of a command action. -/
def HostAction.beats : HostAction → List Byte
  | .tx _ _ _ _ data => data
  | .at _ _ data => data
  | .addh _ _ | .seterr _ | .cmd _ | .begin | .endRun | .reset | .transport _ | .rx _ | .take | .init _ => []

/-- Assert the reset input, let the core take its RESET step, release it (70_reset_and_hazards.md R360). -/
def resetTurns : List Turn := [.outside (.driveReset true), .core .controlPort, .outside (.driveReset false)]

/-- The turns an action stands for: the beats or bytes offered, the control beat taken, the input driven. -/
def HostAction.turns (a : HostAction) : List Turn :=
  match a with
  | .addh _ _ | .seterr _ | .tx _ _ _ _ _ | .at _ _ _ | .cmd _ =>
    .outside (.offerHeader (a.header?.getD 0)) :: a.beats.map (fun b => .outside (.offerData b))
  | .begin => [.outside (.offerControl 1), .core .controlPort]
  | .endRun => [.outside (.offerControl 2), .core .controlPort]
  | .reset => resetTurns
  | .transport ok => [.outside (.driveTransportOk ok)]
  | .rx bytes => bytes.map (fun b => .outside (.offerByte b))
  | .take => [.outside (.driveEvtReady true), .core .eventPort]
  | .init valid => resetTurns ++ [.outside (.driveTransportOk valid)]

/-- `FRAME t [body bytes]` (30_encoding.md R125). -/
def writtenFrame (t : Byte) (body : List Byte) : List Byte := mkframe (t :: body)

/-- The next agent under the eager schedule: one with an enabled step, if there is any (92_eei_decisions.md D39). The order in
which enabled agents are tried is the model's (log entry 19). -/
def eagerAgent (s : State) : Option Agent :=
  [Agent.eventPort, .commandUnit, .synchronizer, .txPort, .rxPort].find? (fun a => enabled a s)

/-- Run eagerly, at most `n` steps, until no step is enabled (92_eei_decisions.md D39). -/
def runEager : Nat → State → State
  | 0, s => s
  | n + 1, s =>
    match eagerAgent s with
    | none => s
    | some a =>
      match takeTurn (.core a) s with
      | .next t => runEager n t
      | .fault _ => s
      | .refused _ => s

/-- One host action: its turns, then eager steps, the host and the transport being ready all along. -/
def actEager (n : Nat) (s : State) (a : HostAction) : State :=
  let ready := s.withPorts { s.ports with txReady := true, evtReady := true, respReady := true }
  let acted := a.turns.foldl
    (fun t turn =>
      match takeTurn turn t with
      | .next t' => t'
      | .fault _ => t
      | .refused _ => t) ready
  runEager n acted

end Sys2Proof.Machine
end

