-- ==== Sys2Proof/Tests/Slice0.lean ====
section
/-! SUPPORT. Small tests: well-formedness, one written word for each instruction, one step for each family, and for each statement that
has hypotheses a concrete state and operands that meet them. Expected values are those of spec/95_test_vectors.md (named V-...) or are
worked out by hand from the rule cited. -/

namespace Sys2Proof.Tests

open Sys2Proof.Machine

/-! Helpers. -/

/-- The state after reset with the core running. -/
def running : State := State.reset.withRun true

/-- `s` with these bytes in `rxq`. -/
def withBytes (q : List Byte) (s : State) : State := s.withRxq q

/-- `s` with it being agent `a`'s turn. -/
def turnOf (a : Agent) (s : State) : State := { s with sched := [.core a] }

/-- The next state of an answer. -/
def after : Answer → Option State
  | .next s => some s
  | .fault _ => none
  | .refused _ => none

/-- The event register of the next state. -/
def eventAfter (a : Answer) : Option (Option Event) := (after a).map (fun s => s.core.evt)

/-- The command unit of the next state. -/
def unitAfter (a : Answer) : Option CmdUnit := (after a).map (fun s => s.core.cu)

/-! Well-formedness: each check refuses an ill-formed term (30_encoding.md R100, R103, R113). -/

theorem test_frame_length_refused : (Instr.frameAtResponse 5 [0x01, 0x42, 0x44, 0x00]).wellFormed = false := by decide
theorem test_frame_length_accepted : (Instr.frameAtResponse 5 [0x01, 0x42, 0x44, 0x00, 0xF0]).wellFormed = true := by decide
theorem test_known_type_is_no_unsupported_frame : (Instr.frameUnsupported 0 0x88 []).wellFormed = false := by decide
theorem test_beats_refused (hid : Byte) : (Instr.setErrorHandler hid (List.replicate 65536 0)).wellFormed = false := by
  simp only [Instr.wellFormed, beatsWellFormed, List.length_replicate]; decide
theorem test_beats_accepted (hid : Byte) : (Instr.setErrorHandler hid (List.replicate 65535 0)).wellFormed = true := by
  simp only [Instr.wellFormed, beatsWellFormed, List.length_replicate]; decide

/-! One word for each instruction, written out from the encoding (30_encoding.md R100, R113, R114, R116, R128). -/

/-- V-S1 -/
theorem test_decode_frameAtCommand : decode (.frame [0x7E, 0x00, 0x04, 0x08, 0x01, 0x4E, 0x4A, 0x5E])
    = .ok (.frameAtCommand 4 [0x01, 0x4E, 0x4A, 0x5E]) := by decide

/-- V-DEC-3 -/
theorem test_decode_frameTransmit : decode (.frame [0x7E, 0x00, 0x0E, 0x10, 0x00, 0x00, 0x13, 0xA2, 0x00, 0x40, 0xA1, 0xB2, 0xC3, 0x12, 0x34, 0x00, 0x01, 0x9D])
    = .ok (.frameTransmit 14 [0x00, 0x00, 0x13, 0xA2, 0x00, 0x40, 0xA1, 0xB2, 0xC3, 0x12, 0x34, 0x00, 0x01, 0x9D]) := by decide

/-- V-S2 -/
theorem test_decode_frameAtResponse : decode (.frame [0x7E, 0x00, 0x05, 0x88, 0x01, 0x42, 0x44, 0x00, 0xF0])
    = .ok (.frameAtResponse 5 [0x01, 0x42, 0x44, 0x00, 0xF0]) := by decide

/-- V-S4 -/
theorem test_decode_frameModemStatus : decode (.frame [0x7E, 0x00, 0x02, 0x8A, 0x06, 0x6F])
    = .ok (.frameModemStatus 2 [0x06, 0x6F]) := by decide

/-- V-DEC-5 -/
theorem test_decode_frameTxStatus : decode (.frame [0x7E, 0x00, 0x07, 0x8B, 0x01, 0x7D, 0x84, 0x00, 0x00, 0x02, 0x70])
    = .ok (.frameTxStatus 7 [0x01, 0x7D, 0x84, 0x00, 0x00, 0x02, 0x70]) := by decide

/-- V-DEC-6 -/
theorem test_decode_frameReceive : decode (.frame [0x7E, 0x00, 0x0E, 0x90, 0x00, 0x13, 0xA2, 0x00, 0x40, 0xA1, 0xB2, 0xC3, 0x7D, 0x84, 0x01, 0x52, 0x78, 0x98])
    = .ok (.frameReceive 14 [0x00, 0x13, 0xA2, 0x00, 0x40, 0xA1, 0xB2, 0xC3, 0x7D, 0x84, 0x01, 0x52, 0x78, 0x98]) := by decide

/-- V-DEC-8 -/
theorem test_decode_frameExplicitReceive : decode (.frame [0x7E, 0x00, 0x13, 0x91, 0x00, 0x13, 0xA2, 0x00, 0x40, 0xA1, 0xB2, 0xC3, 0x7D, 0x84, 0xE8, 0xE8, 0x00, 0x11, 0xC1, 0x05, 0x01, 0x41, 0x79])
    = .ok (.frameExplicitReceive 19 [0x00, 0x13, 0xA2, 0x00, 0x40, 0xA1, 0xB2, 0xC3, 0x7D, 0x84, 0xE8, 0xE8, 0x00, 0x11, 0xC1, 0x05, 0x01, 0x41, 0x79]) := by decide

/-- V-DEC-10 -/
theorem test_decode_frameUnsupported : decode (.frame [0x7E, 0x00, 0x02, 0x42, 0x00, 0xBD])
    = .ok (.frameUnsupported 2 0x42 [0x00, 0xBD]) := by decide

theorem test_decode_addHandler : decode (.command 0x00000000000000000000000002880001 []) = .ok (.addHandler 0x88 0x02 []) := by decide
theorem test_decode_setErrorHandler : decode (.command 0x00000000000000000000000107000002 [0xAA]) = .ok (.setErrorHandler 0x07 [0xAA]) := by decide
theorem test_decode_encodeTransmit : decode (.command 0x0013A20040A1B2C31234000100010183 [0x68]) = .ok (.encodeTransmit 8 1 0x01 0x1234 0x0013A20040A1B2C3 [0x68]) := by decide
theorem test_decode_encodeAtCommand : decode (.command 0x00000000000000004E4A000200000604 [0x25, 0x80]) = .ok (.encodeAtCommand 3 0x4E4A [0x25, 0x80]) := by decide
theorem test_decode_reservedOp0 : decode (.command 0x0000000000000000000000010000F800 [0x11]) = .ok (.reservedOp0 [0x11]) := by
  decide
theorem test_decode_reservedOp5 : decode (.command 0x0000000000000000000000010000F805 [0x11]) = .ok (.reservedOp5 [0x11]) := by
  decide
theorem test_decode_reservedOp6 : decode (.command 0x0000000000000000000000010000F806 [0x11]) = .ok (.reservedOp6 [0x11]) := by
  decide
theorem test_decode_reservedOp7 : decode (.command 0x0000000000000000000000010000F807 [0x11]) = .ok (.reservedOp7 [0x11]) := by
  decide
theorem test_decode_reservedOp8 : decode (.command 0x0000000000000000000000010000F808 [0x11]) = .ok (.reservedOp8 [0x11]) := by
  decide
theorem test_decode_reservedOp9 : decode (.command 0x0000000000000000000000010000F809 [0x11]) = .ok (.reservedOp9 [0x11]) := by
  decide
theorem test_decode_reservedOpA : decode (.command 0x0000000000000000000000010000F80A [0x11]) = .ok (.reservedOpA [0x11]) := by
  decide
theorem test_decode_reservedOpB : decode (.command 0x0000000000000000000000010000F80B [0x11]) = .ok (.reservedOpB [0x11]) := by
  decide
theorem test_decode_reservedOpC : decode (.command 0x0000000000000000000000010000F80C [0x11]) = .ok (.reservedOpC [0x11]) := by
  decide
theorem test_decode_reservedOpD : decode (.command 0x0000000000000000000000010000F80D [0x11]) = .ok (.reservedOpD [0x11]) := by
  decide
theorem test_decode_reservedOpE : decode (.command 0x0000000000000000000000010000F80E [0x11]) = .ok (.reservedOpE [0x11]) := by
  decide
theorem test_decode_reservedOpF : decode (.command 0x0000000000000000000000010000F80F [0x11]) = .ok (.reservedOpF [0x11]) := by
  decide
theorem test_decode_ctlNop : decode (.control 0) = .ok .ctlNop := by decide
theorem test_decode_ctlBegin : decode (.control 1) = .ok .ctlBegin := by decide
theorem test_decode_ctlEnd : decode (.control 2) = .ok .ctlEnd := by decide
theorem test_decode_ctlReserved3 : decode (.control 3) = .ok .ctlReserved3 := by decide

/-- No delimiter, a cut frame, a byte too many, a beat too few: each is refused by name. -/
theorem test_decode_refusals :
    decode (.frame [0x7D, 0x00, 0x00, 0x88]) = .error .noDelimiter ∧
    decode (.frame [0x7E, 0x00, 0x02, 0x8A, 0x06]) = .error .truncatedFrame ∧
    decode (.frame [0x7E, 0x00, 0x00, 0x8A, 0x06]) = .error .trailingBytes ∧
    decode (.command 0x00000000000000000000000101880001 []) = .error .wrongBeatCount := by decide

/-! The numbered words of the opcode table, and placing one where the next step fetches it. -/

theorem test_table_words :
    decodeTableWord 32 0x7E000088 = some (.frameAtResponse 0 []) ∧
    decodeTableWord 32 0x7E000242 = some (.frameUnsupported 2 0x42 [0, 0]) ∧
    decodeTableWord 128 0x1 = some (.addHandler 0 0 []) ∧ decodeTableWord 8 0x2 = some .ctlEnd := by decide

/-- An AtResponse frame of declared length 0 gives FRAME_TOO_SHORT (42_decoder.md R164). -/
theorem test_fetch_frame : eventAfter (step (State.reset.withFetchWord 32 0x7E000088)) =
    some (some { kind := .errorDropped, hid := 0, ftype := 0x88, result := .err .frameTooShort 0 5 }) := by decide

theorem test_fetch_command : unitAfter (step (State.reset.withFetchWord 128 0xF)) =
    some (.busy [] { status := .badOpcode }) := by decide

/-! Frames: the event of one SYNC_FRAME (spec/95_test_vectors.md section 2.2). -/

/-- V-DEC-1 -/
theorem test_frameAtCommand : eventAfter (exec (.frameAtCommand 8 [0xFF, 0x42, 0x44, 0x00, 0x00, 0x25, 0x80, 0xCD])
    (withBytes [0x7E, 0x00, 0x08, 0x08, 0xFF, 0x42, 0x44, 0x00, 0x00, 0x25, 0x80, 0xCD] running)) =
    some (some { kind := .noHandler, hid := 0, ftype := 0x08, result := .ok [0xFF, 0x42, 0x44] [0x00, 0x00, 0x25, 0x80] }) := by decide

/-- V-DEC-2 -/
theorem test_frameTransmit : eventAfter (exec (.frameTransmit 16 [0x00, 0x00, 0x13, 0xA2, 0x00, 0x40, 0xA1, 0xB2, 0xC3, 0xFF, 0xFE, 0x00, 0x00, 0x68, 0x69, 0x16])
    (withBytes [0x7E, 0x00, 0x10, 0x10, 0x00, 0x00, 0x13, 0xA2, 0x00, 0x40, 0xA1, 0xB2, 0xC3, 0xFF, 0xFE, 0x00, 0x00, 0x68, 0x69, 0x16] running)) =
    some (some { kind := .noHandler, hid := 0, ftype := 0x10, result := .ok [0x00, 0x00, 0x13, 0xA2, 0x00, 0x40, 0xA1, 0xB2, 0xC3, 0xFF, 0xFE, 0x00, 0x00] [0x68, 0x69] }) := by decide

/-- V-S3a -/
theorem test_frameAtResponse : eventAfter (exec (.frameAtResponse 10 [0x01, 0x42, 0x44, 0x00, 0x68, 0x65, 0x6C, 0x6C, 0x6F, 0x4B])
    (withBytes [0x7E, 0x00, 0x0A, 0x88, 0x01, 0x42, 0x44, 0x00, 0x68, 0x65, 0x6C, 0x6C, 0x6F, 0x4B] running)) =
    some (some { kind := .errorDropped, hid := 0, ftype := 0x88, result := .err .checksumError 0xDC 0x4B }) := by decide

/-- V-DEC-9, with a byte after the frame -/
theorem test_frameModemStatus : eventAfter (exec (.frameModemStatus 3 [0x06, 0x99, 0xD6])
    (withBytes [0x7E, 0x00, 0x03, 0x8A, 0x06, 0x99, 0xD6, 0x00] running)) =
    some (some { kind := .noHandler, hid := 0, ftype := 0x8A, result := .ok [0x06] [] }) := by decide

/-- V-DEC-22 -/
theorem test_frameTxStatus : eventAfter (exec (.frameTxStatus 8 [0x01, 0x7D, 0x84, 0x00, 0x00, 0x02, 0x55, 0x1B])
    (withBytes [0x7E, 0x00, 0x08, 0x8B, 0x01, 0x7D, 0x84, 0x00, 0x00, 0x02, 0x55, 0x1B] running)) =
    some (some { kind := .noHandler, hid := 0, ftype := 0x8B, result := .ok [0x01, 0x7D, 0x84, 0x00, 0x00, 0x02] [] }) := by decide

/-- V-DEC-13 -/
theorem test_frameReceive : eventAfter (exec (.frameReceive 4 [0x01, 0x02, 0x03, 0x00])
    (withBytes [0x7E, 0x00, 0x04, 0x90, 0x01, 0x02, 0x03, 0x00] running)) =
    some (some { kind := .errorDropped, hid := 0, ftype := 0x90, result := .err .frameTooShort 4 12 }) := by decide

/-- V-DEC-8 -/
theorem test_frameExplicitReceive : eventAfter (exec (.frameExplicitReceive 19 [0x00, 0x13, 0xA2, 0x00, 0x40, 0xA1, 0xB2, 0xC3, 0x7D, 0x84, 0xE8, 0xE8, 0x00, 0x11, 0xC1, 0x05, 0x01, 0x41, 0x79])
    (withBytes [0x7E, 0x00, 0x13, 0x91, 0x00, 0x13, 0xA2, 0x00, 0x40, 0xA1, 0xB2, 0xC3, 0x7D, 0x84, 0xE8, 0xE8, 0x00, 0x11, 0xC1, 0x05, 0x01, 0x41, 0x79] running)) =
    some (some { kind := .noHandler, hid := 0, ftype := 0x91, result := .ok [0x00, 0x13, 0xA2, 0x00, 0x40, 0xA1, 0xB2, 0xC3, 0x7D, 0x84, 0xE8, 0xE8, 0x00, 0x11, 0xC1, 0x05, 0x01] [0x41] }) := by decide

/-- V-DEC-23 -/
theorem test_frameUnsupported : eventAfter (exec (.frameUnsupported 2 0x42 [0x00, 0x00])
    (withBytes [0x7E, 0x00, 0x02, 0x42, 0x00, 0x00, 0x00, 0x00] running)) =
    some (some { kind := .errorDropped, hid := 0, ftype := 0x42, result := .err .unsupportedFrameType 0 0 }) := by decide

/-- With RX_ACCEPT_TX_TYPES false, types 0x08 and 0x10 are not supported (V-DEC-19, V-DEC-18). -/
theorem test_tx_types_refused :
    decodeFrame { rxAcceptTxTypes := false } 0x08 [0x7E, 0x00, 0x04, 0x08, 0x01, 0x4E, 0x4A, 0x5E]
      = some (.err .unsupportedFrameType 0x08 0 0) ∧
    supported { rxAcceptTxTypes := false } 0x10 = false ∧ supported { rxAcceptTxTypes := false } 0x88 = true := by decide

/-- V-DEC-14, V-DEC-24, V-DEC-25: results that only a direct use of DECODE can give. -/
theorem test_decode_direct :
    decodeFrame {} 0x88 [0x7E, 0x00, 0x05, 0x88, 0x01, 0x42, 0x44, 0x00] = some (.err .frameLengthError 0x88 5 4) ∧
    decodeFrame {} 0x90 [0x7E, 0x00, 0x05, 0x88, 0x01, 0x42, 0x44, 0x00, 0xF0]
      = some (.err .invalidFrameType 0x90 0x90 0x88) ∧
    decodeFrame {} 0x42 [0x7E, 0x00, 0x05, 0x88, 0x01, 0x42, 0x44, 0x00, 0xF0]
      = some (.err .unsupportedFrameType 0x42 0 0) := by decide

/-- The first matching handler wins (45_dispatch_engine.md R281). -/
theorem test_first_handler_wins :
    (routeOk 0x8A [0x06] [] [⟨0x88, 1⟩, ⟨0x8A, 2⟩, ⟨0x8A, 3⟩]).hid = 2 := by decide

/-! Commands (spec/95_test_vectors.md section 2.3). -/

/-- V-ENC-5 -/
theorem test_encodeAtCommand : unitAfter (exec (.encodeAtCommand 2 0x4E4A []) State.reset) =
    some (.busy [0x7E, 0x00, 0x04, 0x08, 0x01, 0x4E, 0x4A, 0x5E] { status := .ok, rfid := 1, rlen := 4, rchk := 0x5E }) := by
  decide

/-- V-ENC-9: the counter wraps. -/
theorem test_frame_id_wraps : (after (exec (.encodeAtCommand 2 0x4E4A []) (State.reset.withFid 0xFF))).map (fun s => s.core.fid)
    = some 0x00 := by decide

/-- V-ENC-2 -/
theorem test_encodeTransmit : unitAfter (exec (.encodeTransmit 8 1 0x01 0x1234 0x0013A20040A1B2C3 []) State.reset) =
    some (.busy [0x7E, 0x00, 0x0E, 0x10, 0x00, 0x00, 0x13, 0xA2, 0x00, 0x40, 0xA1, 0xB2, 0xC3, 0x12, 0x34, 0x00, 0x01, 0x9D]
      { status := .ok, rfid := 0, rlen := 14, rchk := 0x9D }) := by decide

/-- V-ENC-3 -/
theorem test_encodeTransmit_address : unitAfter (exec (.encodeTransmit 7 0 0x00 0 0x0013A20040A1B2C3 [0x68, 0x69]) State.reset) =
    some (.busy [] { status := .invalidAddressLength }) := by decide

theorem test_addHandler_full :
    unitAfter (exec (.addHandler 0x88 1 []) { State.reset with params := { regCap := 1 }, core := { CoreState.reset with reg := [⟨0x90, 5⟩] } })
      = some (.busy [] { status := .registryFull }) := by decide

/-- `CTL_BEGIN` with no valid transport does nothing (45_dispatch_engine.md R284). -/
theorem test_begin_without_transport : exec .ctlBegin State.reset = .next State.reset := rfl

/-! Outputs and packed records. -/

/-- V-S1's response, packed (program P2). -/
theorem test_response_packed : ({ status := .ok, rfid := 1, rlen := 4, rchk := 0x5E } : Response).packed = 0x5E0004010 := by decide

/-- The last event of program P3, packed. -/
theorem test_event_packed : ({ kind := .noHandler, hid := 0, ftype := 0x8A, result := .ok [0x06] [] } : Event).header =
    0x01800000000000000000000000000000000000020000000022801 := by decide

theorem test_status0_reset : status0 State.reset = 0x00000100 := by decide

/-- `TX a64=0013A20040A1B2C3, a16=1234, opt=0x01, data=` (V-ENC-2). -/
theorem test_action_header : (HostAction.tx 0x0013A20040A1B2C3 8 (some 0x1234) 0x01 []).header? =
    some 0x0013A20040A1B2C31234000000010183 := by decide

/-! For each statement with hypotheses: operands that meet them, at a boundary where there is one. -/

/-- V-S2, a whole well-checksummed AtResponse frame. -/
def good : List Byte := [0x7E, 0x00, 0x05, 0x88, 0x01, 0x42, 0x44, 0x00, 0xF0]

/-- A command as the host offers it. -/
def offered : Command := { header := 0x00000000000000004E4A000000000404, data := [] }

/-- `s` with these inputs offered. -/
def offering (cmds : List Command) (ctl : List (BitVec 2)) (rx : List Byte) (s : State) : State :=
  s.withPorts { s.ports with cmdIn := cmds, ctlIn := ctl, rxIn := rx }

/-- `s` with transport and host ready. -/
def ready (s : State) : State := s.withPorts { s.ports with txReady := true, evtReady := true, respReady := true }

/-- `s` with the reset input asserted. -/
def inReset (s : State) : State := s.withPorts { s.ports with resetIn := true }

/-- Small capacities: eight inbound bytes, three outbound bytes, one handler. -/
def small : Params := { rxbufCap := 8, txbufCap := 3, regCap := 1 }

/-- `s` with these parameters. -/
def withParams (p : Params) (s : State) : State := { s with params := p }

/-- An event that waits. -/
def waiting : Event := { kind := .noHandler, hid := 0, ftype := 0x8A, result := .ok [0x06] [] }

/-- A response. -/
def reply : Response := { status := .ok }

/-- A full buffer whose candidate declares 65535 bytes. -/
def overlong : State := withParams small (withBytes [0x7E, 0xFF, 0xFF, 0x88, 0x00, 0x00, 0x00, 0x00] running)

theorem wit_DecodeOfEncodeGivesTheInstruction :
    (Instr.frameModemStatus 0 []).wellFormed = true ∧ (Instr.frameUnsupported 1 0xFF [0x00]).wellFormed = true ∧
    (Instr.encodeAtCommand 2 0x4E4A (List.replicate 65535 0xFF)).wellFormed = true ∧ Instr.ctlEnd.wellFormed = true := by
  refine ⟨by decide, by decide, ?_, by decide⟩
  simp only [Instr.wellFormed, beatsWellFormed, List.length_replicate]; decide

theorem wit_StreamDecodeTakesDeclaredLength :
    decodeStream [0x7E, 0x00, 0x00, 0x8A, 0x11] = .ok (.frameModemStatus 0 [], [0x11]) := by decide

theorem wit_IgnoredHeaderBitsChangeNothing :
    (0xFFFFFFFFFFFFFFFFFFFF00010788FFF1 : BitVec 128) ≠ 0x00000000000000000000000107880001 ∧
    hdrOp 0xFFFFFFFFFFFFFFFFFFFF00010788FFF1 = hdrOp 0x00000000000000000000000107880001 ∧
    0xFFFFFFFFFFFFFFFFFFFF00010788FFF1 &&& usedHeaderBits 1 = 0x00000000000000000000000107880001 &&& usedHeaderBits 1 := by
  decide

theorem wit_StepRunsDecodedFrame :
    (nextTurn (turnOf .synchronizer (withBytes good running))).1 = .core .synchronizer ∧
    (turnOf .synchronizer (withBytes good running)).ports.resetIn = false ∧ syncState good = .frameReady ∧
    decodeStream good = .ok (.frameAtResponse 5 [0x01, 0x42, 0x44, 0x00, 0xF0], []) := by decide

theorem wit_StepRunsDecodedCommand :
    let s := turnOf .commandUnit (offering [offered] [] [] State.reset)
    (nextTurn s).1 = .core .commandUnit ∧ s.ports.resetIn = false ∧ s.core.cu = .idle ∧ s.ports.cmdIn = [offered] ∧
    decode (.command offered.header offered.data) = .ok (.encodeAtCommand 2 0x4E4A []) := by decide

theorem wit_StepRunsDecodedControl :
    let s := turnOf .controlPort (offering [] [1] [] State.reset)
    (nextTurn s).1 = .core .controlPort ∧ s.ports.resetIn = false ∧ s.ports.ctlIn = [1] ∧
    decode (.control 1) = .ok .ctlBegin := by decide

theorem wit_TurnWithoutEnabledStepChangesNothing :
    enabled .rxPort State.reset = false ∧ enabled .synchronizer overlong = false ∧
    enabled .commandUnit (offering [{ offered with data := [0x00] }] [] [] State.reset) = false ∧
    enabled .txPort running = false ∧ enabled .eventPort (running.withEvt (some waiting)) = false ∧
    enabled .controlPort running = false := by decide

theorem wit_ResetClearsTheRecord :
    (nextTurn (turnOf .txPort (inReset overlong))).1 = .core .txPort ∧
    (turnOf .txPort (inReset overlong)).ports.resetIn = true := by decide

/-- Each kind of outside turn can be next; a data beat where no command is offered and where two are. -/
theorem wit_OutsideTurnsMoveInputsOnly :
    (∀ o ∈ ([.offerByte 0x7E, .offerHeader offered.header, .offerData 0x41, .offerControl 1, .driveTransportOk true,
      .driveReset true, .driveTxReady true, .driveEvtReady true, .driveRespReady true] : List Outside),
      (nextTurn { running with sched := [.outside o] }).1 = .outside o) ∧
    running.ports.cmdIn = [] ∧ (offering [offered, offered] [] [] running).ports.cmdIn = [offered] ++ [offered] := by
  decide

theorem wit_RunGatesExactlyThreeAgents :
    (withBytes good State.reset).core.run = false ∧ (inReset running).ports.resetIn = true := by decide

theorem wit_ChecksumCornerCases :
    ([0x80, 0x7F, 0x01] : List Byte) ≠ [] ∧ (([0x80, 0x7F, 0x01] : List Byte).map BitVec.toNat).sum % 256 = 0 ∧
    ([0x88, 0x01] : List Byte).Perm [0x01, 0x88] ∧ (0x00 : Byte) ≠ 0xFF := by decide

theorem wit_ChecksumVerificationIdentity :
    good.length = declaredLen good + 4 ∧ ([0x7E, 0x00, 0x00, 0x8A] : List Byte).length = 0 + 4 ∧
    declaredLen [0x7E, 0x00, 0x00, 0x8A] = 0 ∧
    decodeFrame {} 0x88 [0x7E, 0x00, 0x05, 0x88, 0x01, 0x42, 0x44, 0x00, 0xF1]
      = some (.err .checksumError 0x88 0xF0 0xF1) := by decide

/-- One span for each clause, the shortest in the domain (four bytes) among them. -/
theorem wit_FirstFailingCheckGivesTheResult :
    registry {} 0x42 = none ∧ registry {} 0x8A = some .modemStatus ∧ registry {} 0x88 = some .atResponse ∧
    byteAt [0x7E, 0x00, 0x00, 0x8A] 3 ≠ 0x88 ∧
    (byteAt [0x7E, 0xFF, 0xFF, 0x8A] 3 = 0x8A ∧ declaredLen [0x7E, 0xFF, 0xFF, 0x8A] ≠ 4 - 4) ∧
    (byteAt [0x7E, 0x00, 0x00, 0x8A] 3 = 0x8A ∧ declaredLen [0x7E, 0x00, 0x00, 0x8A] = 4 - 4 ∧ 0 < minLen .modemStatus) ∧
    (declaredLen good = good.length - 4 ∧ minLen .atResponse ≤ declaredLen good ∧
      checksum (slice good 3 (3 + declaredLen good)) = byteAt good (3 + declaredLen good)) ∧
    (minLen .modemStatus ≤ declaredLen [0x7E, 0x00, 0x02, 0x8A, 0x06, 0x70] ∧
      checksum (slice [0x7E, 0x00, 0x02, 0x8A, 0x06, 0x70] 3 5) ≠ 0x70) := by decide

theorem wit_FirstFailingCheckGivesTheResult_longest :
    4 ≤ (List.replicate 65539 (0x00 : Byte)).length ∧ (List.replicate 65539 (0x00 : Byte)).length ≤ 65539 := by
  rw [List.length_replicate]; decide

theorem wit_DecodedPayloadsAreChecked :
    decodeFrame {} 0x88 good = some (.ok 0x88 [0x01, 0x42, 0x44, 0x00] []) := by decide

theorem wit_DeliveredBytesAreTheNamedFields :
    decodeFrame {} 0x08 [0x7E, 0x00, 0x04, 0x08, 0x01, 0x4E, 0x4A, 0x5E] = some (.ok 0x08 [0x01, 0x4E, 0x4A] []) ∧
    (decodeFrame {} 0x10 [0x7E, 0x00, 0x0E, 0x10, 0x00, 0x00, 0x13, 0xA2, 0x00, 0x40, 0xA1, 0xB2, 0xC3, 0x12, 0x34, 0x00, 0x01,
      0x9D]).map Decoded.content = some (0x10, .ok [0x00, 0x00, 0x13, 0xA2, 0x00, 0x40, 0xA1, 0xB2, 0xC3, 0x12, 0x34, 0x00, 0x01] []) ∧
    decodeFrame {} 0x88 good = some (.ok 0x88 [0x01, 0x42, 0x44, 0x00] []) ∧
    decodeFrame {} 0x8A [0x7E, 0x00, 0x02, 0x8A, 0x06, 0x6F] = some (.ok 0x8A [0x06] []) ∧
    decodeFrame {} 0x8B [0x7E, 0x00, 0x07, 0x8B, 0x01, 0x7D, 0x84, 0x00, 0x00, 0x02, 0x70]
      = some (.ok 0x8B [0x01, 0x7D, 0x84, 0x00, 0x00, 0x02] []) ∧
    (decodeFrame {} 0x90 [0x7E, 0x00, 0x0C, 0x90, 0x00, 0x13, 0xA2, 0x00, 0x40, 0xA1, 0xB2, 0xC3, 0x7D, 0x84, 0x02, 0x61]).map
      Decoded.content = some (0x90, .ok [0x00, 0x13, 0xA2, 0x00, 0x40, 0xA1, 0xB2, 0xC3, 0x7D, 0x84, 0x02] []) ∧
    (decodeFrame {} 0x91 [0x7E, 0x00, 0x13, 0x91, 0x00, 0x13, 0xA2, 0x00, 0x40, 0xA1, 0xB2, 0xC3, 0x7D, 0x84, 0xE8, 0xE8, 0x00,
      0x11, 0xC1, 0x05, 0x01, 0x41, 0x79]).map Decoded.content = some (0x91, .ok [0x00, 0x13, 0xA2, 0x00, 0x40, 0xA1, 0xB2, 0xC3,
      0x7D, 0x84, 0xE8, 0xE8, 0x00, 0x11, 0xC1, 0x05, 0x01] [0x41]) := by decide

/-- The state of the seven frame statements: running, `evt` empty, both types of the encoders accepted. -/
theorem wit_FrameCompletes_state :
    running.core.run = true ∧ running.core.evt = none ∧ running.params.rxAcceptTxTypes = true := by decide

theorem wit_AtCommandFrameCompletes :
    let fixed : List Byte := [0x01, 0x4E, 0x4A]
    let data : List Byte := []
    let s := withBytes [0x7E, 0x00, 0x04, 0x08, 0x01, 0x4E, 0x4A, 0x5E] running
    s.core.run = true ∧ s.core.evt = none ∧ (4 : BitVec 16).toNat = 4 + data.length ∧ 8 ≤ s.core.rxq.length ∧
    s.core.rxq = frameBytes 4 0x08 (fixed ++ data ++ [checksum (0x08 :: (fixed ++ data))]) ++ [] := by decide

theorem wit_TransmitFrameCompletes :
    let fixed : List Byte := [0x00, 0x00, 0x13, 0xA2, 0x00, 0x40, 0xA1, 0xB2, 0xC3, 0x12, 0x34, 0x00, 0x01]
    let data : List Byte := []
    let s := withBytes [0x7E, 0x00, 0x0E, 0x10, 0x00, 0x00, 0x13, 0xA2, 0x00, 0x40, 0xA1, 0xB2, 0xC3, 0x12, 0x34, 0x00, 0x01, 0x9D, 0x7E] running
    s.core.run = true ∧ s.core.evt = none ∧ (14 : BitVec 16).toNat = 14 + data.length ∧ 8 ≤ s.core.rxq.length ∧
    s.core.rxq = frameBytes 14 0x10 (fixed ++ data ++ [checksum (0x10 :: (fixed ++ data))]) ++ [0x7E] := by decide

theorem wit_AtResponseFrameCompletes :
    let fixed : List Byte := [0x01, 0x42, 0x44, 0x00]
    let data : List Byte := [0x68]
    let s := withBytes [0x7E, 0x00, 0x06, 0x88, 0x01, 0x42, 0x44, 0x00, 0x68, 0x88] running
    s.core.run = true ∧ s.core.evt = none ∧ (6 : BitVec 16).toNat = 5 + data.length ∧ 8 ≤ s.core.rxq.length ∧
    s.core.rxq = frameBytes 6 0x88 (fixed ++ data ++ [checksum (0x88 :: (fixed ++ data))]) ++ [] := by decide

theorem wit_ModemStatusFrameCompletes :
    let fixed : List Byte := [0x06]
    let data : List Byte := []
    let s := withBytes [0x7E, 0x00, 0x02, 0x8A, 0x06, 0x6F, 0x00, 0x00] running
    s.core.run = true ∧ s.core.evt = none ∧ (2 : BitVec 16).toNat = 2 + data.length ∧ 8 ≤ s.core.rxq.length ∧
    s.core.rxq = frameBytes 2 0x8A (fixed ++ data ++ [checksum (0x8A :: (fixed ++ data))]) ++ [0x00, 0x00] := by decide

theorem wit_TxStatusFrameCompletes :
    let fixed : List Byte := [0x01, 0x7D, 0x84, 0x00, 0x00, 0x02]
    let data : List Byte := []
    let s := withBytes [0x7E, 0x00, 0x07, 0x8B, 0x01, 0x7D, 0x84, 0x00, 0x00, 0x02, 0x70] running
    s.core.run = true ∧ s.core.evt = none ∧ (7 : BitVec 16).toNat = 7 + data.length ∧ 8 ≤ s.core.rxq.length ∧
    s.core.rxq = frameBytes 7 0x8B (fixed ++ data ++ [checksum (0x8B :: (fixed ++ data))]) ++ [] := by decide

theorem wit_ReceiveFrameCompletes :
    let fixed : List Byte := [0x00, 0x13, 0xA2, 0x00, 0x40, 0xA1, 0xB2, 0xC3, 0x7D, 0x84, 0x02]
    let data : List Byte := [0x52, 0x78]
    let s := withBytes [0x7E, 0x00, 0x0E, 0x90, 0x00, 0x13, 0xA2, 0x00, 0x40, 0xA1, 0xB2, 0xC3, 0x7D, 0x84, 0x02, 0x52, 0x78, 0x97] running
    s.core.run = true ∧ s.core.evt = none ∧ (14 : BitVec 16).toNat = 12 + data.length ∧ 8 ≤ s.core.rxq.length ∧
    s.core.rxq = frameBytes 14 0x90 (fixed ++ data ++ [checksum (0x90 :: (fixed ++ data))]) ++ [] := by decide

theorem wit_ExplicitReceiveFrameCompletes :
    let fixed : List Byte := [0x00, 0x13, 0xA2, 0x00, 0x40, 0xA1, 0xB2, 0xC3, 0x7D, 0x84, 0xE8, 0xE8, 0x00, 0x11, 0xC1, 0x05, 0x01]
    let data : List Byte := [0x41]
    let s := withBytes [0x7E, 0x00, 0x13, 0x91, 0x00, 0x13, 0xA2, 0x00, 0x40, 0xA1, 0xB2, 0xC3, 0x7D, 0x84, 0xE8, 0xE8, 0x00, 0x11, 0xC1, 0x05, 0x01, 0x41, 0x79] running
    s.core.run = true ∧ s.core.evt = none ∧ (19 : BitVec 16).toNat = 18 + data.length ∧ 8 ≤ s.core.rxq.length ∧
    s.core.rxq = frameBytes 19 0x91 (fixed ++ data ++ [checksum (0x91 :: (fixed ++ data))]) ++ [] := by decide

/-- `L = 0`, and `L` one below the minimum. -/
theorem wit_FrameBelowMinimumIsTooShort :
    let s := withBytes [0x7E, 0x00, 0x00, 0x8A, 0x00, 0x00, 0x00, 0x00] running
    let u := withBytes [0x7E, 0x00, 0x04, 0x88, 0x01, 0x42, 0x44, 0xF0] running
    s.core.run = true ∧ s.core.evt = none ∧ registry s.params FrameType.modemStatus.code = some .modemStatus ∧
    ([] : List Byte).length = (0 : BitVec 16).toNat ∧ (0 : BitVec 16).toNat < minLen .modemStatus ∧ 8 ≤ s.core.rxq.length ∧
    s.core.rxq = frameBytes 0 FrameType.modemStatus.code [] ++ [0x00, 0x00, 0x00, 0x00] ∧
    u.core.run = true ∧ u.core.evt = none ∧ registry u.params FrameType.atResponse.code = some .atResponse ∧
    (4 : BitVec 16).toNat < minLen .atResponse ∧ 8 ≤ u.core.rxq.length ∧
    u.core.rxq = frameBytes 4 FrameType.atResponse.code [0x01, 0x42, 0x44, 0xF0] ++ [] := by decide

theorem wit_BadChecksumIsReported :
    let s := withBytes [0x7E, 0x00, 0x05, 0x88, 0x01, 0x42, 0x44, 0x00, 0xF1] running
    s.core.run = true ∧ s.core.evt = none ∧ registry s.params FrameType.atResponse.code = some .atResponse ∧
    (5 : BitVec 16).toNat = ([0x01, 0x42, 0x44, 0x00] : List Byte).length + 1 ∧ minLen .atResponse ≤ (5 : BitVec 16).toNat ∧
    (0xF1 : Byte) ≠ checksum (FrameType.atResponse.code :: [0x01, 0x42, 0x44, 0x00]) ∧ 8 ≤ s.core.rxq.length ∧
    s.core.rxq = frameBytes 5 FrameType.atResponse.code ([0x01, 0x42, 0x44, 0x00] ++ [0xF1]) ++ [] := by decide

theorem wit_OnlyCheckedFramesReachAHandler :
    let s := turnOf .synchronizer ((withBytes good running).withReg [{ key := 0x88, hid := 1 }])
    s.core.evt = none ∧ ∃ t e, step s = .next t ∧ t.core.evt = some e ∧ e.kind = .handler :=
  ⟨by decide, _, _, rfl, rfl, by decide⟩

theorem wit_SeekDiscardsOneByte :
    let s := (withBytes [0x7D, 0x7E, 0x00, 0x02, 0x8A, 0x06, 0x6F, 0x00] running).withEvt (some waiting)
    s.core.run = true ∧ s.core.rxq = 0x7D :: [0x7E, 0x00, 0x02, 0x8A, 0x06, 0x6F, 0x00] ∧ (0x7D : Byte) ≠ 0x7E ∧
    7 ≤ ([0x7E, 0x00, 0x02, 0x8A, 0x06, 0x6F, 0x00] : List Byte).length := by decide

theorem wit_SynchronizerWritesOnlyRxqAndEvt :
    (∃ t, agentTurn .synchronizer (withBytes good running) = .next t ∧ t.core.rxq = []) ∧ running.core.rxq = [] :=
  ⟨⟨_, rfl, by decide⟩, by decide⟩

theorem wit_OverlongCandidateStallsUntilReset :
    let s := turnOf .synchronizer overlong
    rxOverlong s = true ∧ isReset s = false ∧ ∃ t, step s = .next t := ⟨by decide, by decide, _, rfl⟩

/-- Garbage, the start of a frame in `rxq`, its last byte accepted, the frame delivered. -/
def streamRun : State :=
  { offering [] [] [0xF0] (withBytes [0x00, 0x7E, 0x00, 0x05, 0x88, 0x01, 0x42, 0x44, 0x00] running) with
    sched := [.core .synchronizer, .core .rxPort, .core .synchronizer] }

theorem wit_StreamDeterminesSynchronizerActions :
    streamRun.core.rxq.length ≤ streamRun.params.rxbufCap ∧
    (runRecord 3 streamRun).map (fun r => (r.rx, r.sync, r.hadReset)) = some ([0xF0], [.seek, .frame good], false) ∧
    (withBytes [0x7E, 0x00] running).core.run = true ∧ (withBytes [0x7E, 0x00] running).core.evt = none ∧
    enabled .synchronizer (withBytes [0x7E, 0x00] running) = false := by decide

theorem wit_GarbageIsDiscardedAndTheFrameDelivered :
    (∀ b ∈ ([0x13, 0x00, 0xFF, 0x41, 0x55] : List Byte), b ≠ 0x7E) ∧ byteAt good 0 = 0x7E ∧
    good.length = declaredLen good + 4 ∧ wellChecksummed good = true ∧ registry {} (byteAt good 3) = some .atResponse ∧
    minLen .atResponse ≤ declaredLen good ∧ 8 ≤ good.length ∧ good.length ≤ ({ rxbufCap := 9 } : Params).rxbufCap := by decide

theorem wit_CommandUnitAppendsThenAnswers :
    let s := withParams small (State.reset.withCu (.busy [0x7E, 0x00] reply))
    s.core.cu = .busy (0x7E :: [0x00]) reply ∧ (s.withTxq [1, 2]).core.txq.length < (s.withTxq [1, 2]).params.txbufCap ∧
    (s.withTxq [1, 2, 3]).core.txq.length = (s.withTxq [1, 2, 3]).params.txbufCap ∧
    (ready (State.reset.withCu (.busy [] reply))).core.cu = .busy [] reply ∧
    (ready (State.reset.withCu (.busy [] reply))).ports.respReady = true := by decide

theorem wit_FrameReachesTxqWholeWithinItsLength :
    let s : State := { withParams small ((State.reset.withCu (.busy [0x7E, 0x00] reply)).withTxq [1]) with
      sched := [.core .commandUnit, .core .commandUnit, .core .txPort] }
    s.core.cu = .busy [0x7E, 0x00] reply ∧ s.core.txq.length + ([0x7E, 0x00] : List Byte).length ≤ s.params.txbufCap ∧
    s.ports.resetIn = false ∧ s.sched = List.replicate 2 (.core .commandUnit) ++ [.core .txPort] := by decide

/-- A command accepted, its first byte appended and handed over, the event delivered. -/
def txRun : State :=
  { ready ((offering [offered] [] [] running).withEvt (some waiting)) with
    sched := [.core .commandUnit, .core .commandUnit, .core .txPort, .core .eventPort] }

theorem wit_TxStreamGrowsByWholeFrames :
    (runRecord 4 txRun).map (fun r => (r.final.ports.txOut, r.commands, r.hadReset)) = some ([0x7E], [offered], false) ∧
    commandResults 16 1 0 [offered] = [.sent 1 [0x08, 0x01, 0x4E, 0x4A] 2 0] := by decide

theorem wit_EventsAreDeliveredInOrderProduced :
    (runRecord 4 txRun).map (fun r => (r.final.ports.evtOut, r.hadReset)) = some ([waiting], false) := by decide

/-- A reserved opcode and a handler offered; the first is answered and its response delivered, the second is accepted. -/
def respRun : State :=
  { ready (offering [{ header := 0x5, data := [] }, { header := 0x01880001, data := [] }] [] [] State.reset) with
    sched := [.core .commandUnit, .core .commandUnit, .core .commandUnit] }

theorem wit_EveryCommandIsAnsweredOnceInOrder :
    (runRecord 3 respRun).map (fun r => (r.final.ports.respOut, pendingResp r.final.core, r.hadReset))
      = some ([{ status := .badOpcode }], [{ status := .ok }], false) := by decide

theorem wit_BuiltFramesPassChecksOneToThree :
    ((0x8A : Byte) :: []).length ≤ 65535 ∧ ((0x8A : Byte) :: List.replicate 65534 0xFF).length ≤ 65535 ∧
    decodeFrame {} 0x8A (mkframe [0x8A]) = some (.err .frameTooShort 0x8A 1 2) := by
  refine ⟨by decide, ?_, by decide⟩
  rw [List.length_cons, List.length_replicate]

theorem wit_EncodedFramesDecodeToTheSameFields :
    ({} : Params).rxAcceptTxTypes = true ∧ (List.replicate 65521 (0xFF : Byte)).length ≤ 65521 ∧
    (List.replicate 65531 (0xFF : Byte)).length ≤ 65531 := by
  rw [List.length_replicate, List.length_replicate]; decide

theorem wit_EncodeTransmitCompletes :
    State.reset.core.cu = .idle ∧ (List.replicate 65521 (0xFF : Byte)).length ≤ 65521 := by
  rw [List.length_replicate]; decide

theorem wit_EncodeAtCommandCompletes :
    State.reset.core.cu = .idle ∧ (List.replicate 65531 (0xFF : Byte)).length ≤ 65531 := by
  rw [List.length_replicate]; decide

theorem wit_ReservedOpcodesAnswerBadOpcode : (running.withEvt (some waiting)).core.cu = .idle := by decide

theorem wit_ControlBeatsSetAndClearRun :
    let s := State.reset.withPorts { Ports.quiet with transportOk := true }
    s.ports.transportOk = true ∧ s.core.run = false ∧ State.reset.ports.transportOk = false ∧ running.core.run = true := by
  decide

theorem wit_UnsupportedFrameCompletes :
    let s := withBytes [0x7E, 0x00, 0x00, 0xFF, 0x00, 0x00, 0x00, 0x00] running
    let u := withParams { rxAcceptTxTypes := false } (withBytes [0x7E, 0x00, 0x04, 0x08, 0x01, 0x4E, 0x4A, 0x5E] running)
    let v := withParams { rxAcceptTxTypes := false } (withBytes [0x7E, 0x00, 0x04, 0x10, 0x01, 0x4E, 0x4A, 0x00] running)
    s.core.run = true ∧ s.core.evt = none ∧ 8 ≤ s.core.rxq.length ∧ FrameType.ofByte? 0xFF = none ∧
    s.core.rxq = frameBytes 0 0xFF [] ++ [0x00, 0x00, 0x00, 0x00] ∧
    u.core.run = true ∧ u.core.evt = none ∧ u.params.rxAcceptTxTypes = false ∧ 8 ≤ u.core.rxq.length ∧
    u.core.rxq = frameBytes 4 0x08 [0x01, 0x4E, 0x4A, 0x5E] ++ [] ∧
    v.core.run = true ∧ v.core.evt = none ∧ v.params.rxAcceptTxTypes = false ∧ 8 ≤ v.core.rxq.length ∧
    v.core.rxq = frameBytes 4 0x10 [0x01, 0x4E, 0x4A, 0x00] ++ [] := by decide

theorem wit_RouteGivesTheTarget :
    (∀ x ∈ ([{ key := 0x8A, hid := 2 }] : List RegEntry), x.key ≠ 0x88) ∧ supported {} 0x42 = false ∧
    decodeFrame {} 0x88 good = some (.ok 0x88 [0x01, 0x42, 0x44, 0x00] []) := by decide

theorem wit_EncodeErrorsQueueNothing :
    State.reset.core.cu = .idle ∧ (7 : BitVec 4) ≠ 8 ∧ (3 : BitVec 2) ≠ 2 ∧
    65522 ≤ (List.replicate 65522 (0x00 : Byte)).length ∧ 65532 ≤ (List.replicate 65532 (0x00 : Byte)).length := by
  rw [List.length_replicate, List.length_replicate]; decide

theorem wit_HandlerCommandsWriteTheirRegister :
    let s := withParams small State.reset
    let u := s.withReg [{ key := 0x88, hid := 1 }]
    s.core.cu = .idle ∧ s.core.reg.length ≠ s.params.regCap ∧ u.core.cu = .idle ∧ u.core.reg.length = u.params.regCap := by
  decide

theorem wit_PortTurnsMoveOneItem :
    let s := offering [] [] [0x11] (withParams small (withBytes [1, 2, 3, 4, 5, 6, 7] running))
    let u := ready ((running.withTxq [0x7E]).withEvt (some waiting))
    s.core.run = true ∧ s.core.rxq.length < s.params.rxbufCap ∧ s.ports.rxIn = [0x11] ∧
    overlong.core.rxq.length = overlong.params.rxbufCap ∧
    u.core.run = true ∧ u.ports.txReady = true ∧ u.core.txq = 0x7E :: [] ∧ u.core.evt = some waiting ∧
    u.ports.evtReady = true := by decide

/-- A busy unit; a stopped core; a full event register; a partial candidate; another candidate. -/
theorem wit_InstructionsWaitUntilEnabled :
    encode (.encodeAtCommand 2 0x4E4A []) = .command offered.header offered.data ∧
    (State.reset.withCu (.busy [] reply)).core.cu = .busy [] reply ∧
    encode (.frameAtResponse 5 [0x01, 0x42, 0x44, 0x00, 0xF0]) = .frame good ∧
    (withBytes good State.reset).core.run = false ∧ ((withBytes good running).withEvt (some waiting)).core.evt ≠ none ∧
    syncState (good.take 8) ≠ .frameReady ∧
    (withBytes [0x7E, 0x00, 0x02, 0x8A, 0x06, 0x6F, 0x00, 0x00] running).core.rxq.take (2 + 4) ≠ good := by decide

theorem wit_FrameIdAdvancesOnlyWithAnAtFrame :
    let s := turnOf .commandUnit (offering [offered] [] [] State.reset)
    isReset s = false ∧ ∃ t, step s = .next t ∧ t.core.fid ≠ s.core.fid := ⟨by decide, _, rfl, by decide⟩

theorem wit_HandlerRegistersAreNeverCleared :
    let s := turnOf .commandUnit (offering [{ header := 0x00000000000000000000000001880001, data := [] }] [] [] State.reset)
    isReset s = false ∧ ∃ t, step s = .next t ∧ t.core.reg = [{ key := 0x88, hid := 1 }] := ⟨by decide, _, rfl, by decide⟩

theorem wit_ModeChangesOnlyByControlBeatOrReset :
    let s := turnOf .controlPort ((offering [] [1] [] State.reset).withPorts { Ports.quiet with transportOk := true, ctlIn := [1] })
    let u := turnOf .controlPort (offering [] [2] [] running)
    isReset s = false ∧ (∃ t, step s = .next t ∧ t.core.run ≠ s.core.run) ∧
    isReset u = false ∧ (∃ t, step u = .next t ∧ t.core.run ≠ u.core.run) :=
  ⟨by decide, ⟨_, rfl, by decide⟩, by decide, ⟨_, rfl, by decide⟩⟩

/-- A state with full buffers and registry, a pending event and a frame half appended meets the invariants, and steps. -/
theorem wit_EveryStepKeepsTheInvariants :
    let s := turnOf .synchronizer
      { overlong with core := { overlong.core with
          txq := [1, 2, 3], reg := [{ key := 0x88, hid := 1 }], evt := some waiting,
          cu := .busy (mkframe (atCommandBody 1 0x4E4A [])) reply } }
    Inv s ∧ ∃ t, step s = .next t := by
  refine ⟨⟨by decide, by decide, by decide, ?_, ?_⟩, _, rfl⟩
  · exact ⟨_, .inr ⟨1, 0x4E4A, [], by decide, rfl⟩, List.suffix_refl _⟩
  · intro e he
    cases he
    exact ⟨.inr ⟨rfl, rfl⟩, .modemStatus, by decide, by decide, by decide, fun _ => rfl⟩

theorem wit_Status0ShowsTheState :
    (running.withReg (List.replicate 255 { key := 0x88, hid := 1 })).core.reg.length < 256 ∧
    (inReset State.reset).core = CoreState.reset ∧ State.reset.ports.transportOk = false := by
  refine ⟨?_, rfl, rfl⟩
  simp only [State.withReg, List.length_replicate]
  decide

theorem wit_PortRecordsArePackedAsLaidOut :
    let e : Event := { kind := .handler, hid := 2, ftype := 0x91, result := .ok (List.replicate 17 0xFF) [0x41] }
    let f : Event := { kind := .errorDropped, hid := 0, ftype := 0x8A, result := .err .frameTooShort 0 2 }
    e.result = .ok (List.replicate 17 0xFF) [0x41] ∧ (List.replicate 17 (0xFF : Byte)).length ≤ 17 ∧
    ([0x41] : List Byte).length ≤ 65535 ∧ f.result = .err .frameTooShort 0 2 := by decide

theorem wit_ValidSignalsFollowTheRegisters :
    evtValid running = false ∧ rxPortReady overlong = false ∧ txPortValid running = false ∧
    txPortValid (State.reset.withTxq [0x7E]) = false := by decide

theorem wit_StatusWordsAndRegistryPortShowTheState :
    overlong.core.rxq.length ≤ overlong.params.rxbufCap ∧ overlong.core.txq.length ≤ overlong.params.txbufCap ∧
    overlong.params.rxbufCap ≤ 65535 ∧ overlong.params.txbufCap ≤ 65535 ∧ (inReset State.reset).core = CoreState.reset ∧
    (0 : Byte).toNat < (running.withReg [{ key := 0x88, hid := 1 }]).core.reg.length ∧
    (running.withReg [{ key := 0x88, hid := 1 }]).core.reg.length ≤ (1 : Byte).toNat := by decide

end Sys2Proof.Tests
end

section
/-! PROOFS. What every answer of the model has in common: an instruction and a step always answer a next state, and the
parameters stay (00_scope.md R6, 10_state.md R31, 60_exceptions.md R320). -/

namespace Sys2Proof.Machine

/-! Every instruction answers a next state. -/

/-- SYNC_FRAME never refuses: a candidate it is enabled on lies whole in the buffer and in the domain of DECODE. -/
theorem syncFrame_answers_next (ft : Byte) (len : BitVec 16) (rest : List Byte) (s : State) :
    ∃ t, syncFrame ft len rest s = .next t := by
  obtain ⟨-, h⟩ | ⟨-, -, -, _, -, h⟩ := syncFrame_cases ft len rest s
  · exact ⟨_, h⟩
  · exact ⟨_, h⟩

theorem whenIdle_answers_next (f : State → State) (s : State) : ∃ t, whenIdle f s = .next t := by
  cases hcu : s.core.cu with
  | idle => exact ⟨_, whenIdle_of_idle hcu⟩
  | busy rest resp => exact ⟨_, whenIdle_of_busy hcu⟩

theorem execCtlBegin_answers_next (s : State) : ∃ t, execCtlBegin s = .next t := by
  unfold execCtlBegin
  split
  · exact ⟨_, rfl⟩
  · exact ⟨_, rfl⟩

theorem exec_answers_next (i : Instr) (s : State) : ∃ t, exec i s = .next t := by
  cases i
  case frameAtCommand | frameTransmit | frameAtResponse | frameModemStatus | frameTxStatus | frameReceive
      | frameExplicitReceive | frameUnsupported => exact syncFrame_answers_next ..
  case addHandler | setErrorHandler | encodeTransmit | encodeAtCommand => exact whenIdle_answers_next ..
  case reservedOp0 | reservedOp5 | reservedOp6 | reservedOp7 | reservedOp8 | reservedOp9 | reservedOpA | reservedOpB
      | reservedOpC | reservedOpD | reservedOpE | reservedOpF => exact whenIdle_answers_next ..
  case ctlBegin => exact execCtlBegin_answers_next s
  case ctlNop | ctlEnd | ctlReserved3 => exact ⟨_, rfl⟩

/-! Every turn, and so every step, answers a next state. -/

theorem syncTurn_answers_next (s : State) : ∃ t, syncTurn s = .next t := by
  unfold syncTurn
  split
  case h_1 | h_2 | h_3 => exact ⟨_, rfl⟩
  case h_4 =>
    split
    · exact exec_answers_next ..
    · exact ⟨_, rfl⟩

theorem commandTurn_answers_next (s : State) : ∃ t, commandTurn s = .next t := by
  unfold commandTurn
  split
  · exact ⟨_, rfl⟩
  · exact ⟨_, rfl⟩
  · split
    · exact ⟨_, rfl⟩
    · split
      · exact exec_answers_next ..
      · exact ⟨_, rfl⟩

theorem controlTurn_answers_next (s : State) : ∃ t, controlTurn s = .next t := by
  unfold controlTurn
  split
  · exact ⟨_, rfl⟩
  · exact exec_answers_next ..

theorem agentTurn_answers_next (a : Agent) (s : State) : ∃ t, agentTurn a s = .next t := by
  cases a with
  | rxPort => exact ⟨_, rfl⟩
  | synchronizer => exact syncTurn_answers_next s
  | commandUnit => exact commandTurn_answers_next s
  | txPort => exact ⟨_, rfl⟩
  | eventPort => exact ⟨_, rfl⟩
  | controlPort => exact controlTurn_answers_next s

theorem takeTurn_answers_next (turn : Turn) (s : State) : ∃ t, takeTurn turn s = .next t := by
  unfold takeTurn
  split
  · exact ⟨_, rfl⟩
  · split
    · exact ⟨_, rfl⟩
    · exact agentTurn_answers_next ..

theorem step_answers_next (s : State) : ∃ t, step s = .next t := takeTurn_answers_next ..

/-! No answer changes a parameter. -/

@[simp] theorem startFrame_params (frameId : Byte) (body : List Byte) (s : State) :
    (startFrame frameId body s).params = s.params := rfl

theorem AcceptEffect.params_eq {s t : State} (h : AcceptEffect s t) : t.params = s.params := by
  cases h <;> simp

theorem FrameEffect.params_eq {s t : State} (h : FrameEffect s t) : t.params = s.params := by
  cases h; simp

theorem AgentEffect.params_eq {a : Agent} {s t : State} (h : AgentEffect s a t) : t.params = s.params := by
  cases h
  case syncFrame hframe => exact hframe.params_eq
  case cmdAccept haccept => exact haccept.params_eq
  all_goals simp

theorem exec_params_eq {i : Instr} {s t : State} (h : exec i s = .next t) : t.params = s.params := by
  obtain ⟨rfl, -⟩ | ⟨-, hframe⟩ | ⟨-, -, haccept⟩ | ⟨-, -, -, rfl⟩ | ⟨-, rfl⟩ := exec_effect h
  · rfl
  · exact hframe.params_eq
  · exact haccept.params_eq
  · simp
  · simp

theorem step_params_eq {s t : State} (h : step s = .next t) : t.params = s.params := by
  obtain ⟨u, -, -, -, hu, ⟨_, -, -, rfl⟩ | ⟨_, -, -, -, rfl⟩ | ⟨_, -, -, -, hagent⟩⟩ := step_effect h
  · simpa using hu
  · simpa [resetCore] using hu
  · exact hagent.params_eq.trans hu

/-- Settles O49: the model's refusals are never answered, and the effect of every instruction and step keeps the
parameters. -/
theorem noStepStops : Obligations.NoStepStops := by
  refine ⟨fun i s => ?_, fun s => ?_⟩
  · obtain ⟨t, ht⟩ := exec_answers_next i s
    exact ⟨t, ht, exec_params_eq ht⟩
  · obtain ⟨t, ht⟩ := step_answers_next s
    exact ⟨t, ht, step_params_eq ht⟩

end Sys2Proof.Machine
end

section
/-! PROOFS. The state after reset (70_reset_and_hazards.md R360, R361) and the legal parameters (00_scope.md R6). -/

namespace Sys2Proof

theorem Params.legal_iff (p : Params) :
    p.legal = true ↔ 8 ≤ p.rxbufCap ∧ p.rxbufCap ≤ 65535 ∧ 1 ≤ p.txbufCap ∧ p.txbufCap ≤ 65535 ∧
      1 ≤ p.regCap ∧ p.regCap ≤ 255 := by
  simp only [Params.legal, Bool.and_eq_true, decide_eq_true_eq, and_assoc]

end Sys2Proof

namespace Sys2Proof.Machine

@[simp] theorem resetCore_core (s : State) : (resetCore s).core = CoreState.reset := rfl

/-- The reset record meets the invariants whatever the capacities are: its queues and registry are empty, its unit is idle
and no event is pending. -/
theorem inv_of_core_eq_reset {s : State} (h : s.core = CoreState.reset) : Inv s where
  rxq_le := by simp [h, CoreState.reset]
  txq_le := by simp [h, CoreState.reset]
  reg_le := by simp [h, CoreState.reset]
  cu_ok := by simp [h, CoreState.reset, CmdUnitOk]
  evt_ok := by simp [h, CoreState.reset]

/-- Settles O54: the state after reset and RESET's answer both hold the reset record. -/
theorem resetMeetsTheInvariants : Obligations.ResetMeetsTheInvariants := by
  have hdefault : State.reset.params.legal = true := by decide
  exact ⟨inv_of_core_eq_reset rfl, fun s => inv_of_core_eq_reset (resetCore_core s), rfl, hdefault, Params.legal_iff⟩

end Sys2Proof.Machine
end

section
/-! PROOFS. What STATUS1 and the registry read port show (10_state.md R44, R45). -/

namespace Sys2Proof.Machine

/-- Bits [15:0] of STATUS1. -/
theorem status1_rxq_field (s : State) : (status1 s).extractLsb' 0 16 = BitVec.ofNat 16 s.core.rxq.length :=
  BitVec.extractLsb'_append_eq_right

/-- Bits [31:16] of STATUS1. -/
theorem status1_txq_field (s : State) : (status1 s).extractLsb' 16 16 = BitVec.ofNat 16 s.core.txq.length :=
  BitVec.extractLsb'_append_eq_left

theorem status1_of_core_eq_reset {s : State} (h : s.core = CoreState.reset) : status1 s = 0 := by
  simp [status1, h, CoreState.reset]

theorem registryRead_of_lt {s : State} {i : Byte} (h : i.toNat < s.core.reg.length) :
    registryRead s i = { valid := true, key := s.core.reg[i.toNat].key, hid := s.core.reg[i.toNat].hid } := by
  simp [registryRead, h]

theorem registryRead_of_length_le {s : State} {i : Byte} (h : s.core.reg.length ≤ i.toNat) :
    registryRead s i = { valid := false, key := 0, hid := 0 } := by
  simp [registryRead, h]

/-- Settles O58: a count within a capacity of at most 65535 fits its 16-bit field, and the read port follows the list of
entries. -/
theorem statusWordsAndRegistryPortShowTheState : Obligations.StatusWordsAndRegistryPortShowTheState := by
  refine ⟨fun s hrx htx hrxCap htxCap => ⟨?_, ?_⟩, fun _ => status1_of_core_eq_reset, fun _ _ =>
    ⟨registryRead_of_lt, registryRead_of_length_le⟩⟩
  · rw [status1_rxq_field, BitVec.toNat_ofNat, Nat.mod_eq_of_lt (by omega)]
  · rw [status1_txq_field, BitVec.toNat_ofNat, Nat.mod_eq_of_lt (by omega)]

end Sys2Proof.Machine
end

section
/-! PROOFS. Every step keeps the capacity bounds, the encoder suffix and the form of the pending event (10_state.md R46,
60_exceptions.md R325): one rule for each write of the record, then one for each effect. -/

namespace Sys2Proof.Machine

/-! What each write of the record asks for to keep the invariants. -/

/-- The invariants speak of the record and the parameters alone. -/
theorem Inv.of_core_eq {s t : State} (h : Inv s) (hcore : t.core = s.core) (hparams : t.params = s.params) : Inv t where
  rxq_le := by rw [hcore, hparams]; exact h.rxq_le
  txq_le := by rw [hcore, hparams]; exact h.txq_le
  reg_le := by rw [hcore, hparams]; exact h.reg_le
  cu_ok := by rw [hcore]; exact h.cu_ok
  evt_ok := by rw [hcore, hparams]; exact h.evt_ok

theorem Inv.withPorts {s : State} (h : Inv s) (p : Ports) : Inv (s.withPorts p) := h.of_core_eq rfl rfl

theorem Inv.withRun {s : State} (h : Inv s) (v : Bool) : Inv (s.withRun v) := { h with }

theorem Inv.withFid {s : State} (h : Inv s) (v : Byte) : Inv (s.withFid v) := { h with }

theorem Inv.withErrh {s : State} (h : Inv s) (v : Option Byte) : Inv (s.withErrh v) := { h with }

theorem Inv.withRxq {s : State} (h : Inv s) {q : List Byte} (hq : q.length ≤ s.params.rxbufCap) : Inv (s.withRxq q) :=
  { h with rxq_le := hq }

/-- Consuming from the inbound buffer never overfills it. -/
theorem Inv.withRxq_drop {s : State} (h : Inv s) (n : Nat) : Inv (s.withRxq (s.core.rxq.drop n)) :=
  h.withRxq ((List.drop_sublist n _).length_le.trans h.rxq_le)

theorem Inv.withTxq {s : State} (h : Inv s) {q : List Byte} (hq : q.length ≤ s.params.txbufCap) : Inv (s.withTxq q) :=
  { h with txq_le := hq }

theorem Inv.withReg {s : State} (h : Inv s) {r : List RegEntry} (hr : r.length ≤ s.params.regCap) : Inv (s.withReg r) :=
  { h with reg_le := hr }

theorem Inv.withCu {s : State} (h : Inv s) {u : CmdUnit} (hu : CmdUnitOk u) : Inv (s.withCu u) :=
  { h with cu_ok := hu }

theorem Inv.withEvt_none {s : State} (h : Inv s) : Inv (s.withEvt none) :=
  { h with evt_ok := fun _ he => by simp at he }

theorem Inv.withEvt_some {s : State} (h : Inv s) {e : Event} (he : EventOk s.params e) : Inv (s.withEvt (some e)) :=
  { h with evt_ok := fun e' he' => by cases he'; exact he }

/-! The command unit. -/

theorem encoderFrame_transmit (a16v : BitVec 1) (options : Byte) (w16 : BitVec 16) (addr64 : BitVec 64)
    {payload : List Byte} (h : 14 + payload.length ≤ 65535) :
    EncoderFrame (mkframe (transmitBody a16v options w16 addr64 payload)) :=
  .inl ⟨a16v, options, w16, addr64, payload, h, rfl⟩

theorem encoderFrame_atCommand (frameId : Byte) (w16 : BitVec 16) {param : List Byte} (h : 4 + param.length ≤ 65535) :
    EncoderFrame (mkframe (atCommandBody frameId w16 param)) :=
  .inr ⟨frameId, w16, param, h, rfl⟩

/-- A unit that has only its response left to hand over: nothing is a suffix of every frame. -/
theorem cmdUnitOk_busy_nil (resp : Response) : CmdUnitOk (.busy [] resp) :=
  ⟨_, encoderFrame_atCommand 0 0 (param := []) (by decide), List.nil_suffix⟩

theorem cmdUnitOk_busy_tail {b : Byte} {rest : List Byte} {resp : Response} (h : CmdUnitOk (.busy (b :: rest) resp)) :
    CmdUnitOk (.busy rest resp) := by
  obtain ⟨f, hf, hsuffix⟩ := h
  exact ⟨f, hf, (List.suffix_cons b rest).trans hsuffix⟩

theorem Inv.startFrame {s : State} (h : Inv s) (frameId : Byte) {body : List Byte} (hf : EncoderFrame (mkframe body)) :
    Inv (startFrame frameId body s) :=
  h.withCu ⟨_, hf, List.suffix_refl _⟩

/-! The event of a candidate. -/

/-- A candidate's length agrees with its declared length, so checks 1 and 2 of DECODE pass and its errors are those of
checks 3 and 4 (42_decoder.md R175). -/
theorem decodeAs_eq_err {t : FrameType} {ft ft' : Byte} {raw : List Byte} {code : ErrCode} {a b : BitVec 16}
    (htype : byteAt raw 3 = ft) (hlen : declaredLen raw = raw.length - 4) (h : decodeAs t ft raw = .err code ft' a b) :
    code = .frameTooShort ∨ code = .checksumError := by
  unfold decodeAs at h
  simp only [if_neg (not_not.mpr htype), if_neg (not_not.mpr hlen)] at h
  split at h
  · cases h; exact .inl rfl
  · split at h
    · cases h; exact .inr rfl
    · cases h

/-- The span lengths of an `Ok` result (42_decoder.md R165). -/
theorem length_of_decodeAs_eq_ok {t : FrameType} {ft ft' : Byte} {raw fixed data : List Byte}
    (h : decodeAs t ft raw = .ok ft' fixed data) :
    fixed.length = nfix t ∧ data.length ≤ 65535 ∧ (hasPayload t = false → data = []) := by
  obtain ⟨-, -, hlen, hmin, -, rfl, rfl⟩ := decodeAs_eq_ok h
  have hdecl := declaredLen_lt raw
  have hpos : 1 ≤ minLen t := by cases t <;> decide
  refine ⟨?_, ?_, fun hp => by simp [hp]⟩
  · rw [length_slice, nfix]; omega
  · split
    · rw [length_slice]; omega
    · simp

/-- An `Ok` result names a supported type and has its spans. -/
theorem decodeFrame_eq_ok {p : Params} {ft ft' : Byte} {raw fixed data : List Byte}
    (h : decodeFrame p ft raw = some (.ok ft' fixed data)) :
    ∃ t, registry p ft' = some t ∧ fixed.length = nfix t ∧ data.length ≤ 65535 ∧ (hasPayload t = false → data = []) := by
  obtain ⟨-, ⟨-, herr⟩ | ⟨t, hreg, hok⟩⟩ := decodeFrame_eq_some h
  · cases herr
  · obtain ⟨rfl, -⟩ := decodeAs_eq_ok hok.symm
    exact ⟨t, hreg, length_of_decodeAs_eq_ok hok.symm⟩

/-- The three errors that occur on the stream (42_decoder.md R175). -/
theorem decodeFrame_candidate_eq_err {p : Params} {ft ft' : Byte} {len : BitVec 16} {rest : List Byte} {code : ErrCode}
    {a b : BitVec 16} (hlen : rest.length = len.toNat)
    (h : decodeFrame p ft (frameBytes len ft rest) = some (.err code ft' a b)) :
    code = .unsupportedFrameType ∨ code = .frameTooShort ∨ code = .checksumError := by
  obtain ⟨-, ⟨-, herr⟩ | ⟨t, -, herr⟩⟩ := decodeFrame_eq_some h
  · cases herr; exact .inl rfl
  · exact .inr (decodeAs_eq_err rfl (by simp [hlen]) herr.symm)

/-- The event the synchronizer writes for a candidate, whatever is registered. -/
theorem eventOk_route {p : Params} {ft : Byte} {len : BitVec 16} {rest : List Byte} {res : Decoded}
    (hlen : rest.length = len.toNat) (hres : decodeFrame p ft (frameBytes len ft rest) = some res) (reg : List RegEntry)
    (errh : Option Byte) : EventOk p (route res reg errh) := by
  obtain ⟨t, fixed, data, rfl, ⟨e, -, -, hroute⟩ | ⟨-, hroute⟩⟩ | ⟨code, t, a, b, rfl, ⟨h, -, hroute⟩ | ⟨-, hroute⟩⟩ :=
    route_cases res reg errh
  · rw [hroute]; exact ⟨.inl rfl, decodeFrame_eq_ok hres⟩
  · rw [hroute]; exact ⟨.inr ⟨rfl, rfl⟩, decodeFrame_eq_ok hres⟩
  · rw [hroute]; exact ⟨decodeFrame_candidate_eq_err hlen hres, .inl rfl⟩
  · rw [hroute]; exact ⟨decodeFrame_candidate_eq_err hlen hres, .inr ⟨rfl, rfl⟩⟩

/-! What each effect keeps. -/

theorem AcceptEffect.inv {s t : State} (h : AcceptEffect s t) (hs : Inv s) : Inv t := by
  cases h with
  | answer status => exact hs.withCu (cmdUnitOk_busy_nil _)
  | addHandler e hfull =>
    have hroom : (s.core.reg ++ [e]).length ≤ s.params.regCap := by
      have := hs.reg_le
      rw [List.length_append, List.length_singleton]
      omega
    exact (hs.withReg hroom).withCu (cmdUnitOk_busy_nil _)
  | setErrorHandler hid => exact (hs.withErrh _).withCu (cmdUnitOk_busy_nil _)
  | transmit a16v options w16 addr64 payload hlen =>
    exact hs.startFrame _ (encoderFrame_transmit a16v options w16 addr64 hlen)
  | atCommand w16 param hlen => exact (hs.withFid _).startFrame _ (encoderFrame_atCommand _ w16 hlen)

theorem FrameEffect.inv {s t : State} (h : FrameEffect s t) (hs : Inv s) : Inv t := by
  obtain ⟨ft, len, rest, res, -, hlen, -, hres⟩ := h
  exact (hs.withRxq_drop _).withEvt_some (eventOk_route hlen hres _ _)

theorem AgentEffect.inv {a : Agent} {s t : State} (h : AgentEffect s a t) (hs : Inv s) : Inv t := by
  cases h with
  | wait a hidle => exact hs
  | rxAccept b bs hrun hroom hoffered => exact (hs.withRxq (by simpa using hroom)).withPorts _
  | syncSeek hrun hseek => exact hs.withRxq_drop 1
  | syncFrame t hframe => exact hframe.inv hs
  | txEmit x q hrun hready hqueued =>
    have hshorter : q.length ≤ s.params.txbufCap := by
      have := hs.txq_le
      rw [hqueued, List.length_cons] at this
      omega
    exact (hs.withTxq hshorter).withPorts _
  | evtTake e hready hpending => exact hs.withEvt_none.withPorts _
  | cmdAccept c cs t hidle hoffered hwhole hexec haccept => exact haccept.inv (hs.withPorts _)
  | cmdAppend b rest resp hbusy hroom =>
    exact (hs.withTxq (by simpa using hroom)).withCu (cmdUnitOk_busy_tail (hbusy ▸ hs.cu_ok))
  | respTake resp hbusy hready => exact (hs.withCu (u := .idle) trivial).withPorts _
  | ctlNone op ops hoffered => exact hs.withPorts _
  | ctlBegin ops hoffered hok hstopped => exact (hs.withPorts _).withRun _
  | ctlEnd ops hoffered => exact (hs.withPorts _).withRun _

/-- Settles O53: a turn of the world outside leaves the record, RESET writes the reset record, and each agent's effect keeps
the invariants. -/
theorem everyStepKeepsTheInvariants : Obligations.EveryStepKeepsTheInvariants := by
  intro s t hs h
  obtain ⟨u, -, hcore, -, hparams, ⟨o, -, -, rfl⟩ | ⟨a, -, -, -, rfl⟩ | ⟨a, -, -, -, hagent⟩⟩ := step_effect h
  · exact (hs.of_core_eq hcore hparams).withPorts _
  · exact inv_of_core_eq_reset (resetCore_core u)
  · exact hagent.inv (hs.of_core_eq hcore hparams)

end Sys2Proof.Machine
end

section
/-! PROOFS. What a step other than RESET can write of the frame-id counter, the handler registers and the mode (10_state.md R34 to
R37): each is written by one command or control beat, and by nothing else. -/

namespace Sys2Proof.Machine

/-- A step that is not RESET leaves the record, or is the turn of an agent. -/
theorem step_core_eq_or_agent {s t : State} (h : step s = .next t) (hr : isReset s = false) :
    t.core = s.core ∨
      ∃ u a, u.core = s.core ∧ u.ports = s.ports ∧ u.params = s.params ∧ (nextTurn s).1 = .core a ∧ AgentEffect u a t := by
  obtain ⟨u, -, hcore, hports, hparams, ⟨o, -, -, rfl⟩ | ⟨a, -, -, hr', -⟩ | ⟨a, hturn, -, -, hagent⟩⟩ := step_effect h
  · exact .inl hcore
  · rw [hr] at hr'; cases hr'
  · exact .inr ⟨u, a, hcore, hports, hparams, hturn, hagent⟩

/-! Of the agents, the command unit alone writes the counter and the handler registers, by accepting a command. -/

/-- The elements of the record that only a command writes. -/
def SameRegisters (s t : State) : Prop :=
  t.core.fid = s.core.fid ∧ t.core.reg = s.core.reg ∧ t.core.errh = s.core.errh

/-- An agent's turn leaves the counter and the handler registers, or accepts a command on an idle unit. -/
theorem AgentEffect.sameRegisters_or_accept {a : Agent} {s t : State} (h : AgentEffect s a t) :
    SameRegisters s t ∨ s.core.cu = .idle ∧ ∃ p, AcceptEffect (s.withPorts p) t := by
  cases h
  case cmdAccept c cs hidle hoffered hwhole hexec haccept => exact .inr ⟨hidle, _, haccept⟩
  case syncFrame hframe => cases hframe; exact .inl ⟨rfl, rfl, rfl⟩
  all_goals exact .inl ⟨rfl, rfl, rfl⟩

/-- A step that is not RESET leaves the counter and the handler registers, or accepts a command on an idle unit. -/
theorem step_sameRegisters_or_accept {s t : State} (h : step s = .next t) (hr : isReset s = false) :
    SameRegisters s t ∨
      s.core.cu = .idle ∧ ∃ u, u.core = s.core ∧ u.params = s.params ∧ AcceptEffect u t := by
  obtain hsame | ⟨u, a, hcore, -, hparams, -, hagent⟩ := step_core_eq_or_agent h hr
  · exact .inl (by simp only [SameRegisters, hsame, and_self])
  · obtain hsame | ⟨hidle, p, haccept⟩ := hagent.sameRegisters_or_accept
    · exact .inl (by simpa only [SameRegisters, hcore] using hsame)
    · exact .inr ⟨hcore ▸ hidle, u.withPorts p, hcore, hparams, haccept⟩

/-- Accepting a command leaves the counter, or advances it and starts the AtCommand frame with its old value
(43_encoder.md R211, R212). -/
theorem AcceptEffect.fid_cases {s t : State} (h : AcceptEffect s t) :
    t.core.fid = s.core.fid ∨
      t.core.fid = s.core.fid + 1 ∧ ∃ (w16 : BitVec 16) (param : List Byte), 4 + param.length ≤ 65535 ∧
        t.core.cu = .busy (mkframe (atCommandBody s.core.fid w16 param))
          (okEncodeResponse s.core.fid (atCommandBody s.core.fid w16 param)) := by
  cases h
  case atCommand w16 param hlen => exact .inr ⟨rfl, w16, param, hlen, rfl⟩
  all_goals exact .inl rfl

/-- Accepting a command leaves the registry, or appends one entry to one that is not full (45_dispatch_engine.md R286). -/
theorem AcceptEffect.reg_cases {s t : State} (h : AcceptEffect s t) :
    t.core.reg = s.core.reg ∨ ∃ e : RegEntry, t.core.reg = s.core.reg ++ [e] ∧ s.core.reg.length ≠ s.params.regCap := by
  cases h
  case addHandler e hroom => exact .inr ⟨e, rfl, hroom⟩
  all_goals exact .inl rfl

/-- Accepting a command leaves the error slot, or sets it (45_dispatch_engine.md R287). -/
theorem AcceptEffect.errh_cases {s t : State} (h : AcceptEffect s t) :
    t.core.errh = s.core.errh ∨ ∃ hid : Byte, t.core.errh = some hid := by
  cases h
  case setErrorHandler hid => exact .inr ⟨hid, rfl⟩
  all_goals exact .inl rfl

/-- Settles O50: the counter is written by no step but the acceptance of an AT command. -/
theorem frameIdAdvancesOnlyWithAnAtFrame : Obligations.FrameIdAdvancesOnlyWithAnAtFrame := by
  intro s t h hr hfid
  obtain ⟨hsame, -⟩ | ⟨hidle, u, hcore, -, haccept⟩ := step_sameRegisters_or_accept h hr
  · exact absurd hsame hfid
  · have hcases := haccept.fid_cases
    rw [hcore] at hcases
    obtain hsame | ⟨hnext, w16, param, hlen, hcu⟩ := hcases
    · exact absurd hsame hfid
    · exact ⟨hidle, hnext, w16, param, _, hlen, hcu, rfl⟩

/-- Settles O51: the registry and the error slot are written by no step but the acceptance of a handler command. -/
theorem handlerRegistersAreNeverCleared : Obligations.HandlerRegistersAreNeverCleared := by
  intro s t h hr
  obtain ⟨-, hreg, herrh⟩ | ⟨-, u, hcore, hparams, haccept⟩ := step_sameRegisters_or_accept h hr
  · exact ⟨.inl hreg, .inl herrh⟩
  · rw [← hcore, ← hparams]
    exact ⟨haccept.reg_cases, haccept.errh_cases⟩

/-! Of the agents, the control port alone writes the mode. -/

theorem AcceptEffect.run_eq {s t : State} (h : AcceptEffect s t) : t.core.run = s.core.run := by cases h <;> rfl

/-- An agent's turn leaves the mode, or is the control port's and takes BEGIN or END (45_dispatch_engine.md R284, R285). -/
theorem AgentEffect.run_cases {a : Agent} {s t : State} (h : AgentEffect s a t) :
    t.core.run = s.core.run ∨
      a = .controlPort ∧ t.core = { s.core with run := t.core.run } ∧
        ((t.core.run = true ∧ s.ports.transportOk = true ∧ ∃ ops, s.ports.ctlIn = 1 :: ops) ∨
         (t.core.run = false ∧ ∃ ops, s.ports.ctlIn = 2 :: ops)) := by
  cases h
  case ctlBegin ops hoffered hok hstopped => exact .inr ⟨rfl, rfl, .inl ⟨rfl, hok, ops, hoffered⟩⟩
  case ctlEnd ops hoffered => exact .inr ⟨rfl, rfl, .inr ⟨rfl, ops, hoffered⟩⟩
  case cmdAccept c cs hidle hoffered hwhole hexec haccept => exact .inl haccept.run_eq
  case syncFrame hframe => cases hframe; exact .inl rfl
  all_goals exact .inl rfl

/-- Settles O52: the mode is written by no step but the control port's taking of BEGIN or END. -/
theorem modeChangesOnlyByControlBeatOrReset : Obligations.ModeChangesOnlyByControlBeatOrReset := by
  intro s t h hr hrun
  obtain hsame | ⟨u, a, hcore, hports, -, hturn, hagent⟩ := step_core_eq_or_agent h hr
  · exact absurd (congrArg CoreState.run hsame) hrun
  · have hcases := hagent.run_cases
    rw [hcore, hports] at hcases
    obtain hsame | ⟨rfl, honly, hbeat⟩ := hcases
    · exact absurd hsame hrun
    · exact ⟨hturn, honly, hbeat⟩

end Sys2Proof.Machine
end

section
/-! PROOFS. The fields of STATUS0 (10_state.md R43). -/

namespace Sys2Proof.Machine

/-- The overlong bit, with the declared length read from its two bytes (44_synchronizer.md R248). -/
theorem rxOverlong_eq (s : State) :
    rxOverlong s = decide (syncState s.core.rxq = .awaitingFullFrame ∧
      be16 (byteAt s.core.rxq 1) (byteAt s.core.rxq 2) + 4 > s.params.rxbufCap) :=
  (Bool.decide_and _ _).symm

theorem cmdBusy_eq (s : State) : cmdBusy s = decide (s.core.cu ≠ .idle) := by
  unfold cmdBusy
  cases s.core.cu <;> simp

/-- The fields of a word laid out as STATUS0 is, from bit 0 up: once the fields below it are dropped, a field is the low end of
what is left. -/
theorem extractLsb'_status_layout (errid count fid : Byte) (sync : BitVec 2) (overlong busy evt errh ok run : BitVec 1) :
    let word := errid ++ count ++ fid ++ sync ++ overlong ++ busy ++ evt ++ errh ++ ok ++ run
    word.extractLsb' 0 1 = run ∧ word.extractLsb' 1 1 = ok ∧ word.extractLsb' 2 1 = errh ∧ word.extractLsb' 3 1 = evt ∧
    word.extractLsb' 4 1 = busy ∧ word.extractLsb' 5 1 = overlong ∧ word.extractLsb' 6 2 = sync ∧
    word.extractLsb' 8 8 = fid ∧ word.extractLsb' 16 8 = count ∧ word.extractLsb' 24 8 = errid := by
  intro word
  refine ⟨?_, ?_, ?_, ?_, ?_, ?_, ?_, ?_, ?_, ?_⟩
  all_goals repeat rw [BitVec.extractLsb'_append_eq_of_le (by decide)]
  case refine_10 => exact BitVec.extractLsb'_eq_self
  all_goals exact BitVec.extractLsb'_append_eq_right

/-- Each field of STATUS0 stands at its bits. -/
theorem status0_fields (s : State) :
    (status0 s).extractLsb' 0 1 = bit s.core.run ∧
    (status0 s).extractLsb' 1 1 = bit s.ports.transportOk ∧
    (status0 s).extractLsb' 2 1 = bit s.core.errh.isSome ∧
    (status0 s).extractLsb' 3 1 = bit s.core.evt.isSome ∧
    (status0 s).extractLsb' 4 1 = bit (cmdBusy s) ∧
    (status0 s).extractLsb' 5 1 = bit (rxOverlong s) ∧
    (status0 s).extractLsb' 6 2 = (syncState s.core.rxq).code ∧
    (status0 s).extractLsb' 8 8 = s.core.fid ∧
    (status0 s).extractLsb' 16 8 = BitVec.ofNat 8 s.core.reg.length ∧
    (status0 s).extractLsb' 24 8 = s.core.errh.getD 0 :=
  extractLsb'_status_layout ..

/-- STATUS0 right after RESET: FID_RESET in its field, and `transport_ok`, which RESET does not write (10_state.md R43). -/
theorem status0_of_core_eq_reset {s : State} (h : s.core = CoreState.reset) :
    status0 s = 0x00000100 ||| (bit s.ports.transportOk).setWidth 32 <<< 1 := by
  have hover : rxOverlong s = false := by simp [rxOverlong, h, CoreState.reset, syncState, syncMinAvail]
  have hbusy : cmdBusy s = false := by simp [cmdBusy, h, CoreState.reset]
  simp only [status0, hover, hbusy, h]
  cases s.ports.transportOk <;> decide

/-- Settles O55: each field stands at its bits, and a count below 256 fits its 8-bit field. -/
theorem status0ShowsTheState : Obligations.Status0ShowsTheState := by
  refine ⟨fun s => ?_, fun s v hcore hv => ?_⟩
  · obtain ⟨hrun, hok, herrh, hevt, hbusy, hover, hsync, hfid, hcount, hid⟩ := status0_fields s
    refine ⟨hrun, hok, ?_, ?_, ?_, ?_, ?_, hfid, fun hlt => ?_, hid⟩
    · rw [herrh, bit]; cases s.core.errh <;> simp
    · rw [hevt, bit]; cases s.core.evt <;> simp
    · rw [hbusy, bit, cmdBusy_eq]
    · rw [hover, bit, rxOverlong_eq]
    · rw [hsync]; cases syncState s.core.rxq <;> rfl
    · rw [hcount, BitVec.toNat_ofNat, Nat.mod_eq_of_lt hlt]
  · rw [status0_of_core_eq_reset hcore, hv]
    cases v <;> decide

end Sys2Proof.Machine
end

section
/-! PROOFS. The turns of the world outside (10_state.md R31, 45_dispatch_engine.md R282). -/

namespace Sys2Proof.Machine

theorem step_of_outside_turn {s : State} {o : Outside} (h : (nextTurn s).1 = .outside o) :
    step s = .next ((nextTurn s).2.withPorts (applyOutside o s.ports)) := by
  rw [step, h, takeTurn, nextTurn_ports]

/-- A data beat with no command offered is nothing (log entry 22). -/
theorem applyOutside_offerData_of_nil {p : Ports} (b : Byte) (h : p.cmdIn = []) : applyOutside (.offerData b) p = p := by
  cases p
  cases h
  rfl

/-- A data beat goes to the command offered last, complete or not (log entry 24). -/
theorem applyOutside_offerData_of_append {p : Ports} (b : Byte) {cs : List Command} {c : Command}
    (h : p.cmdIn = cs ++ [c]) :
    applyOutside (.offerData b) p = { p with cmdIn := cs ++ [{ header := c.header, data := c.data ++ [b] }] } := by
  simp only [applyOutside, h, addBeat_append_singleton]

/-- Settles O11: such a turn replaces the ports by what `applyOutside` makes of them. -/
theorem outsideTurnsMoveInputsOnly : Obligations.OutsideTurnsMoveInputsOnly := by
  intro s o h
  refine ⟨_, step_of_outside_turn h, rfl, nextTurn_core s, nextTurn_params s, ?_⟩
  cases o with
  | offerData b => exact ⟨applyOutside_offerData_of_nil b, fun cs c => applyOutside_offerData_of_append b⟩
  | offerByte | offerHeader | offerControl => rfl
  | driveTransportOk | driveReset | driveTxReady | driveEvtReady | driveRespReady => rfl

end Sys2Proof.Machine
end

section
/-! PROOFS. The commands that write the frame-id counter and the handler registers, accepted on an idle unit (43_encoder.md R210,
45_dispatch_engine.md R286, R287). -/

namespace Sys2Proof.Machine

theorem hi8_ofNat (n : Nat) : hi8 (BitVec.ofNat 16 n) = BitVec.ofNat 8 (n / 256) := by
  apply BitVec.eq_of_toNat_eq
  rw [toNat_hi8, BitVec.toNat_ofNat, BitVec.toNat_ofNat]
  omega

theorem lo8_ofNat (n : Nat) : lo8 (BitVec.ofNat 16 n) = BitVec.ofNat 8 n := by
  apply BitVec.eq_of_toNat_eq
  rw [toNat_lo8, BitVec.toNat_ofNat, BitVec.toNat_ofNat]
  omega

/-- A built frame byte by byte: delimiter, big-endian length, body, checksum (43_encoder.md R201). -/
theorem mkframe_eq (body : List Byte) :
    mkframe body =
      [0x7E, BitVec.ofNat 8 (body.length / 256), BitVec.ofNat 8 body.length] ++ body ++ [checksum body] := by
  rw [mkframe, hi8_ofNat, lo8_ofNat]
  rfl

/-- Starting a frame writes the unit alone: the frame's bytes, and the response with its `L` and checksum
(43_encoder.md R200). -/
theorem startFrame_eq (frameId : Byte) (body : List Byte) (s : State) :
    startFrame frameId body s =
      s.withCu (.busy
        ([0x7E, BitVec.ofNat 8 (body.length / 256), BitVec.ofNat 8 body.length] ++ body ++ [checksum body])
        { status := .ok, rfid := frameId, rlen := BitVec.ofNat 16 body.length, rchk := checksum body }) := by
  rw [startFrame, ← mkframe_eq, ← okEncodeResponse_rchk frameId body]
  rfl

theorem encodeAtCommandEffect_of_fits (w16 : BitVec 16) {param : List Byte} (h : 4 + param.length ≤ 65535) (s : State) :
    encodeAtCommandEffect 2 w16 param s =
      startFrame s.core.fid (atCommandBody s.core.fid w16 param) (s.withFid (s.core.fid + 1)) := by
  rw [encodeAtCommandEffect, if_neg (by decide), if_neg (by omega)]

/-- The counter's successor, FF being followed by 00 (43_encoder.md R212). -/
theorem fid_add_one (v : Byte) : v + 1 = BitVec.ofNat 8 ((v.toNat + 1) % 256) := by
  apply BitVec.eq_of_toNat_eq
  rw [BitVec.toNat_add, BitVec.toNat_ofNat]
  simp

/-- Settles O40: the effect on an idle unit, its frame written out. -/
theorem encodeAtCommandCompletes : Obligations.EncodeAtCommandCompletes := by
  intro s w16 param body hidle hlen hbody
  have hbody' : atCommandBody s.core.fid w16 param = body := hbody.symm
  have hexec : exec (.encodeAtCommand 2 w16 param) s = .next (encodeAtCommandEffect 2 w16 param s) :=
    whenIdle_of_idle hidle
  rw [hexec, encodeAtCommandEffect_of_fits w16 (by omega), hbody', startFrame_eq, fid_add_one]
  rfl

theorem addHandlerEffect_of_room (key hid : Byte) {s : State} (h : s.core.reg.length ≠ s.params.regCap) :
    addHandlerEffect key hid s = answer .ok (s.withReg (s.core.reg ++ [{ key := key, hid := hid }])) := if_neg h

theorem addHandlerEffect_of_full (key hid : Byte) {s : State} (h : s.core.reg.length = s.params.regCap) :
    addHandlerEffect key hid s = answer .registryFull s := if_pos h

/-- Settles O46: the effects on an idle unit. -/
theorem handlerCommandsWriteTheirRegister : Obligations.HandlerCommandsWriteTheirRegister := by
  intro s key hid data hidle
  have hadd : exec (.addHandler key hid data) s = .next (addHandlerEffect key hid s) := whenIdle_of_idle hidle
  have hset : exec (.setErrorHandler hid data) s = .next (setErrorHandlerEffect hid s) := whenIdle_of_idle hidle
  refine ⟨fun hroom => ?_, fun hfull => ?_, hset⟩
  · rw [hadd, addHandlerEffect_of_room key hid hroom]; rfl
  · rw [hadd, addHandlerEffect_of_full key hid hfull]; rfl

end Sys2Proof.Machine
end

section
/-! PROOFS. Runs without a reset (20_memory.md R82): a run as a step and a shorter run, and the induction over them said once. -/

namespace Sys2Proof.Machine

/-- The record of the run of no steps. -/
def RunRecord.stay (s : State) : RunRecord :=
  { final := s, rx := [], sync := [], events := [], commands := [], hadReset := false }

/-- The record of a run that begins with the step from `s` to `t` and goes on as `r`. -/
def RunRecord.afterStep (s t : State) (r : RunRecord) : RunRecord :=
  { final := r.final
    rx := rxTaken s ++ r.rx
    sync := syncTaken s ++ r.sync
    events := newEvents (syncTaken s) t ++ r.events
    commands := cmdTaken s ++ r.commands
    hadReset := isReset s || r.hadReset }

theorem runRecord_zero (s : State) : runRecord 0 s = some (.stay s) := rfl

theorem runRecord_of_step {n : Nat} {s t : State} {r : RunRecord} (h : step s = .next t) (hr : runRecord n t = some r) :
    runRecord (n + 1) s = some (.afterStep s t r) := by
  simp only [runRecord, h, hr, RunRecord.afterStep]

/-- What holds of the run of no steps, and is kept when a step that is not RESET is put before a run, holds of every run
without a reset. -/
theorem runRecord_induction {P : State → RunRecord → Prop} (stay : ∀ s, P s (.stay s))
    (afterStep : ∀ s t r, step s = .next t → isReset s = false → P t r → P s (.afterStep s t r)) {n : Nat} {s : State}
    {r : RunRecord} (h : runRecord n s = some r) (hr : r.hadReset = false) : P s r := by
  induction n generalizing s r with
  | zero => cases h; exact stay s
  | succ n ih =>
    obtain ⟨t, r', hstep, hrun, rfl⟩ := runRecord_succ h
    obtain ⟨hs, hr'⟩ := Bool.or_eq_false_iff.mp hr
    exact afterStep s t r' hstep hs (ih hrun hr')

end Sys2Proof.Machine
end

section
/-! PROOFS. The outbound streams: what the commands accepted in a run yield, and what has been handed over stays handed over
(20_memory.md R79, R82; 45_dispatch_engine.md R293). -/

namespace Sys2Proof.Machine

/-! What has been handed over stays handed over. -/

theorem AcceptEffect.ports_eq {s t : State} (h : AcceptEffect s t) : t.ports = s.ports := by cases h <;> rfl

theorem FrameEffect.ports_eq {s t : State} (h : FrameEffect s t) : t.ports = s.ports := by cases h; rfl

/-- The bytes and the responses handed over in `s` are the first of those handed over in `t`. -/
def KeepsHandedOver (s t : State) : Prop :=
  s.ports.txOut <+: t.ports.txOut ∧ s.ports.respOut <+: t.ports.respOut

theorem KeepsHandedOver.refl (s : State) : KeepsHandedOver s s := ⟨List.prefix_rfl, List.prefix_rfl⟩

theorem KeepsHandedOver.trans {s t u : State} (h : KeepsHandedOver s t) (h' : KeepsHandedOver t u) :
    KeepsHandedOver s u := by
  obtain ⟨htx, hresp⟩ := h
  obtain ⟨htx', hresp'⟩ := h'
  exact ⟨htx.trans htx', hresp.trans hresp'⟩

theorem KeepsHandedOver.of_ports_eq {s t : State} (h : t.ports = s.ports) : KeepsHandedOver s t := by
  rw [KeepsHandedOver, h]
  exact KeepsHandedOver.refl s

/-- TX_EMIT and RESP_TAKE append to what was handed over; no other step of an agent touches it. -/
theorem AgentEffect.keepsHandedOver {a : Agent} {s t : State} (h : AgentEffect s a t) : KeepsHandedOver s t := by
  cases h
  case txEmit => exact ⟨List.prefix_append _ _, List.prefix_rfl⟩
  case respTake => exact ⟨List.prefix_rfl, List.prefix_append _ _⟩
  case syncFrame hframe => exact .of_ports_eq hframe.ports_eq
  case cmdAccept c cs hidle hoffered hwhole hexec haccept =>
    rw [KeepsHandedOver, haccept.ports_eq]
    exact KeepsHandedOver.refl s
  all_goals exact KeepsHandedOver.refl s

/-- RESET included: it writes the record alone (log entry 5). -/
theorem step_keepsHandedOver {s t : State} (h : step s = .next t) : KeepsHandedOver s t := by
  obtain ⟨u, -, -, hports, -, ⟨o, -, -, rfl⟩ | ⟨a, -, -, -, rfl⟩ | ⟨a, -, -, -, hagent⟩⟩ := step_effect h
  · simp [KeepsHandedOver]
  · exact .of_ports_eq hports
  · exact (KeepsHandedOver.of_ports_eq hports).trans hagent.keepsHandedOver

theorem runRecord_keepsHandedOver {n : Nat} {s : State} {r : RunRecord} (h : runRecord n s = some r)
    (hr : r.hadReset = false) : KeepsHandedOver s r.final :=
  runRecord_induction (P := fun s r => KeepsHandedOver s r.final) KeepsHandedOver.refl
    (fun _ _ _ hstep _ ih => (step_keepsHandedOver hstep).trans ih) h hr

/-! What the accepted commands yield. -/

/-- What commands accepted from `s` on yield. -/
def resultsFrom (s : State) (cs : List Command) : List CommandResult :=
  commandResults s.params.regCap s.core.fid s.core.reg.length cs

/-- The counter and the number of registry entries, which a later command finds. -/
def registers (s : State) : Byte × Nat := (s.core.fid, s.core.reg.length)

/-- A step that accepts no command leaves the outbound streams, and what later commands yield. -/
def QuietStep (s t : State) : Prop :=
  cmdTaken s = [] ∧ txStream t = txStream s ∧ respStream t = respStream s ∧ registers t = registers s ∧
    resultsFrom t = resultsFrom s

/-- A step that accepts a command with this result extends the outbound streams by its frame and its response, and later
commands find the registers it names. -/
def AcceptStep (s t : State) (c : Command) (res : CommandResult) : Prop :=
  cmdTaken s = [c] ∧ txStream t = txStream s ++ res.frame ∧ respStream t = respStream s ++ [res.resp] ∧
    registers t = (res.fid, res.entries) ∧ ∀ cs, resultsFrom s (c :: cs) = res :: resultsFrom t cs

theorem step_quiet_or_accept {s t : State} (h : step s = .next t) (hr : isReset s = false) :
    QuietStep s t ∨ ∃ c res, AcceptStep s t c res := by
  obtain ⟨hparams, ⟨hcmd, htx, hresp, hfid, hreg⟩ | ⟨c, hcmd, htx, hresp, hfid, hreg⟩⟩ := step_outbound h hr
  · refine .inl ⟨hcmd, htx, hresp, ?_, ?_⟩
    · rw [registers, hfid, hreg, registers]
    · funext cs
      rw [resultsFrom, hparams, hfid, hreg, resultsFrom]
  · refine .inr ⟨c, _, hcmd, htx, hresp, ?_, fun cs => ?_⟩
    · rw [registers, hfid, hreg]
    · rw [resultsFrom, commandResults, resultsFrom, hparams, hfid, hreg]

/-- The outbound streams and the registers at the end of a run are those of the start, then what the commands accepted in the
run yield. -/
structure OutboundLaw (s : State) (r : RunRecord) : Prop where
  tx : txStream r.final = txStream s ++ ((resultsFrom s r.commands).map CommandResult.frame).flatten
  resp : respStream r.final = respStream s ++ (resultsFrom s r.commands).map CommandResult.resp
  regs : registers r.final = ((resultsFrom s r.commands).map (fun c => (c.fid, c.entries))).getLastD (registers s)

theorem OutboundLaw.stay (s : State) : OutboundLaw s (.stay s) where
  tx := (List.append_nil _).symm
  resp := (List.append_nil _).symm
  regs := rfl

theorem OutboundLaw.afterQuietStep {s t : State} {r : RunRecord} (hq : QuietStep s t) (h : OutboundLaw t r) :
    OutboundLaw s (.afterStep s t r) := by
  obtain ⟨hcmd, htx, hresp, hregs, hresults⟩ := hq
  have hcommands : (RunRecord.afterStep s t r).commands = r.commands := by simp [RunRecord.afterStep, hcmd]
  constructor <;> rw [hcommands]
  case tx => rw [← htx, ← hresults]; exact h.tx
  case resp => rw [← hresp, ← hresults]; exact h.resp
  case regs => rw [← hregs, ← hresults]; exact h.regs

theorem OutboundLaw.afterAcceptStep {s t : State} {c : Command} {res : CommandResult} {r : RunRecord}
    (ha : AcceptStep s t c res) (h : OutboundLaw t r) : OutboundLaw s (.afterStep s t r) := by
  obtain ⟨hcmd, htx, hresp, hregs, hresults⟩ := ha
  have hcommands : (RunRecord.afterStep s t r).commands = c :: r.commands := by simp [RunRecord.afterStep, hcmd]
  constructor <;> rw [hcommands, hresults, List.map_cons]
  case tx => rw [List.flatten_cons, ← List.append_assoc, ← htx]; exact h.tx
  case resp => rw [List.append_cons, ← hresp]; exact h.resp
  case regs => rw [List.getLastD_cons, ← hregs]; exact h.regs

theorem runRecord_outbound {n : Nat} {s : State} {r : RunRecord} (h : runRecord n s = some r)
    (hr : r.hadReset = false) : OutboundLaw s r := by
  refine runRecord_induction OutboundLaw.stay (fun s t r hstep hs ih => ?_) h hr
  obtain hquiet | ⟨c, res, haccept⟩ := step_quiet_or_accept hstep hs
  · exact ih.afterQuietStep hquiet
  · exact ih.afterAcceptStep haccept

/-! What one command's result can be. -/

/-- A result sends nothing and reports the length 0, or sends a whole encoder frame and reports OK. -/
def CommandResult.WholeFrameOrNone (c : CommandResult) : Prop :=
  (c.resp.rlen = 0 ∧ c.frame = []) ∨ (c.resp.status = .ok ∧ EncoderFrame c.frame)

theorem CommandResult.plain_wholeFrameOrNone (status : RespStatus) (fid : Byte) (entries : Nat) :
    (CommandResult.plain status fid entries).WholeFrameOrNone := .inl ⟨rfl, rfl⟩

theorem commandResult_wholeFrameOrNone (regCap : Nat) (fid : Byte) (entries : Nat) (c : Command) :
    (commandResult regCap fid entries c).WholeFrameOrNone := by
  unfold commandResult
  split
  · split <;> exact CommandResult.plain_wholeFrameOrNone ..
  · exact CommandResult.plain_wholeFrameOrNone ..
  · split
    · exact CommandResult.plain_wholeFrameOrNone ..
    · split
      · exact CommandResult.plain_wholeFrameOrNone ..
      · exact .inr ⟨rfl, encoderFrame_transmit _ _ _ _ (by omega)⟩
  · split
    · exact CommandResult.plain_wholeFrameOrNone ..
    · split
      · exact CommandResult.plain_wholeFrameOrNone ..
      · exact .inr ⟨rfl, encoderFrame_atCommand _ _ (by omega)⟩
  · exact CommandResult.plain_wholeFrameOrNone ..

theorem commandResults_wholeFrameOrNone (regCap : Nat) (cs : List Command) (fid : Byte) (entries : Nat) :
    ∀ res ∈ commandResults regCap fid entries cs, res.WholeFrameOrNone := by
  induction cs generalizing fid entries with
  | nil => simp [commandResults]
  | cons c cs ih =>
    rw [commandResults, List.forall_mem_cons]
    exact ⟨commandResult_wholeFrameOrNone .., ih _ _⟩

/-- Settles O35, by induction over the run: a step extends the tx stream by the whole frame of the command it accepts, or
leaves it. -/
theorem txStreamGrowsByWholeFrames : Obligations.TxStreamGrowsByWholeFrames := by
  intro n s r h hr
  obtain ⟨hkept, -⟩ := runRecord_keepsHandedOver h hr
  exact ⟨hkept, (runRecord_outbound h hr).tx, commandResults_wholeFrameOrNone _ _ _ _⟩

/-- Settles O59, by the same induction: a step extends the response stream by the response of the command it accepts, or
leaves it. -/
theorem everyCommandIsAnsweredOnceInOrder : Obligations.EveryCommandIsAnsweredOnceInOrder := by
  intro n s r h hr
  obtain ⟨-, hkept⟩ := runRecord_keepsHandedOver h hr
  have hlaw := runRecord_outbound h hr
  refine ⟨hkept, hlaw.resp, ?_, hlaw.regs⟩
  rw [hlaw.resp, List.length_append, List.length_map, resultsFrom, length_commandResults]

end Sys2Proof.Machine
end

section
/-! PROOFS. The event stream (20_memory.md R82, 60_exceptions.md R330): SYNC_FRAME puts an event into the empty register and
EVT_TAKE hands it over; no other step but RESET touches one. -/

namespace Sys2Proof.Machine

/-! The synchronizer action a step takes. -/

theorem newEvents_nil (t : State) : newEvents [] t = [] := rfl

theorem syncTaken_of_other_turn {s : State} (h : (nextTurn s).1 ≠ .core .synchronizer) : syncTaken s = [] := by
  simp [syncTaken, isTurnOf, h]

theorem syncTaken_of_not_enabled {s : State} (h : enabled .synchronizer s = false) : syncTaken s = [] := by
  simp [syncTaken, h]

/-- A step that seeks produces no event. -/
theorem newEvents_of_seeking {s : State} (t : State) (h : syncState s.core.rxq = .seekingDelimiter) :
    newEvents (syncTaken s) t = [] := by
  rw [syncTaken, if_pos h]
  split
  · rfl
  · rfl

/-- A SYNC_FRAME step takes the candidate at the head of `rxq`. -/
theorem syncTaken_of_frame {s : State} (hturn : (nextTurn s).1 = .core .synchronizer) (hreset : s.ports.resetIn = false)
    (hrun : s.core.run = true) (hevt : s.core.evt = none) (hready : syncState s.core.rxq = .frameReady) :
    syncTaken s = [.frame (s.core.rxq.take (declaredLen s.core.rxq + 4))] := by
  simp [syncTaken, isTurnOf, enabled, hturn, hreset, hrun, hevt, hready]

/-! What each effect does to the event stream. -/

theorem evtStream_eq_of {s t : State} (hports : t.ports.evtOut = s.ports.evtOut) (hevt : t.core.evt = s.core.evt) :
    evtStream t = evtStream s := by
  rw [evtStream, hports, hevt, evtStream]

theorem AcceptEffect.evt_eq {s t : State} (h : AcceptEffect s t) : t.core.evt = s.core.evt := by cases h <;> rfl

/-- An agent other than the synchronizer leaves the event stream: EVT_TAKE moves its end from the register to what was
delivered. -/
theorem AgentEffect.evtStream_eq {a : Agent} {s t : State} (h : AgentEffect s a t) (ha : a ≠ .synchronizer) :
    evtStream t = evtStream s := by
  cases h
  case evtTake e hready hpending => simp [evtStream, hpending]
  case cmdAccept c cs hidle hoffered hwhole hexec haccept =>
    exact evtStream_eq_of (by rw [haccept.ports_eq]; rfl) haccept.evt_eq
  case syncSeek | syncFrame => exact absurd rfl ha
  all_goals exact evtStream_eq_of rfl rfl

/-- The synchronizer's turn leaves the event stream or, by SYNC_FRAME, appends the event it writes. -/
theorem AgentEffect.evtStream_synchronizer {s t : State} (h : AgentEffect s .synchronizer t) :
    (evtStream t = evtStream s ∧ (enabled .synchronizer s = false ∨ syncState s.core.rxq = .seekingDelimiter)) ∨
    (s.core.run = true ∧ s.core.evt = none ∧ syncState s.core.rxq = .frameReady ∧
      evtStream t = evtStream s ++ t.core.evt.toList) := by
  cases h
  case wait hidle => exact .inl ⟨rfl, .inl hidle⟩
  case syncSeek hrun hseek => exact .inl ⟨rfl, .inr hseek⟩
  case syncFrame hframe =>
    obtain ⟨ft, len, rest, res, hen, -, -, -⟩ := hframe
    obtain ⟨hrun, hevt, hready, -⟩ := (frameEnabled_iff _ _).mp hen
    exact .inr ⟨hrun, hevt, hready, by simp [evtStream, hevt]⟩

/-- A step that is not RESET extends the event stream by the event it produces, if any. -/
theorem step_evtStream {s t : State} (h : step s = .next t) (hr : isReset s = false) :
    evtStream t = evtStream s ++ newEvents (syncTaken s) t := by
  obtain ⟨u, -, hcore, hports, hparams, ⟨o, hturn, -, rfl⟩ | ⟨a, -, -, hr', -⟩ | ⟨a, hturn, hreset, -, hagent⟩⟩ :=
    step_effect h
  · rw [syncTaken_of_other_turn (by simp [hturn])]
    simp [evtStream, newEvents_nil, hcore]
  · rw [hr] at hr'; cases hr'
  · have hstream : evtStream u = evtStream s := evtStream_eq_of (by rw [hports]) (by rw [hcore])
    rw [← hstream]
    by_cases ha : a = .synchronizer
    · subst ha
      obtain ⟨hsame, hidle | hseek⟩ | ⟨hrun, hevt, hready, hnew⟩ := hagent.evtStream_synchronizer
      · have hidle : enabled .synchronizer s = false := by rw [← hidle]; simp only [enabled, hcore]
        rw [hsame, syncTaken_of_not_enabled hidle, newEvents_nil, List.append_nil]
      · rw [hsame, newEvents_of_seeking t (hcore ▸ hseek), List.append_nil]
      · rw [hcore] at hrun hevt hready
        rw [hnew, syncTaken_of_frame hturn hreset hrun hevt hready, newEvents]
    · rw [hagent.evtStream_eq ha, syncTaken_of_other_turn (by simp [hturn, ha]), newEvents_nil, List.append_nil]

/-- Settles O36, by induction over the run. -/
theorem eventsAreDeliveredInOrderProduced : Obligations.EventsAreDeliveredInOrderProduced := by
  intro n s r h hr
  refine runRecord_induction (P := fun s r => evtStream r.final = evtStream s ++ r.events)
    (fun s => (List.append_nil _).symm) (fun s t r hstep hs ih => ?_) h hr
  calc evtStream r.final = evtStream t ++ r.events := ih
    _ = evtStream s ++ newEvents (syncTaken s) t ++ r.events := by rw [step_evtStream hstep hs]
    _ = evtStream s ++ (newEvents (syncTaken s) t ++ r.events) := List.append_assoc ..

end Sys2Proof.Machine
end

section
/-! PROOFS. The turns of the ports and of the busy command unit where their step is enabled, and where a full buffer holds it back
(45_dispatch_engine.md R290 to R293, 20_memory.md R87, R88). -/

namespace Sys2Proof.Machine

/-! The command unit. -/

theorem agentTurn_commandUnit_of_bytes {s : State} {b : Byte} {rest : List Byte} {resp : Response}
    (h : s.core.cu = .busy (b :: rest) resp) : agentTurn .commandUnit s = .next (cmdAppend b rest resp s) := by
  simp only [agentTurn, commandTurn, h]

theorem agentTurn_commandUnit_of_response {s : State} {resp : Response} (h : s.core.cu = .busy [] resp) :
    agentTurn .commandUnit s = .next (respTake resp s) := by
  simp only [agentTurn, commandTurn, h]

theorem cmdAppend_of_room (b : Byte) (rest : List Byte) (resp : Response) {s : State}
    (h : s.core.txq.length < s.params.txbufCap) :
    cmdAppend b rest resp s = (s.withTxq (s.core.txq ++ [b])).withCu (.busy rest resp) := if_pos h

theorem cmdAppend_of_full (b : Byte) (rest : List Byte) (resp : Response) {s : State}
    (h : s.core.txq.length = s.params.txbufCap) : cmdAppend b rest resp s = s := if_neg (by omega)

theorem respTake_of_ready (resp : Response) {s : State} (h : s.ports.respReady = true) :
    respTake resp s = (s.withCu .idle).withPorts { s.ports with respOut := s.ports.respOut ++ [resp] } := if_pos h

/-- Settles O33: CMD_APPEND with and without room, and RESP_TAKE. -/
theorem commandUnitAppendsThenAnswers : Obligations.CommandUnitAppendsThenAnswers := by
  refine ⟨fun s b rest resp hbusy => ⟨fun hroom => ?_, fun hfull => ?_⟩, fun s resp hbusy hready => ?_⟩
  · rw [agentTurn_commandUnit_of_bytes hbusy, cmdAppend_of_room b rest resp hroom]; rfl
  · rw [agentTurn_commandUnit_of_bytes hbusy, cmdAppend_of_full b rest resp hfull]
  · rw [agentTurn_commandUnit_of_response hbusy, respTake_of_ready resp hready]; rfl

theorem step_of_listed_turn {s : State} {a : Agent} {ts : List Turn} (h : s.sched = .core a :: ts)
    (hreset : s.ports.resetIn = false) : step s = agentTurn a { s with sched := ts } := by
  simp [step, nextTurn, takeTurn, h, hreset]

/-- A listed turn of the command unit is CMD_APPEND where there is room. -/
theorem step_appends_byte {s : State} {b : Byte} {rest : List Byte} {resp : Response} {ts : List Turn}
    (hbusy : s.core.cu = .busy (b :: rest) resp) (hroom : s.core.txq.length < s.params.txbufCap)
    (hreset : s.ports.resetIn = false) (hsched : s.sched = .core .commandUnit :: ts) :
    step s = .next { s with core := { s.core with txq := s.core.txq ++ [b], cu := .busy rest resp }, sched := ts } := by
  rw [step_of_listed_turn hsched hreset, agentTurn_commandUnit_of_bytes (s := { s with sched := ts }) hbusy,
    cmdAppend_of_room (s := { s with sched := ts }) b rest resp hroom]
  rfl

/-- Settles O34, by induction on the bytes left: each turn appends the first of them. -/
theorem frameReachesTxqWholeWithinItsLength : Obligations.FrameReachesTxqWholeWithinItsLength := by
  intro rest resp ts s hbusy hroom hreset hsched
  induction rest generalizing s with
  | nil =>
    refine ⟨.stay s, runRecord_zero s, ?_⟩
    obtain rfl : ts = s.sched := hsched.symm
    rw [List.append_nil, ← hbusy]
    rfl
  | cons b rest ih =>
    rw [List.length_cons] at hroom
    have hstep := step_appends_byte hbusy (by omega) hreset hsched
    obtain ⟨r, hrun, hfinal⟩ :=
      ih { s with
        core := { s.core with txq := s.core.txq ++ [b], cu := .busy rest resp }
        sched := List.replicate rest.length (.core .commandUnit) ++ ts } rfl (by simp; omega) hreset rfl
    refine ⟨_, runRecord_of_step hstep hrun, ?_⟩
    rw [List.append_cons s.core.txq b rest]
    exact hfinal

/-! The ports. -/

theorem rxAccept_of_room {s : State} {b : Byte} {bs : List Byte} (hrun : s.core.run = true)
    (hroom : s.core.rxq.length < s.params.rxbufCap) (hoffered : s.ports.rxIn = b :: bs) :
    rxAccept s = (s.withRxq (s.core.rxq ++ [b])).withPorts { s.ports with rxIn := bs } := by
  simp [rxAccept, append, hrun, hroom, hoffered]

theorem rxAccept_of_full {s : State} (h : s.core.rxq.length = s.params.rxbufCap) : rxAccept s = s := by
  simp [rxAccept, h]

theorem txEmit_of_ready {s : State} {x : Byte} {q : List Byte} (hrun : s.core.run = true)
    (hready : s.ports.txReady = true) (hqueued : s.core.txq = x :: q) :
    txEmit s = (s.withTxq q).withPorts { s.ports with txOut := s.ports.txOut ++ [x] } := by
  simp [txEmit, hrun, hready, hqueued]

theorem evtTake_of_ready {s : State} {e : Event} (hpending : s.core.evt = some e) (hready : s.ports.evtReady = true) :
    evtTake s = (s.withEvt none).withPorts { s.ports with evtOut := s.ports.evtOut ++ [e] } := by
  simp [evtTake, hready, hpending]

/-- Settles O47: RX_ACCEPT with and without room, TX_EMIT and EVT_TAKE. -/
theorem portTurnsMoveOneItem : Obligations.PortTurnsMoveOneItem :=
  ⟨fun _ _ _ hrun hroom hoffered => congrArg _ (rxAccept_of_room hrun hroom hoffered),
    fun _ hfull => congrArg _ (rxAccept_of_full hfull),
    fun _ _ _ hrun hready hqueued => congrArg _ (txEmit_of_ready hrun hready hqueued),
    fun _ _ hpending hready => congrArg _ (evtTake_of_ready hpending hready)⟩

end Sys2Proof.Machine
end

section
/-! PROOFS. The fixed bytes of each frame type as its named fields, one after the other (30_encoding.md R106 to R112). -/

namespace Sys2Proof.Machine

/-! Slices side by side. -/

theorem slice_append_slice (b : List Byte) {i j k : Nat} (hij : i ≤ j) (hjk : j ≤ k) :
    slice b i j ++ slice b j k = slice b i k := by
  have hdrop : b.drop j = (b.drop i).drop (j - i) := by rw [List.drop_drop, Nat.add_sub_cancel' hij]
  rw [slice, slice, slice, hdrop, ← List.take_add, show j - i + (k - j) = k - i by omega]

theorem slice_one {b : List Byte} {i : Nat} (h : i < b.length) : slice b i (i + 1) = [byteAt b i] := by
  rw [slice_eq_cons (Nat.lt_succ_self i) h, slice_self]

theorem slice_two {b : List Byte} {i : Nat} (h : i + 1 < b.length) : slice b i (i + 2) = [byteAt b i, byteAt b (i + 1)] := by
  rw [slice_eq_cons (by omega) (by omega), slice_one h]

theorem slice_three {b : List Byte} {i : Nat} (h : i + 2 < b.length) :
    slice b i (i + 3) = [byteAt b i, byteAt b (i + 1), byteAt b (i + 2)] := by
  rw [slice_eq_cons (by omega) (by omega), slice_two h]

/-! What DECODE delivers for a type. -/

/-- The spans of an `Ok` result, and that the frame holds all of the fixed bytes and its checksum byte. -/
theorem decodeFrame_code_eq_ok {p : Params} {t : FrameType} {raw fixed data : List Byte} {ft : Byte}
    (h : decodeFrame p t.code raw = some (.ok ft fixed data)) :
    minLen t + 4 ≤ raw.length ∧ fixed = slice raw 4 (3 + minLen t) ∧
      data = if hasPayload t then slice raw (3 + minLen t) (3 + declaredLen raw) else [] := by
  obtain ⟨⟨hlong, -⟩, ⟨-, herr⟩ | ⟨t', hreg, hok⟩⟩ := decodeFrame_eq_some h
  · cases herr
  · obtain ⟨-, hname, -⟩ := registry_eq_some hreg
    obtain rfl : t = t' := by simpa using hname
    obtain ⟨-, -, hlen, hmin, -, hfixed, hdata⟩ := decodeAs_eq_ok hok.symm
    exact ⟨by omega, hfixed, hdata⟩

section
variable {raw : List Byte}

theorem atCommandFields_fixed (h : 8 ≤ raw.length) :
    slice raw 4 7 = (atCommandFields raw).frameId :: (atCommandFields raw).command :=
  slice_eq_cons (by decide) (by omega)

theorem transmitFields_fixed (h : 18 ≤ raw.length) :
    slice raw 4 17 = (transmitFields raw).frameId :: ((transmitFields raw).addr64 ++ (transmitFields raw).addr16 ++
      [(transmitFields raw).broadcastRadius, (transmitFields raw).options]) := by
  simp only [transmitFields]
  rw [slice_eq_cons (by decide) (by omega), ← slice_two (i := 15) (by omega), slice_append_slice raw (by decide) (by decide),
    slice_append_slice raw (by decide) (by decide)]

theorem atResponseFields_fixed (h : 9 ≤ raw.length) :
    slice raw 4 8 =
      (atResponseFields raw).frameId :: ((atResponseFields raw).command ++ [(atResponseFields raw).status]) := by
  simp only [atResponseFields]
  rw [slice_eq_cons (by decide) (by omega), ← slice_one (i := 7) (by omega), slice_append_slice raw (by decide) (by decide)]

theorem modemStatusFields_fixed (h : 6 ≤ raw.length) : slice raw 4 5 = [(modemStatusFields raw).status] :=
  slice_one (by omega)

theorem txStatusFields_fixed (h : 11 ≤ raw.length) :
    slice raw 4 10 = (txStatusFields raw).frameId :: ((txStatusFields raw).addr16 ++ [(txStatusFields raw).retryCount,
      (txStatusFields raw).deliveryStatus, (txStatusFields raw).discoveryStatus]) := by
  simp only [txStatusFields]
  rw [slice_eq_cons (by decide) (by omega), ← slice_three (i := 7) (by omega),
    slice_append_slice raw (by decide) (by decide)]

theorem receiveFields_fixed (h : 16 ≤ raw.length) :
    slice raw 4 15 = (receiveFields raw).addr64 ++ (receiveFields raw).addr16 ++ [(receiveFields raw).options] := by
  simp only [receiveFields]
  rw [← slice_one (i := 14) (by omega), slice_append_slice raw (by decide) (by decide),
    slice_append_slice raw (by decide) (by decide)]

theorem explicitReceiveFields_fixed (h : 22 ≤ raw.length) :
    slice raw 4 21 = (explicitReceiveFields raw).addr64 ++ (explicitReceiveFields raw).addr16 ++
      [(explicitReceiveFields raw).srcEndpoint, (explicitReceiveFields raw).dstEndpoint] ++
      (explicitReceiveFields raw).clusterId ++ (explicitReceiveFields raw).profileId ++
      [(explicitReceiveFields raw).options] := by
  simp only [explicitReceiveFields]
  rw [← slice_two (i := 14) (by omega), ← slice_one (i := 20) (by omega)]
  repeat rw [slice_append_slice raw (by decide) (by decide)]

end

/-- Settles O17: the fixed span of each type is cut at its fields' offsets. -/
theorem deliveredBytesAreTheNamedFields : Obligations.DeliveredBytesAreTheNamedFields := by
  intro p raw fixed data t
  refine ⟨fun h => ?_, fun h => ?_, fun h => ?_, fun h => ?_, fun h => ?_, fun h => ?_, fun h => ?_⟩
  · obtain ⟨hlen, rfl, rfl⟩ := decodeFrame_code_eq_ok (t := .atCommand) h
    exact ⟨atCommandFields_fixed hlen, rfl⟩
  · obtain ⟨hlen, rfl, rfl⟩ := decodeFrame_code_eq_ok (t := .transmit) h
    exact ⟨transmitFields_fixed hlen, rfl⟩
  · obtain ⟨hlen, rfl, rfl⟩ := decodeFrame_code_eq_ok (t := .atResponse) h
    exact ⟨atResponseFields_fixed hlen, rfl⟩
  · obtain ⟨hlen, rfl, rfl⟩ := decodeFrame_code_eq_ok (t := .modemStatus) h
    exact ⟨modemStatusFields_fixed hlen, rfl⟩
  · obtain ⟨hlen, rfl, rfl⟩ := decodeFrame_code_eq_ok (t := .txStatus) h
    exact ⟨txStatusFields_fixed hlen, rfl⟩
  · obtain ⟨hlen, rfl, rfl⟩ := decodeFrame_code_eq_ok (t := .receive) h
    exact ⟨receiveFields_fixed hlen, rfl⟩
  · obtain ⟨hlen, rfl, rfl⟩ := decodeFrame_code_eq_ok (t := .explicitReceive) h
    have hlen : 22 ≤ raw.length := hlen
    exact ⟨explicitReceiveFields_fixed hlen, rfl, slice_two (by omega), rfl, slice_two (by omega), rfl⟩

end Sys2Proof.Machine
end

section
/-! PROOFS. The fields of the packed port records (30_encoding.md R117 to R121). -/

namespace Sys2Proof.Machine

theorem Response.packed_fields (r : Response) :
    r.packed.extractLsb' 0 4 = r.status.code ∧ r.packed.extractLsb' 4 8 = r.rfid ∧
    r.packed.extractLsb' 12 16 = r.rlen ∧ r.packed.extractLsb' 28 8 = r.rchk := by
  unfold Response.packed
  refine ⟨?_, ?_, ?_, ?_⟩
  all_goals repeat rw [BitVec.extractLsb'_append_eq_of_le (by decide)]
  case refine_4 => exact BitVec.extractLsb'_eq_self
  all_goals exact BitVec.extractLsb'_append_eq_right

/-- The fields of a word laid out as an event's header beat is, from bit 0 up; the lanes and counts stand above bit 53. -/
theorem extractLsb'_event_layout (lanes : BitVec 136) (dlen : BitVec 16) (count : BitVec 5) (errB errA : BitVec 16)
    (err : BitVec 3) (ftype hid : Byte) (kind : BitVec 2) :
    let word := lanes ++ dlen ++ count ++ errB ++ errA ++ err ++ ftype ++ hid ++ kind
    word.extractLsb' 0 2 = kind ∧ word.extractLsb' 2 8 = hid ∧ word.extractLsb' 10 8 = ftype ∧
    word.extractLsb' 18 3 = err ∧ word.extractLsb' 21 16 = errA ∧ word.extractLsb' 37 16 = errB ∧
    word.extractLsb' 53 5 = count ∧ word.extractLsb' 58 16 = dlen ∧
    word.extractLsb' 53 157 = lanes ++ dlen ++ count := by
  intro word
  refine ⟨?_, ?_, ?_, ?_, ?_, ?_, ?_, ?_, ?_⟩
  case refine_9 =>
    iterate 6 rw [BitVec.extractLsb'_append_eq_of_le (by decide)]
    exact BitVec.extractLsb'_eq_self
  all_goals repeat rw [BitVec.extractLsb'_append_eq_of_le (by decide)]
  all_goals exact BitVec.extractLsb'_append_eq_right

/-- Above bit 74 of that word stand its lanes. -/
theorem extractLsb'_event_layout_lanes (lanes : BitVec 136) (dlen : BitVec 16) (count : BitVec 5)
    (errB errA : BitVec 16) (err : BitVec 3) (ftype hid : Byte) (kind : BitVec 2) (start n : Nat) :
    (lanes ++ dlen ++ count ++ errB ++ errA ++ err ++ ftype ++ hid ++ kind).extractLsb' (start + 74) n =
      lanes.extractLsb' start n := by
  iterate 8 rw [BitVec.extractLsb'_append_eq_of_le (by omega)]
  rfl

/-- Lane `j` from the top holds fixed byte `j`. -/
theorem fixedLanes_lane (fixed : List Byte) {j : Nat} (h : j < 17) :
    (fixedLanes fixed).extractLsb' (128 - 8 * j) 8 = byteAt fixed j := by
  unfold fixedLanes
  interval_cases j
  all_goals repeat rw [BitVec.extractLsb'_append_eq_of_le (by decide)]
  · exact BitVec.extractLsb'_eq_self
  all_goals exact BitVec.extractLsb'_append_eq_right

/-! The header beat of each kind of result. -/

theorem Event.header_of_ok {e : Event} {fixed data : List Byte} (h : e.result = .ok fixed data) :
    e.header = fixedLanes fixed ++ BitVec.ofNat 16 data.length ++ BitVec.ofNat 5 fixed.length ++ 0#16 ++ 0#16 ++ 0#3
      ++ e.ftype ++ e.hid ++ e.kind.code := by
  simp only [Event.header, h]

theorem Event.header_of_err {e : Event} {code : ErrCode} {a b : BitVec 16} (h : e.result = .err code a b) :
    e.header = 0#136 ++ 0#16 ++ 0#5 ++ b ++ a ++ code.code ++ e.ftype ++ e.hid ++ e.kind.code := by
  simp only [Event.header, h]

/-- The fields that both kinds of result share. -/
theorem Event.header_target_fields (e : Event) :
    e.header.extractLsb' 0 2 = e.kind.code ∧ e.header.extractLsb' 2 8 = e.hid ∧ e.header.extractLsb' 10 8 = e.ftype := by
  cases h : e.result with
  | ok fixed data =>
    rw [Event.header_of_ok h]
    obtain ⟨hkind, hhid, hftype, -⟩ := extractLsb'_event_layout ..
    exact ⟨hkind, hhid, hftype⟩
  | err code a b =>
    rw [Event.header_of_err h]
    obtain ⟨hkind, hhid, hftype, -⟩ := extractLsb'_event_layout ..
    exact ⟨hkind, hhid, hftype⟩

theorem Event.header_lane {e : Event} {fixed data : List Byte} (h : e.result = .ok fixed data) {j : Nat} (hj : j < 17) :
    e.header.extractLsb' (202 - 8 * j) 8 = byteAt fixed j := by
  rw [Event.header_of_ok h, show 202 - 8 * j = 128 - 8 * j + 74 by omega, extractLsb'_event_layout_lanes,
    fixedLanes_lane fixed hj]

/-- Settles O56: every field stands at its bits, and a count within its bound fits its field. -/
theorem portRecordsArePackedAsLaidOut : Obligations.PortRecordsArePackedAsLaidOut := by
  refine ⟨fun r => ?_, fun e => ?_, fun e fixed data hok hfixed hdata => ?_, fun e c a b herr => ?_⟩
  · obtain ⟨hstatus, hrest⟩ := r.packed_fields
    refine ⟨?_, hrest⟩
    rw [hstatus]
    cases r.status <;> rfl
  · obtain ⟨hkind, hrest⟩ := e.header_target_fields
    refine ⟨?_, hrest⟩
    rw [hkind]
    cases e.kind <;> rfl
  · have hlane := fun j hj => Event.header_lane (j := j) hok hj
    have hbeats : e.beats = data := by simp only [Event.beats, hok]
    rw [Event.header_of_ok hok] at hlane ⊢
    obtain ⟨-, -, -, herr, herrA, herrB, hcount, hdlen, -⟩ := extractLsb'_event_layout ..
    refine ⟨herr, herrA, herrB, ?_, ?_, hbeats, hlane⟩
    · rw [hcount, BitVec.toNat_ofNat, Nat.mod_eq_of_lt (by omega)]
    · rw [hdlen, BitVec.toNat_ofNat, Nat.mod_eq_of_lt (by omega)]
  · have hbeats : e.beats = [] := by simp only [Event.beats, herr]
    rw [Event.header_of_err herr]
    obtain ⟨-, -, -, hcode, hA, hB, -, -, htop⟩ := extractLsb'_event_layout ..
    refine ⟨?_, hA, hB, htop, hbeats⟩
    rw [hcode]
    cases c <;> rfl

end Sys2Proof.Machine
end

section
/-! PROOFS. The decoder undoes the encoder, takes exactly the declared length from a stream, and ignores the header bits an
opcode does not list (30_encoding.md R100, R113, R115, R124). -/

namespace Sys2Proof

/-! Frames. -/

/-- A whole frame with nothing behind it. -/
theorem decode_frameBytes {len : BitVec 16} (t : Byte) {rest : List Byte} (h : frameWellFormed len rest = true) :
    decode (.frame (frameBytes len t rest)) = .ok (frameInstr len t rest) := by
  have hstream := decodeStream_frameBytes len t rest [] (of_decide_eq_true h)
  rw [List.append_nil] at hstream
  simp only [decode, hstream]

theorem frameInstr_of_unknown {t : Byte} (h : FrameType.ofByte? t = none) (len : BitVec 16) (rest : List Byte) :
    frameInstr len t rest = .frameUnsupported len t rest := by
  simp only [frameInstr, h]

/-- Settles O3: what the decoder answers is a frame that stands at the head of the stream. -/
theorem streamDecodeTakesDeclaredLength : Obligations.StreamDecodeTakesDeclaredLength := by
  intro q i r h
  obtain ⟨len, t, rest, hlen, rfl, rfl⟩ := decodeStream_eq_ok h
  have hbytes : (frameBytes len t rest).length = len.toNat + 4 := by rw [length_frameBytes, hlen]
  rw [Machine.declaredLen_frameBytes_append]
  refine ⟨?_, ?_, ?_, ?_⟩
  · rw [wellFormed_frameInstr, hlen, decide_eq_true rfl]
  · rw [encode_frameInstr, List.take_left' hbytes]
  · rw [List.drop_left' hbytes]
  · rw [List.length_append, hbytes]; omega

/-! Commands. -/

/-- A count that fits `dlen` is read back. -/
theorem toNat_beatCount {data : List Byte} (h : data.length < 65536) : (beatCount data).toNat = data.length := by
  rw [beatCount, BitVec.toNat_ofNat, Nat.mod_eq_of_lt h]

/-- A header whose `dlen` counts its data beats. -/
theorem decode_command_of_wellFormed {h : BitVec 128} {data : List Byte} (hwf : beatsWellFormed data = true)
    (hdlen : hdrDlen h = beatCount data) : decode (.command h data) = .ok (commandInstr h data) := by
  rw [decode, decodeCommand, hdlen, toNat_beatCount (of_decide_eq_true hwf), if_pos rfl]

section
variable {h : BitVec 128} (data : List Byte)

theorem commandInstr_of_op_one (hop : hdrOp h = 1) :
    commandInstr h data = .addHandler (hdrB8 h) (hdrHid h) data := by simp [commandInstr, hop]

theorem commandInstr_of_op_two (hop : hdrOp h = 2) : commandInstr h data = .setErrorHandler (hdrHid h) data := by
  simp [commandInstr, hop]

theorem commandInstr_of_op_three (hop : hdrOp h = 3) :
    commandInstr h data =
      .encodeTransmit (hdrA64len h) (hdrA16v h) (hdrB8 h) (hdrW16 h) (hdrAddr64 h) data := by simp [commandInstr, hop]

theorem commandInstr_of_op_four (hop : hdrOp h = 4) :
    commandInstr h data = .encodeAtCommand (hdrAtlen h) (hdrW16 h) data := by simp [commandInstr, hop]

end

/-- The instruction of a reserved opcode, 0 or above 4, reads no header field but the opcode (30_encoding.md R114). -/
theorem commandInstr_eq_of_reserved {h h' : BitVec 128} (data : List Byte) (hop : hdrOp h = hdrOp h')
    (hreserved : (hdrOp h).toNat = 0 ∨ 4 < (hdrOp h).toNat) : commandInstr h data = commandInstr h' data := by
  unfold commandInstr
  rw [← hop]
  split
  case h_2 | h_3 | h_4 | h_5 => omega
  all_goals rfl

theorem hdrOp_setWidth (op : BitVec 4) : hdrOp (op.setWidth 128) = op := by revert op; decide

/-- The words of a reserved command decode as the header that holds the opcode alone does. -/
theorem decode_reservedWords {op : BitVec 4} {data : List Byte} (hreserved : op.toNat = 0 ∨ 4 < op.toNat)
    (hwf : beatsWellFormed data = true) :
    decode (reservedWords op data) = .ok (commandInstr (op.setWidth 128) data) := by
  rw [reservedWords, decode_command_of_wellFormed hwf (hdrDlen_mkHeader ..)]
  congr 1
  apply commandInstr_eq_of_reserved
  · rw [hdrOp_mkHeader, hdrOp_setWidth]
  · rwa [hdrOp_mkHeader]

/-- Settles O2, by cases on the instruction: a frame by its type byte, a command by its opcode and the fields of its header,
a control beat by its two bits. -/
theorem decodeOfEncodeGivesTheInstruction : Obligations.DecodeOfEncodeGivesTheInstruction := by
  intro i hwf
  cases i with
  | frameAtCommand | frameTransmit | frameAtResponse | frameModemStatus | frameTxStatus | frameReceive
  | frameExplicitReceive => exact decode_frameBytes _ hwf
  | frameUnsupported len t rest =>
    simp only [Instr.wellFormed, Bool.and_eq_true, Option.isNone_iff_eq_none] at hwf
    obtain ⟨hunknown, hlen⟩ := hwf
    rw [encode, decode_frameBytes t hlen, frameInstr_of_unknown hunknown]
  | addHandler key hid data =>
    rw [encode, decode_command_of_wellFormed hwf (hdrDlen_mkHeader ..), commandInstr_of_op_one _ (hdrOp_mkHeader ..),
      hdrB8_mkHeader, hdrHid_mkHeader]
  | setErrorHandler hid data =>
    rw [encode, decode_command_of_wellFormed hwf (hdrDlen_mkHeader ..), commandInstr_of_op_two _ (hdrOp_mkHeader ..),
      hdrHid_mkHeader]
  | encodeTransmit a64len a16v options w16 addr64 payload =>
    rw [encode, decode_command_of_wellFormed hwf (hdrDlen_mkHeader ..), commandInstr_of_op_three _ (hdrOp_mkHeader ..),
      hdrA64len_mkHeader, hdrA16v_mkHeader, hdrB8_mkHeader, hdrW16_mkHeader, hdrAddr64_mkHeader]
  | encodeAtCommand atlen w16 param =>
    rw [encode, decode_command_of_wellFormed hwf (hdrDlen_mkHeader ..), commandInstr_of_op_four _ (hdrOp_mkHeader ..),
      hdrAtlen_mkHeader, hdrW16_mkHeader]
  | reservedOp0 | reservedOp5 | reservedOp6 | reservedOp7 | reservedOp8 | reservedOp9 | reservedOpA | reservedOpB
  | reservedOpC | reservedOpD | reservedOpE | reservedOpF => exact decode_reservedWords (by decide) hwf
  | ctlNop | ctlBegin | ctlEnd | ctlReserved3 => rfl

/-! Header bits. -/

/-- Two headers that agree under a mask agree on a field that the mask covers. -/
theorem extractLsb'_eq_of_and_eq {h h' mask : BitVec 128} {start width : Nat}
    (hmask : mask.extractLsb' start width = BitVec.allOnes width) (heq : h &&& mask = h' &&& mask) :
    h.extractLsb' start width = h'.extractLsb' start width := by
  have hfield := congrArg (BitVec.extractLsb' start width) heq
  rwa [BitVec.extractLsb'_and, BitVec.extractLsb'_and, hmask, BitVec.and_allOnes, BitVec.and_allOnes] at hfield

/-- Every opcode lists `dlen`. -/
theorem usedHeaderBits_dlen (op : BitVec 4) :
    (Machine.usedHeaderBits op).extractLsb' 32 16 = BitVec.allOnes 16 := by
  revert op; decide

/-- An instruction reads of its header the bits its opcode lists, and no others. -/
theorem commandInstr_eq_of_used {h h' : BitVec 128} {op : BitVec 4} (data : List Byte) (hop : hdrOp h = op)
    (hop' : hdrOp h' = op) (heq : h &&& Machine.usedHeaderBits op = h' &&& Machine.usedHeaderBits op) :
    commandInstr h data = commandInstr h' data := by
  have field {start width : Nat} (hused : (Machine.usedHeaderBits op).extractLsb' start width = BitVec.allOnes width) :=
    extractLsb'_eq_of_and_eq hused heq
  by_cases hreserved : op.toNat = 0 ∨ 4 < op.toNat
  · exact commandInstr_eq_of_reserved data (hop.trans hop'.symm) (hop ▸ hreserved)
  · obtain rfl | rfl | rfl | rfl : op = 1 ∨ op = 2 ∨ op = 3 ∨ op = 4 := by clear * - hreserved; revert op; decide
    · have hb8 : hdrB8 h = hdrB8 h' := field rfl
      have hhid : hdrHid h = hdrHid h' := field rfl
      rw [commandInstr_of_op_one data hop, commandInstr_of_op_one data hop', hb8, hhid]
    · have hhid : hdrHid h = hdrHid h' := field rfl
      rw [commandInstr_of_op_two data hop, commandInstr_of_op_two data hop', hhid]
    · have ha64len : hdrA64len h = hdrA64len h' := field rfl
      have ha16v : hdrA16v h = hdrA16v h' := field rfl
      have hb8 : hdrB8 h = hdrB8 h' := field rfl
      have hw16 : hdrW16 h = hdrW16 h' := field rfl
      have haddr64 : hdrAddr64 h = hdrAddr64 h' := field rfl
      rw [commandInstr_of_op_three data hop, commandInstr_of_op_three data hop', ha64len, ha16v, hb8, hw16, haddr64]
    · have hatlen : hdrAtlen h = hdrAtlen h' := field rfl
      have hw16 : hdrW16 h = hdrW16 h' := field rfl
      rw [commandInstr_of_op_four data hop, commandInstr_of_op_four data hop', hatlen, hw16]

/-- Settles O4: agreeing headers declare the same number of data beats and name the same instruction. -/
theorem ignoredHeaderBitsChangeNothing : Obligations.IgnoredHeaderBitsChangeNothing := by
  intro h h' data hop heq
  have hdlen : hdrDlen h = hdrDlen h' := extractLsb'_eq_of_and_eq (usedHeaderBits_dlen _) heq
  rw [decodeCommand, decodeCommand, hdlen, commandInstr_eq_of_used data rfl hop.symm heq]

/-- Settles O1, by running the decoder on the four words. -/
theorem decodesWordsWrittenFromTheEncoding : Obligations.DecodesWordsWrittenFromTheEncoding := by
  refine ⟨?_, ?_, ?_, ?_⟩
  all_goals decide

end Sys2Proof
end

section
/-! PROOFS. DECODE's checks (42_decoder.md R160 to R166): what an `Ok` result says of its span, what DECODE answers for a candidate
frame, and the step that consumes the candidate and writes the routed answer (44_synchronizer.md R245). -/

namespace Sys2Proof.Machine

theorem wellChecksummed_iff (f : List Byte) :
    wellChecksummed f = true ↔ checksum (slice f 3 (3 + declaredLen f)) = byteAt f (3 + declaredLen f) := by
  rw [wellChecksummed, beq_iff_eq, eq_comm]

/-- Settles O16: an `Ok` result has passed every check. -/
theorem decodedPayloadsAreChecked : Obligations.DecodedPayloadsAreChecked := by
  intro p ft t raw fixed data h
  obtain ⟨⟨hlong, -⟩, ⟨-, herr⟩ | ⟨k, hreg, hok⟩⟩ := decodeFrame_eq_some h
  · cases herr
  · obtain ⟨htype, hbyte, hlen, hmin, hchk, -, -⟩ := decodeAs_eq_ok hok.symm
    obtain ⟨hfixed, -⟩ := length_of_decodeAs_eq_ok hok.symm
    exact ⟨htype, hbyte, by omega, (wellChecksummed_iff raw).2 hchk, k, hreg, hmin, hfixed⟩

/-! The registry lookup. -/

/-- A type the core receives is supported; one it encodes, where RX_ACCEPT_TX_TYPES is true (30_encoding.md R104). -/
theorem registry_code_of_accepted {p : Params} {t : FrameType} (h : isTxType t = false ∨ p.rxAcceptTxTypes = true) :
    registry p t.code = some t := by
  rw [registry_code]
  obtain htx | haccept := h
  · simp [htx]
  · simp [haccept]

theorem registry_code_of_refused {p : Params} {t : FrameType} (htx : isTxType t = true) (h : p.rxAcceptTxTypes = false) :
    registry p t.code = none := by
  rw [registry_code, htx, h]
  rfl

/-! DECODE on a candidate: its type byte and its length always pass checks 1 and 2. -/

/-- DECODE's answer for a candidate of a supported type. -/
theorem decodeFrame_candidate {p : Params} {ft : Byte} {t : FrameType} {len : BitVec 16} {rest : List Byte}
    (hreg : registry p ft = some t) (hlen : rest.length = len.toNat) :
    decodeFrame p ft (frameBytes len ft rest) = some (decodeAs t ft (frameBytes len ft rest)) := by
  have hb := len.isLt
  rw [decodeFrame_of_domain p ft (by rw [length_frameBytes]; omega) (by rw [length_frameBytes]; omega), hreg]

/-- DECODE's answer for a candidate of an unsupported type. -/
theorem decodeFrame_candidate_unsupported {p : Params} {ft : Byte} {len : BitVec 16} {rest : List Byte}
    (hreg : registry p ft = none) (hlen : rest.length = len.toNat) :
    decodeFrame p ft (frameBytes len ft rest) = some (.err .unsupportedFrameType ft 0 0) := by
  have hb := len.isLt
  rw [decodeFrame_of_domain p ft (by rw [length_frameBytes]; omega) (by rw [length_frameBytes]; omega), hreg]

/-- Check 3 on a candidate. -/
theorem decodeAs_candidate_tooShort {t : FrameType} {ft : Byte} {len : BitVec 16} {rest : List Byte}
    (hlen : rest.length = len.toNat) (hshort : len.toNat < minLen t) :
    decodeAs t ft (frameBytes len ft rest) = .err .frameTooShort ft len (BitVec.ofNat 16 (minLen t)) := by
  have hbyte : byteAt (frameBytes len ft rest) 3 = ft := rfl
  simp [decodeAs, hbyte, hlen, hshort, info16]

/-- Check 4 on a candidate, and the `Ok` result behind it. -/
theorem decodeAs_candidate_checked {t : FrameType} {ft c : Byte} {len : BitVec 16} {body : List Byte}
    (hlen : body.length + 1 = len.toNat) (hmin : minLen t ≤ len.toNat) :
    decodeAs t ft (frameBytes len ft (body ++ [c])) =
      if checksum (ft :: body) ≠ c then
        .err .checksumError ft (info16 (checksum (ft :: body)).toNat) (info16 c.toNat)
      else .ok ft (slice (frameBytes len ft (body ++ [c])) 4 (3 + minLen t))
        (if hasPayload t then slice (frameBytes len ft (body ++ [c])) (3 + minLen t) (3 + len.toNat) else []) := by
  have hbyte : byteAt (frameBytes len ft (body ++ [c])) 3 = ft := rfl
  have hshort : ¬len.toNat < minLen t := by omega
  simp [decodeAs, hbyte, slice_frameBytes_checked hlen, byteAt_frameBytes_last hlen, hlen, hshort]

/-- The part of a list between two others. -/
theorem slice_append_middle {a b c : List Byte} {i j : Nat} (hi : a.length = i) (hj : i + b.length = j) :
    slice (a ++ b ++ c) i j = b := by
  rw [slice, List.append_assoc, List.drop_left' hi, List.take_left' (by omega)]

/-- The `Ok` result of a candidate: the `NFIX` bytes behind the type byte and, for a type with a payload, the bytes between
them and the checksum byte. -/
theorem decodeAs_candidate_ok {t : FrameType} (ft : Byte) {len : BitVec 16} {fixed data : List Byte}
    (hfixed : fixed.length = nfix t) (hlen : len.toNat = minLen t + data.length) :
    decodeAs t ft (frameBytes len ft (fixed ++ data ++ [checksum (ft :: (fixed ++ data))])) =
      .ok ft fixed (if hasPayload t then data else []) := by
  have hpos : 1 ≤ minLen t := by cases t <;> decide
  have hmin : fixed.length + 1 = minLen t := by rw [hfixed, nfix]; omega
  have hbody : (fixed ++ data).length + 1 = len.toNat := by rw [List.length_append]; omega
  rw [decodeAs_candidate_checked hbody (by omega), if_neg (not_not.mpr rfl)]
  generalize checksum (ft :: (fixed ++ data)) = c
  have hfixedSpan : slice (frameBytes len ft (fixed ++ data ++ [c])) 4 (3 + minLen t) = fixed := by
    rw [List.append_assoc]
    exact slice_append_middle (a := [sof, hi8 len, lo8 len, ft]) rfl (by omega)
  have hdataSpan : slice (frameBytes len ft (fixed ++ data ++ [c])) (3 + minLen t) (3 + len.toNat) = data :=
    slice_append_middle (a := sof :: hi8 len :: lo8 len :: ft :: fixed) (by simp; omega) (by omega)
  rw [hfixedSpan, hdataSpan]

/-! SYNC_FRAME on a candidate at the head of the buffer. -/

/-- Settles O25: check 3 fails before the checksum is read. -/
theorem frameBelowMinimumIsTooShort : Obligations.FrameBelowMinimumIsTooShort := by
  intro s t len rest tail hrun hevt hreg hlen hshort h8 hq
  have hres := decodeFrame_candidate hreg hlen
  rw [decodeAs_candidate_tooShort hlen hshort] at hres
  rw [exec_frameInstr]
  exact syncFrame_of_head hrun hevt hlen hq h8 hres

/-- A byte as an info field. -/
theorem info16_toNat (b : Byte) : info16 b.toNat = b.setWidth 16 := BitVec.ofNat_toNat 16 b

/-- Settles O26: check 4 fails. -/
theorem badChecksumIsReported : Obligations.BadChecksumIsReported := by
  intro s t len body tail c hrun hevt hreg hbody hmin hchk h8 hq
  have hlen : (body ++ [c]).length = len.toNat := by rw [List.length_append, List.length_singleton, hbody]
  have hres := decodeFrame_candidate hreg hlen
  rw [decodeAs_candidate_checked hbody.symm hmin, if_pos hchk.symm, info16_toNat, info16_toNat] at hres
  rw [exec_frameInstr]
  exact syncFrame_of_head hrun hevt hlen hq h8 hres

/-- Settles O43: check 0 fails, for a byte outside the enumeration and for the two types that need RX_ACCEPT_TX_TYPES. -/
theorem unsupportedFrameCompletes : Obligations.UnsupportedFrameCompletes := by
  intro s len ft rest tail hrun hevt hlen h8 hq
  have completes (hreg : registry s.params ft = none) :=
    syncFrame_of_head hrun hevt hlen hq h8 (decodeFrame_candidate_unsupported hreg hlen)
  refine ⟨fun hunknown => ?_, fun hft haccept => ?_, fun hft haccept => ?_⟩
  · exact completes (by simp only [registry, hunknown])
  · subst hft
    exact completes (registry_code_of_refused (t := .atCommand) rfl haccept)
  · subst hft
    exact completes (registry_code_of_refused (t := .transmit) rfl haccept)

/-- SYNC_FRAME on a good candidate of a supported type: it is consumed and `evt` holds the routed `Ok` result. The eight bytes
that SYNC_FRAME waits for are the candidate's own where the type's minimum is 4 or more. -/
theorem syncFrame_of_good_candidate {s : State} {t : FrameType} {len : BitVec 16} {fixed data tail : List Byte}
    (hsupported : isTxType t = false ∨ s.params.rxAcceptTxTypes = true) (hfixed : fixed.length = nfix t)
    (hrun : s.core.run = true) (hevt : s.core.evt = none) (hlen : len.toNat = minLen t + data.length)
    (h8 : 4 ≤ minLen t ∨ 8 ≤ s.core.rxq.length)
    (hq : s.core.rxq = frameBytes len t.code (fixed ++ data ++ [checksum (t.code :: (fixed ++ data))]) ++ tail) :
    syncFrame t.code len (fixed ++ data ++ [checksum (t.code :: (fixed ++ data))]) s =
      .next { s with core := { s.core with
        rxq := tail
        evt := some (routeOk t.code fixed (if hasPayload t then data else []) s.core.reg) } } := by
  have hpos : 1 ≤ minLen t := by cases t <;> decide
  have hrest : (fixed ++ data ++ [checksum (t.code :: (fixed ++ data))]).length = len.toNat := by
    simp only [List.length_append, List.length_singleton, hfixed, nfix]; omega
  have hres := decodeFrame_candidate (registry_code_of_accepted hsupported) hrest
  rw [decodeAs_candidate_ok t.code hfixed hlen] at hres
  have h8 : 8 ≤ s.core.rxq.length := by
    obtain hmin | h8 := h8
    · rw [hq, List.length_append, length_frameBytes, hrest]; omega
    · exact h8
  exact syncFrame_of_head hrun hevt hrest hq h8 hres

/-- Settles O18: a good candidate of type 0x08, with RX_ACCEPT_TX_TYPES true. -/
theorem atCommandFrameCompletes : Obligations.AtCommandFrameCompletes := by
  intro s _ _ _ data tail len hrun hevt haccept hlen hq
  exact syncFrame_of_good_candidate (t := .atCommand) (.inr haccept) rfl hrun hevt hlen (.inl (by decide)) hq

/-- Settles O19: a good candidate of type 0x10, with RX_ACCEPT_TX_TYPES true. -/
theorem transmitFrameCompletes : Obligations.TransmitFrameCompletes := by
  intro s _ _ _ _ _ _ _ _ _ _ _ _ _ data tail len hrun hevt haccept hlen hq
  exact syncFrame_of_good_candidate (t := .transmit) (.inr haccept) rfl hrun hevt hlen (.inl (by decide)) hq

/-- Settles O20: a good candidate of type 0x88. -/
theorem atResponseFrameCompletes : Obligations.AtResponseFrameCompletes := by
  intro s _ _ _ _ data tail len hrun hevt hlen hq
  exact syncFrame_of_good_candidate (t := .atResponse) (.inl rfl) rfl hrun hevt hlen (.inl (by decide)) hq

/-- Settles O21: a good candidate of type 0x8A, a type without payload and the only one whose frames can be shorter than
eight bytes. -/
theorem modemStatusFrameCompletes : Obligations.ModemStatusFrameCompletes := by
  intro s _ extra tail len hrun hevt hlen h8 hq
  exact syncFrame_of_good_candidate (t := .modemStatus) (.inl rfl) rfl hrun hevt hlen (.inr h8) hq

/-- Settles O22: a good candidate of type 0x8B, a type without payload. -/
theorem txStatusFrameCompletes : Obligations.TxStatusFrameCompletes := by
  intro s _ _ _ _ _ _ extra tail len hrun hevt hlen hq
  exact syncFrame_of_good_candidate (t := .txStatus) (.inl rfl) rfl hrun hevt hlen (.inl (by decide)) hq

/-- Settles O23: a good candidate of type 0x90. -/
theorem receiveFrameCompletes : Obligations.ReceiveFrameCompletes := by
  intro s _ _ _ _ _ _ _ _ _ _ _ data tail len hrun hevt hlen hq
  exact syncFrame_of_good_candidate (t := .receive) (.inl rfl) rfl hrun hevt hlen (.inl (by decide)) hq

/-- Settles O24: a good candidate of type 0x91. -/
theorem explicitReceiveFrameCompletes : Obligations.ExplicitReceiveFrameCompletes := by
  intro s _ _ _ _ _ _ _ _ _ _ _ _ _ _ _ _ _ data tail len hrun hevt hlen hq
  exact syncFrame_of_good_candidate (t := .explicitReceive) (.inl rfl) rfl hrun hevt hlen (.inl (by decide)) hq

end Sys2Proof.Machine
end

section
/-! PROOFS. The turns of the command unit and the control port that run what they decode (45_dispatch_engine.md R270, R293), and the
control beats (30_encoding.md R116, 45_dispatch_engine.md R284, R285). -/

namespace Sys2Proof.Machine

/-- A turn of the core while reset is not asserted, whether the list of turns or the free choice gives it. -/
theorem step_of_core_turn {s : State} {a : Agent} (h : (nextTurn s).1 = .core a) (hreset : s.ports.resetIn = false) :
    step s = agentTurn a (nextTurn s).2 := by
  simp [step, takeTurn, h, hreset]

theorem commandTurn_of_offered {s : State} {c : Command} {cs : List Command} {i : Instr} (hidle : s.core.cu = .idle)
    (hoffered : s.ports.cmdIn = c :: cs) (hdecode : decode (.command c.header c.data) = .ok i) :
    commandTurn s = exec i (s.withPorts { s.ports with cmdIn := cs }) := by
  have hdecode : decodeCommand c.header c.data = .ok i := hdecode
  simp only [commandTurn, hidle, hoffered, hdecode]

theorem controlTurn_of_offered {s : State} {op : BitVec 2} {ops : List (BitVec 2)} (hoffered : s.ports.ctlIn = op :: ops) :
    controlTurn s = exec (decodeControl op) (s.withPorts { s.ports with ctlIn := ops }) := by
  simp only [controlTurn, hoffered]

/-- Settles O6: the command unit's turn on the state with the turn taken. -/
theorem stepRunsDecodedCommand : Obligations.StepRunsDecodedCommand := by
  intro s i c cs hturn hreset hidle hoffered hdecode
  rw [← nextTurn_core s] at hidle
  rw [← nextTurn_ports s] at hoffered
  rw [step_of_core_turn hturn hreset, agentTurn, commandTurn_of_offered hidle hoffered hdecode, nextTurn_ports]
  rfl

/-- Settles O7: the control port's turn on the state with the turn taken; every beat decodes. -/
theorem stepRunsDecodedControl : Obligations.StepRunsDecodedControl := by
  intro s i op ops hturn hreset hoffered hdecode
  obtain rfl : decodeControl op = i := Except.ok.inj hdecode
  rw [← nextTurn_ports s] at hoffered
  rw [step_of_core_turn hturn hreset, agentTurn, controlTurn_of_offered hoffered, nextTurn_ports]
  rfl

theorem execCtlBegin_of_stopped {s : State} (hok : s.ports.transportOk = true) (hstopped : s.core.run = false) :
    execCtlBegin s = .next (s.withRun true) := by
  rw [execCtlBegin, hok, hstopped]; rfl

theorem execCtlBegin_without_effect {s : State} (h : s.ports.transportOk = false ∨ s.core.run = true) :
    execCtlBegin s = .next s := by
  obtain hok | hrun := h
  · rw [execCtlBegin, hok]; rfl
  · rw [execCtlBegin, hrun, Bool.not_true, Bool.and_false]; rfl

/-- Settles O42: BEGIN where it sets `run` and where it does not, END, and the two beats without effect. -/
theorem controlBeatsSetAndClearRun : Obligations.ControlBeatsSetAndClearRun := fun _ =>
  ⟨execCtlBegin_of_stopped, execCtlBegin_without_effect, rfl, rfl, rfl⟩

end Sys2Proof.Machine
end

section
/-! PROOFS. CHECKSUM as the complement of the wrapping byte sum: the corner cases and the verification identity (41_checksum.md R152,
R153). -/

namespace Sys2Proof.Machine

/-! CHECKSUM and the byte sum say the same of a span. -/

theorem checksum_eq_iff (b : List Byte) (c : Byte) : checksum b = c ↔ byteSum (b ++ [c]) = 0xFF := by
  rw [checksum, sub_eq_iff_eq_add', eq_comm, byteSum_append, byteSum_cons, byteSum_nil, add_zero]

theorem checksum_inj {b c : List Byte} : checksum b = checksum c ↔ byteSum b = byteSum c := sub_right_inj

/-- Where the sum of the bytes is a multiple of 256 the wrapping sum is zero. -/
theorem checksum_of_sum_mod {b : List Byte} (h : (b.map BitVec.toNat).sum % 256 = 0) : checksum b = 0xFF := by
  have hzero : byteSum b = 0 := BitVec.eq_of_toNat_eq (by rw [toNat_byteSum, h]; rfl)
  rw [checksum, hzero]
  rfl

/-! What does not change the byte sum, and what does. -/

theorem byteSum_perm {b c : List Byte} (h : b.Perm c) : byteSum b = byteSum c :=
  BitVec.eq_of_toNat_eq (by rw [toNat_byteSum, toNat_byteSum, (h.map BitVec.toNat).sum_eq])

theorem byteSum_middle_inj {b c : List Byte} {x y : Byte} :
    byteSum (b ++ x :: c) = byteSum (b ++ y :: c) ↔ x = y := by
  rw [byteSum_append, byteSum_append, byteSum_cons, byteSum_cons, add_right_inj, add_left_inj]

theorem byteSum_shift (a b c : List Byte) (x y d : Byte) :
    byteSum (a ++ x :: (b ++ y :: c)) = byteSum (a ++ (x + d) :: (b ++ (y - d) :: c)) := by
  simp only [byteSum_append, byteSum_cons]
  ring

/-- Settles O13: equal checksums are equal byte sums, and addition modulo 256 is commutative and cancels. -/
theorem checksumCornerCases : Obligations.ChecksumCornerCases := by
  refine ⟨rfl, fun _ => checksum_of_sum_mod, rfl, rfl, rfl, fun acc => ?_, fun _ _ h => ?_, fun _ _ _ _ h => ?_, ?_⟩
  · exact ⟨BitVec.allOnes_sub_eq_not acc, Nat.le_of_lt_succ acc.isLt⟩
  · exact checksum_inj.2 (byteSum_perm h)
  · exact fun heq => h (byteSum_middle_inj.1 (checksum_inj.1 heq))
  · exact fun a b c x y d => checksum_inj.2 (byteSum_shift a b c x y d)

/-! The verification identity. -/

theorem wellChecksummed_iff_byteSum {f : List Byte} (h : f.length = declaredLen f + 4) :
    wellChecksummed f = true ↔ byteSum (slice f 3 (3 + declaredLen f + 1)) = 0xFF := by
  rw [wellChecksummed_iff, checksum_eq_iff, slice_succ (by omega) (by omega)]

/-- Only check 4 answers CHECKSUM_ERROR. -/
theorem decodeAs_eq_checksumError {t : FrameType} {ft ft' : Byte} {raw : List Byte} {a b : BitVec 16}
    (h : decodeAs t ft raw = .err .checksumError ft' a b) :
    a = info16 (checksum (slice raw 3 (3 + declaredLen raw))).toNat := by
  unfold decodeAs at h
  simp only at h
  split at h
  · cases h
  · split at h
    · cases h
    · split at h
      · cases h
      · split at h
        · cases h; rfl
        · cases h

/-- Settles O14: the byte behind the checked span completes its sum to `0xFF`, and check 4 reports what it recomputed. -/
theorem checksumVerificationIdentity : Obligations.ChecksumVerificationIdentity := by
  refine ⟨fun f hlen => ?_, fun p ft t raw a b h => ?_⟩
  · rw [wellChecksummed_iff_byteSum hlen, ← toNat_byteSum]
    exact BitVec.toNat_inj.symm
  · obtain ⟨-, ⟨-, herr⟩ | ⟨k, -, hres⟩⟩ := decodeFrame_eq_some h
    · cases herr
    · rw [decodeAs_eq_checksumError hres.symm, info16_toNat]
      exact BitVec.toNat_setWidth_of_le (by decide)

end Sys2Proof.Machine
end

section
/-! PROOFS. DECODE in both directions: its answer check by check on any span of its domain (42_decoder.md R160 to R166,
R174), and the round trip through the frame builder (R178). -/

namespace Sys2Proof.Machine

/-! The answer of each of checks 1 to 4, the checks before it having passed. -/

section
variable {t : FrameType} {ft : Byte} {raw : List Byte}

theorem decodeAs_of_other_type (hother : byteAt raw 3 ≠ ft) :
    decodeAs t ft raw = .err .invalidFrameType ft (info16 ft.toNat) (info16 (byteAt raw 3).toNat) :=
  if_pos hother

theorem decodeAs_of_length_mismatch (htype : byteAt raw 3 = ft) (hlen : declaredLen raw ≠ raw.length - 4) :
    decodeAs t ft raw = .err .frameLengthError ft (info16 (declaredLen raw)) (info16 (raw.length - 4)) := by
  rw [decodeAs, if_neg (not_not.mpr htype), if_pos hlen]

theorem decodeAs_of_too_short (htype : byteAt raw 3 = ft) (hlen : declaredLen raw = raw.length - 4)
    (hshort : declaredLen raw < minLen t) :
    decodeAs t ft raw = .err .frameTooShort ft (info16 (declaredLen raw)) (info16 (minLen t)) := by
  rw [decodeAs, if_neg (not_not.mpr htype), if_neg (not_not.mpr hlen), if_pos hshort]

/-- Check 4, which decides once the others have passed (42_decoder.md R165, R166). -/
theorem decodeAs_of_long_enough (htype : byteAt raw 3 = ft) (hlen : declaredLen raw = raw.length - 4)
    (hmin : minLen t ≤ declaredLen raw) :
    decodeAs t ft raw =
      if checksum (slice raw 3 (3 + declaredLen raw)) ≠ byteAt raw (3 + declaredLen raw) then
        .err .checksumError ft (info16 (checksum (slice raw 3 (3 + declaredLen raw))).toNat)
          (info16 (byteAt raw (3 + declaredLen raw)).toNat)
      else .ok ft (slice raw 4 (3 + minLen t))
        (if hasPayload t then slice raw (3 + minLen t) (3 + declaredLen raw) else []) := by
  rw [decodeAs, if_neg (not_not.mpr htype), if_neg (not_not.mpr hlen), if_neg (Nat.not_lt.mpr hmin)]

end

/-- Settles O15: in the domain the registry decides check 0, and each further check answers once those before it have passed. -/
theorem firstFailingCheckGivesTheResult : Obligations.FirstFailingCheckGivesTheResult := by
  intro p ft raw hlow hhigh
  rw [decodeFrame_of_domain p ft hlow hhigh]
  refine ⟨fun hreg => by rw [hreg], fun t hreg => ?_⟩
  rw [hreg]
  refine ⟨fun hother => ?_, fun htype hlen => ?_, fun htype hlen hshort => ?_, fun htype hlen hmin hchk => ?_,
    fun htype hlen hmin hchk => ?_⟩
  · exact congrArg some (decodeAs_of_other_type hother)
  · exact congrArg some (decodeAs_of_length_mismatch htype hlen)
  · exact congrArg some (decodeAs_of_too_short htype hlen hshort)
  · exact congrArg some ((decodeAs_of_long_enough htype hlen hmin).trans (if_pos hchk))
  · exact congrArg some ((decodeAs_of_long_enough htype hlen hmin).trans (if_neg (not_not.mpr hchk)))

/-- Decoding a built frame of a supported type gives back what it was built from: the fixed bytes and, for a type with a
payload, the data. -/
theorem decodeFrame_mkframe {p : Params} {t : FrameType} {fixed data : List Byte}
    (hsupported : isTxType t = false ∨ p.rxAcceptTxTypes = true) (hfixed : fixed.length = nfix t)
    (hfits : minLen t + data.length ≤ 65535) :
    decodeFrame p t.code (mkframe (t.code :: (fixed ++ data))) =
      some (.ok t.code fixed (if hasPayload t then data else [])) := by
  have hpos : 1 ≤ minLen t := by cases t <;> decide
  have hbody : (fixed ++ data).length + 1 = minLen t + data.length := by rw [List.length_append, hfixed, nfix]; omega
  have hlen : (BitVec.ofNat 16 ((fixed ++ data).length + 1)).toNat = minLen t + data.length := by
    rw [hbody, BitVec.toNat_ofNat]
    exact Nat.mod_eq_of_lt (by omega)
  have hrest : (fixed ++ data ++ [checksum (t.code :: (fixed ++ data))]).length =
      (BitVec.ofNat 16 ((fixed ++ data).length + 1)).toNat := by
    rw [hlen, List.length_append, List.length_singleton, hbody]
  rw [mkframe_cons, decodeFrame_candidate (registry_code_of_accepted hsupported) hrest,
    decodeAs_candidate_ok t.code hfixed hlen]

/-! The encoders' bodies as the type byte, the fixed bytes and the variable part. -/

theorem transmitBody_eq (a16v : BitVec 1) (options : Byte) (w16 : BitVec 16) (addr64 : BitVec 64) (payload : List Byte) :
    transmitBody a16v options w16 addr64 payload =
      FrameType.transmit.code ::
        ((0x00 :: (addr64Bytes addr64 ++ addr16Operand a16v w16 ++ [0x00, options])) ++ payload) := by
  simp [transmitBody]

theorem atCommandBody_eq (frameId : Byte) (w16 : BitVec 16) (param : List Byte) :
    atCommandBody frameId w16 param = FrameType.atCommand.code :: ((frameId :: w16Bytes w16) ++ param) := rfl

theorem length_addr16Operand (a16v : BitVec 1) (w16 : BitVec 16) : (addr16Operand a16v w16).length = 2 := by
  unfold addr16Operand
  split <;> rfl

/-- Settles O38: both encoders' frames are built frames of a type decoded under RX_ACCEPT_TX_TYPES. -/
theorem encodedFramesDecodeToTheSameFields : Obligations.EncodedFramesDecodeToTheSameFields := by
  refine fun p haccept => ⟨fun a16v options w16 addr64 payload hlen => ?_, fun frameId w16 param hlen => ?_⟩
  · have hfixed : (0x00 :: (addr64Bytes addr64 ++ addr16Operand a16v w16 ++ [0x00, options])).length = nfix .transmit := by
      simp [addr64Bytes, length_addr16Operand, nfix, minLen]
    rw [transmitBody_eq]
    exact decodeFrame_mkframe (t := .transmit) (.inr haccept) hfixed (by simp only [minLen]; omega)
  · rw [atCommandBody_eq]
    exact decodeFrame_mkframe (t := .atCommand) (.inr haccept) rfl (by simp only [minLen]; omega)

end Sys2Proof.Machine
end

section
/-! PROOFS. The frame builder and the encoders (43_encoder.md R200 to R213): a built frame has the three properties of R202, the
answers DECODE can then still give, and each encoder's effect on an idle unit, refusals included. -/

namespace Sys2Proof.Machine

/-! The three properties of a built frame (43_encoder.md R202). -/

section
variable {t : Byte} {rest : List Byte}

/-- The length field of a built frame holds its body's length whole. -/
theorem declaredLen_mkframe (hfits : (t :: rest).length ≤ 65535) :
    declaredLen (mkframe (t :: rest)) = (t :: rest).length := by
  rw [mkframe_cons, declaredLen_frameBytes, BitVec.toNat_ofNat]
  exact Nat.mod_eq_of_lt (Nat.lt_succ_of_le hfits)

theorem byteAt_mkframe_three : byteAt (mkframe (t :: rest)) 3 = t := rfl

theorem wellChecksummed_mkframe (hfits : (t :: rest).length ≤ 65535) : wellChecksummed (mkframe (t :: rest)) = true := by
  have hlen := declaredLen_mkframe hfits
  rw [mkframe_cons, declaredLen_frameBytes, List.length_cons] at hlen
  rw [wellChecksummed_iff, mkframe_cons, declaredLen_frameBytes, slice_frameBytes_checked hlen.symm,
    byteAt_frameBytes_last hlen.symm]

end

/-- A span that passes the type, length and checksum checks can only fail check 0 or the minimum (42_decoder.md R161, R164). -/
theorem decodeFrame_err_of_checks_pass {p : Params} {c : ErrCode} {ft ft' : Byte} {raw : List Byte} {a b : BitVec 16}
    (htype : byteAt raw 3 = ft) (hlen : declaredLen raw = raw.length - 4) (hchk : wellChecksummed raw = true)
    (h : decodeFrame p ft raw = some (.err c ft' a b)) : c = .unsupportedFrameType ∨ c = .frameTooShort := by
  obtain ⟨-, ⟨-, herr⟩ | ⟨k, -, hres⟩⟩ := decodeFrame_eq_some h
  · cases herr
    exact .inl rfl
  · rcases Nat.lt_or_ge (declaredLen raw) (minLen k) with hshort | hmin
    · rw [decodeAs_of_too_short htype hlen hshort] at hres
      cases hres
      exact .inr rfl
    · rw [decodeAs_of_long_enough htype hlen hmin, if_neg (not_not.mpr ((wellChecksummed_iff raw).1 hchk))] at hres
      cases hres

/-- Settles O37: a built frame has R202's properties, which are what checks 1 to 3 test. -/
theorem builtFramesPassChecksOneToThree : Obligations.BuiltFramesPassChecksOneToThree := by
  intro t rest hfits
  have hchk := wellChecksummed_mkframe hfits
  have hlen : declaredLen (mkframe (t :: rest)) = (mkframe (t :: rest)).length - 4 := by
    rw [declaredLen_mkframe hfits, length_mkframe, Nat.add_sub_cancel]
  refine ⟨hchk, hlen, rfl, fun p c ft a b h => ?_⟩
  obtain rfl | rfl := decodeFrame_err_of_checks_pass byteAt_mkframe_three hlen hchk h <;> decide

/-! ENCODE_TRANSMIT's effect (43_encoder.md R205, R206). -/

section
variable {a16v : BitVec 1} {options : Byte} {w16 : BitVec 16} {addr64 : BitVec 64} {payload : List Byte} {s : State}

theorem encodeTransmitEffect_of_wrong_length {n : BitVec 4} (h : n ≠ 8) :
    encodeTransmitEffect n a16v options w16 addr64 payload s = answer .invalidAddressLength s := if_pos h

theorem encodeTransmitEffect_of_too_long (h : 65535 < 14 + payload.length) :
    encodeTransmitEffect 8 a16v options w16 addr64 payload s = answer .encodeTooLong s := by
  rw [encodeTransmitEffect, if_neg (not_not.mpr rfl), if_pos h]

theorem encodeTransmitEffect_of_fits (h : 14 + payload.length ≤ 65535) :
    encodeTransmitEffect 8 a16v options w16 addr64 payload s =
      startFrame 0x00 (transmitBody a16v options w16 addr64 payload) s := by
  rw [encodeTransmitEffect, if_neg (not_not.mpr rfl), if_neg (Nat.not_lt.mpr h)]

theorem exec_encodeTransmit_of_idle (hidle : s.core.cu = .idle) (n : BitVec 4) :
    exec (.encodeTransmit n a16v options w16 addr64 payload) s =
      .next (encodeTransmitEffect n a16v options w16 addr64 payload s) := whenIdle_of_idle hidle

end

/-- Settles O39: the effect on an idle unit, its frame written out. -/
theorem encodeTransmitCompletes : Obligations.EncodeTransmitCompletes := by
  intro s a16v options w16 addr64 payload body hidle hlen hbody
  have hbody' : transmitBody a16v options w16 addr64 payload = body := hbody.symm
  rw [exec_encodeTransmit_of_idle hidle, encodeTransmitEffect_of_fits (by omega), hbody', startFrame_eq]
  rfl

/-! ENCODE_AT_COMMAND's refusals (43_encoder.md R211): the counter is not taken. -/

section
variable {w16 : BitVec 16} {param : List Byte} {s : State}

theorem encodeAtCommandEffect_of_wrong_length {m : BitVec 2} (h : m ≠ 2) :
    encodeAtCommandEffect m w16 param s = answer .invalidCommandLength s := if_pos h

theorem encodeAtCommandEffect_of_too_long (h : 65535 < 4 + param.length) :
    encodeAtCommandEffect 2 w16 param s = answer .encodeTooLong s := by
  rw [encodeAtCommandEffect, if_neg (not_not.mpr rfl), if_pos h]

theorem exec_encodeAtCommand_of_idle (hidle : s.core.cu = .idle) (m : BitVec 2) :
    exec (.encodeAtCommand m w16 param) s = .next (encodeAtCommandEffect m w16 param s) := whenIdle_of_idle hidle

end

/-- Settles O45: the operand's length decides first and the overall length second, each answering with an empty frame. -/
theorem encodeErrorsQueueNothing : Obligations.EncodeErrorsQueueNothing := by
  intro s n m a16v options w16 addr64 payload hidle
  rw [exec_encodeTransmit_of_idle hidle, exec_encodeAtCommand_of_idle hidle]
  refine ⟨fun hn => ?_, fun hn hlong => ?_, fun hm => ?_, fun hm hlong => ?_⟩
  · rw [encodeTransmitEffect_of_wrong_length hn]; rfl
  · rw [hn, encodeTransmitEffect_of_too_long (by omega)]; rfl
  · rw [encodeAtCommandEffect_of_wrong_length hm]; rfl
  · rw [hm, encodeAtCommandEffect_of_too_long (by omega)]; rfl

end Sys2Proof.Machine
end

section
/-! PROOFS. The synchronizer's turn (44_synchronizer.md R241 to R247): a turn without an enabled step, SYNC_SEEK, SYNC_FRAME as the
instruction it runs, and what waits. -/

namespace Sys2Proof.Machine

/-! A turn without an enabled step. -/

/-- Every effect but waiting is that of an enabled step. -/
theorem AgentEffect.eq_of_not_enabled {a : Agent} {s t : State} (h : AgentEffect s a t) (hidle : enabled a s = false) :
    t = s := by
  cases h
  case wait => rfl
  case rxAccept b bs hrun hroom hoffered => simp [enabled, hrun, hroom, hoffered] at hidle
  case syncSeek hrun hseek => simp [enabled, hrun, hseek] at hidle
  case syncFrame hframe =>
    obtain ⟨ft, len, rest, res, hen, -, -, -⟩ := hframe
    obtain ⟨hrun, hevt, hready, -⟩ := (frameEnabled_iff _ _).mp hen
    simp [enabled, hrun, hevt, hready] at hidle
  case txEmit x q hrun hready hqueued => simp [enabled, hrun, hready, hqueued] at hidle
  case evtTake e hready hpending => simp [enabled, hready, hpending] at hidle
  case cmdAccept c cs hcu hoffered hwhole hexec haccept => simp [enabled, hcu, hoffered, hwhole] at hidle
  case cmdAppend b rest resp hbusy hroom => simp [enabled, hbusy, hroom] at hidle
  case respTake resp hbusy hready => simp [enabled, hbusy, hready] at hidle
  case ctlNone op ops hoffered => simp [enabled, hoffered] at hidle
  case ctlBegin ops hoffered hok hstopped => simp [enabled, hoffered] at hidle
  case ctlEnd ops hoffered => simp [enabled, hoffered] at hidle

/-- Settles O8: a turn answers a next state, and what it did is no enabled step's effect. -/
theorem turnWithoutEnabledStepChangesNothing : Obligations.TurnWithoutEnabledStepChangesNothing := by
  intro a s hidle
  obtain ⟨t, ht⟩ := agentTurn_answers_next a s
  rw [ht, (agentTurn_effect ht).eq_of_not_enabled hidle]

/-! What the synchronizer writes. -/

theorem AgentEffect.synchronizer_frame {s t : State} (h : AgentEffect s .synchronizer t) :
    t = { s with core := { s.core with rxq := t.core.rxq, evt := t.core.evt } } := by
  cases h
  case wait => rfl
  case syncSeek => rfl
  case syncFrame hframe => cases hframe; rfl

/-- Settles O29: a frame over every effect of the synchronizer, and the empty buffer as one too short for a step. -/
theorem synchronizerWritesOnlyRxqAndEvt : Obligations.SynchronizerWritesOnlyRxqAndEvt := by
  refine ⟨fun s t h => (agentTurn_effect h).synchronizer_frame, fun s hempty => ?_⟩
  have hwait : syncState s.core.rxq = .waitMin := by rw [hempty]; rfl
  have hidle : enabled .synchronizer s = false := by simp [enabled, hwait]
  exact ⟨hwait, hidle, turnWithoutEnabledStepChangesNothing .synchronizer s hidle⟩

/-! The two steps of the synchronizer. -/

theorem syncTurn_of_seeking {s : State} (hrun : s.core.run = true) (hseek : syncState s.core.rxq = .seekingDelimiter) :
    syncTurn s = .next (s.withRxq (s.core.rxq.drop 1)) := by
  simp [syncTurn, syncSeek, hrun, hseek]

/-- Settles O28: SYNC_SEEK, which does not ask for an empty `evt`. -/
theorem seekDiscardsOneByte : Obligations.SeekDiscardsOneByte := by
  intro s b q hrun hq hb hlen
  have hseek : syncState s.core.rxq = .seekingDelimiter := by
    rw [syncState_eq_seeking, hq]
    exact ⟨Nat.succ_le_succ hlen, hb⟩
  rw [agentTurn, syncTurn_of_seeking hrun hseek, hq]
  rfl

theorem syncTurn_of_frameReady {s : State} {i : Instr} {r : List Byte} (hready : syncState s.core.rxq = .frameReady)
    (hdecode : decodeStream s.core.rxq = .ok (i, r)) : syncTurn s = exec i s := by
  simp only [syncTurn, hready, hdecode]

/-- Settles O5: the synchronizer's turn on the state with the turn taken. -/
theorem stepRunsDecodedFrame : Obligations.StepRunsDecodedFrame := by
  refine ⟨fun s i r hturn hreset hready hdecode => ?_, fun s t ts hsched => ?_⟩
  · rw [← nextTurn_core s] at hready hdecode
    rw [step_of_core_turn hturn hreset, agentTurn, syncTurn_of_frameReady hready hdecode]
  · simp only [nextTurn, hsched]

/-! Instructions that wait. -/

/-- A frame instruction, in whichever of its row's constructors it is written, is SYNC_FRAME on the frame it encodes to. -/
theorem exec_of_encode_frame {i : Instr} {raw : List Byte} (h : encode i = .frame raw) (s : State) :
    ∃ ft len rest, raw = frameBytes len ft rest ∧ exec i s = syncFrame ft len rest s := by
  cases i
  case frameAtCommand | frameTransmit | frameAtResponse | frameModemStatus | frameTxStatus | frameReceive
      | frameExplicitReceive | frameUnsupported => exact ⟨_, _, _, (Words.frame.inj h).symm, rfl⟩
  all_goals cases h

/-- A command instruction leaves a busy unit alone (45_dispatch_engine.md R293). -/
theorem exec_command_of_busy {i : Instr} {hd : BitVec 128} {data : List Byte} {s : State} (h : encode i = .command hd data)
    (hbusy : s.core.cu ≠ .idle) : exec i s = .next s := by
  obtain ⟨t, ht⟩ := exec_answers_next i s
  obtain ⟨rfl, -⟩ | ⟨⟨raw, hframe⟩, -⟩ | ⟨-, hidle, -⟩ | ⟨rfl, -⟩ | ⟨rfl, -⟩ := exec_effect ht
  · exact ht
  · rw [h] at hframe; cases hframe
  · exact absurd hidle hbusy
  · cases h
  · cases h

theorem syncFrame_of_not_enabled {ft : Byte} {len : BitVec 16} {rest : List Byte} {s : State}
    (h : frameEnabled (frameBytes len ft rest) s ≠ true) : syncFrame ft len rest s = .next s := if_neg h

/-- Settles O48: CMD_ACCEPT asks for an idle unit, and SYNC_FRAME for the four conditions of R245. -/
theorem instructionsWaitUntilEnabled : Obligations.InstructionsWaitUntilEnabled := by
  refine ⟨fun i hd data rest resp s hencode hcu => ?_, fun i raw s hencode hwaits => ?_⟩
  · exact exec_command_of_busy hencode (by simp [hcu])
  · obtain ⟨ft, len, rest, rfl, hexec⟩ := exec_of_encode_frame hencode s
    rw [hexec]
    refine syncFrame_of_not_enabled fun hen => ?_
    obtain ⟨hrun, hevt, hready, hhead⟩ := (frameEnabled_iff _ _).mp hen
    obtain hstopped | hfull | hother | hother := hwaits
    · rw [hrun] at hstopped; cases hstopped
    · exact hfull hevt
    · exact hother hready
    · exact hother hhead

end Sys2Proof.Machine
end

section
/-! PROOFS. The overlong candidate (44_synchronizer.md R248): the buffer can only grow, up to its capacity, and so never holds it. -/

namespace Sys2Proof.Machine

/-- A candidate at the head of the buffer that is longer than the buffer's capacity and not yet whole. -/
theorem rxOverlong_iff (s : State) :
    rxOverlong s = true ↔
      (8 ≤ s.core.rxq.length ∧ byteAt s.core.rxq 0 = sof ∧ s.core.rxq.length < declaredLen s.core.rxq + 4) ∧
        s.params.rxbufCap < declaredLen s.core.rxq + 4 := by
  rw [rxOverlong, Bool.and_eq_true, decide_eq_true_eq, decide_eq_true_eq, syncState_eq_awaiting]

theorem enabled_synchronizer_of_overlong {s : State} (h : rxOverlong s = true) : enabled .synchronizer s = false := by
  simp only [rxOverlong, Bool.and_eq_true, decide_eq_true_eq] at h
  simp [enabled, h]

/-- What may happen to the inbound buffer and to the event register between two states while no synchronizer step is taken:
bytes arrive as far as the capacity allows, and the event may be delivered. -/
structure OnlyFills (s t : State) : Prop where
  params_eq : t.params = s.params
  rxq_eq : ∃ arrived, t.core.rxq = s.core.rxq ++ arrived ∧ (arrived = [] ∨ t.core.rxq.length ≤ s.params.rxbufCap)
  evt_eq : t.core.evt = s.core.evt ∨ t.core.evt = none

theorem OnlyFills.of_eq {s t : State} (hparams : t.params = s.params) (hrxq : t.core.rxq = s.core.rxq)
    (hevt : t.core.evt = s.core.evt) : OnlyFills s t :=
  ⟨hparams, ⟨[], by rw [hrxq, List.append_nil], .inl rfl⟩, .inl hevt⟩

theorem AcceptEffect.rxq_eq {s t : State} (h : AcceptEffect s t) : t.core.rxq = s.core.rxq := by cases h <;> rfl

theorem AgentEffect.onlyFills {a : Agent} {s t : State} (h : AgentEffect s a t) (hidle : enabled .synchronizer s = false) :
    OnlyFills s t := by
  by_cases ha : a = .synchronizer
  · subst ha
    obtain rfl := h.eq_of_not_enabled hidle
    exact .of_eq rfl rfl rfl
  · cases h
    case syncSeek | syncFrame => exact absurd rfl ha
    case rxAccept b bs hrun hroom hoffered => exact ⟨rfl, ⟨[b], rfl, .inr (by simpa using hroom)⟩, .inl rfl⟩
    case evtTake e hready hpending => exact ⟨rfl, ⟨[], (List.append_nil _).symm, .inl rfl⟩, .inr rfl⟩
    case cmdAccept c cs hcu hoffered hwhole hexec haccept =>
      exact .of_eq haccept.params_eq haccept.rxq_eq haccept.evt_eq
    all_goals exact .of_eq rfl rfl rfl

/-- A step that is not RESET, from a state in which no synchronizer step is enabled. -/
theorem step_onlyFills {s t : State} (h : step s = .next t) (hr : isReset s = false)
    (hidle : enabled .synchronizer s = false) : OnlyFills s t := by
  obtain hcore | ⟨u, a, hcore, -, hparams, -, hagent⟩ := step_core_eq_or_agent h hr
  · exact .of_eq (step_params_eq h) (by rw [hcore]) (by rw [hcore])
  · have hidle : enabled .synchronizer u = false := by rw [← hidle]; simp only [enabled, hcore]
    obtain ⟨hpar, hrxq, hevt⟩ := hagent.onlyFills hidle
    rw [hcore, hparams] at hrxq
    rw [hcore] at hevt
    exact ⟨hpar.trans hparams, hrxq, hevt⟩

/-- A buffer that only fills still does not hold a candidate longer than its capacity. -/
theorem OnlyFills.rxOverlong {s t : State} (h : OnlyFills s t) (hover : rxOverlong s = true) : rxOverlong t = true := by
  obtain ⟨hparams, ⟨arrived, hrxq, hroom⟩, -⟩ := h
  obtain ⟨⟨h8, hsof, hpartial⟩, hcap⟩ := (rxOverlong_iff s).mp hover
  have hdecl : declaredLen t.core.rxq = declaredLen s.core.rxq := by rw [hrxq, declaredLen_append (by omega)]
  have hhead : byteAt t.core.rxq 0 = sof := by rw [hrxq, byteAt_append_left (by omega), hsof]
  have hlong : s.core.rxq.length ≤ t.core.rxq.length := by rw [hrxq, List.length_append]; omega
  rw [rxOverlong_iff, hparams, hdecl]
  refine ⟨⟨by omega, hhead, ?_⟩, hcap⟩
  obtain rfl | hfits := hroom
  · rwa [hrxq, List.append_nil]
  · omega

/-- Settles O30: from an overlong candidate no step but RESET does more than fill the buffer. -/
theorem overlongCandidateStallsUntilReset : Obligations.OverlongCandidateStallsUntilReset := by
  intro s t hover h hr
  have hfills := step_onlyFills h hr (enabled_synchronizer_of_overlong hover)
  have hover' : rxOverlong t = true := hfills.rxOverlong hover
  obtain ⟨-, ⟨arrived, hrxq, -⟩, hevt⟩ := hfills
  obtain ⟨-, -, -, -, -, hbit, -⟩ := status0_fields t
  refine ⟨hover', enabled_synchronizer_of_overlong hover', ⟨arrived, hrxq.symm⟩, hevt, ?_⟩
  rw [hbit, hover']
  rfl

end Sys2Proof.Machine
end

section
/-! PROOFS. The stream law (44_synchronizer.md R250): the bytes accepted determine the synchronizer's actions and the contents of its
events, whatever the order of turns; and resynchronization on garbage before a good frame (R251). -/

namespace Sys2Proof.Machine

/-! What one step takes from the bytes, and what it says of them. -/

/-- A step that is not RESET takes the first of the actions that the buffered bytes determine, or none; whatever arrives
later determines the rest as before. -/
theorem step_acts {s t : State} (h : step s = .next t) (hr : isReset s = false)
    (hcap : s.core.rxq.length ≤ s.params.rxbufCap) (later : List Byte) :
    acts s.params.rxbufCap (s.core.rxq ++ (rxTaken s ++ later)) =
      syncTaken s ++ acts s.params.rxbufCap (t.core.rxq ++ later) := by
  obtain ⟨-, -, ⟨hnone, hrxq⟩ | ⟨hrx, hseek, hstate, hrxq⟩ | ⟨hrx, raw, res, hframe, hstate, rfl, hrxq, -⟩⟩ :=
    step_inbound h hr hcap
  · rw [hnone, hrxq, List.append_assoc, List.nil_append]
  · rw [hrx, hseek, hrxq, List.nil_append, acts_append_seek hstate, List.singleton_append]
  · obtain ⟨-, -, hwhole⟩ := syncState_eq_frameReady.mp hstate
    rw [hrx, hframe, hrxq, List.nil_append, acts_append_frame hstate (hwhole.trans hcap), List.singleton_append]

/-- The event a step produces, if any, says what DECODE gives for the candidate the step took. -/
theorem step_newEvents_content {s t : State} (h : step s = .next t) (hr : isReset s = false)
    (hcap : s.core.rxq.length ≤ s.params.rxbufCap) :
    (newEvents (syncTaken s) t).map Event.content = eventContents s.params (syncTaken s) := by
  obtain ⟨-, -, ⟨hnone, -⟩ | ⟨-, hseek, -, -⟩ | ⟨-, raw, res, hframe, -, -, -, hres, -, hevt⟩⟩ := step_inbound h hr hcap
  · rw [hnone]; rfl
  · rw [hseek]; rfl
  · simp [hframe, newEvents, hevt, eventContents, hres]

/-! The law over runs. -/

/-- What the stream law says of one run. -/
structure InboundLaw (s : State) (r : RunRecord) : Prop where
  acts_eq : acts s.params.rxbufCap (s.core.rxq ++ r.rx) = r.sync ++ acts s.params.rxbufCap r.final.core.rxq
  contents_eq : r.events.map Event.content = eventContents s.params r.sync

theorem InboundLaw.stay (s : State) : InboundLaw s (.stay s) where
  acts_eq := by simp only [RunRecord.stay, List.append_nil, List.nil_append]
  contents_eq := rfl

theorem InboundLaw.afterStep {s t : State} {r : RunRecord} (h : step s = .next t) (hr : isReset s = false)
    (hcap : s.core.rxq.length ≤ s.params.rxbufCap) (hlaw : InboundLaw t r) : InboundLaw s (.afterStep s t r) where
  acts_eq := by
    have hacts := hlaw.acts_eq
    rw [step_params_eq h] at hacts
    calc acts s.params.rxbufCap (s.core.rxq ++ (rxTaken s ++ r.rx))
        = syncTaken s ++ acts s.params.rxbufCap (t.core.rxq ++ r.rx) := step_acts h hr hcap r.rx
      _ = syncTaken s ++ (r.sync ++ acts s.params.rxbufCap r.final.core.rxq) := by rw [hacts]
      _ = syncTaken s ++ r.sync ++ acts s.params.rxbufCap r.final.core.rxq := (List.append_assoc ..).symm
  contents_eq := by
    have hcontents := hlaw.contents_eq
    rw [step_params_eq h] at hcontents
    simp only [RunRecord.afterStep, List.map_append, eventContents_append, step_newEvents_content h hr hcap, hcontents]

theorem runRecord_inbound {n : Nat} {s : State} {r : RunRecord} (h : runRecord n s = some r) (hr : r.hadReset = false)
    (hcap : s.core.rxq.length ≤ s.params.rxbufCap) : InboundLaw s r := by
  refine runRecord_induction (P := fun s r => s.core.rxq.length ≤ s.params.rxbufCap → InboundLaw s r)
    (fun s _ => .stay s) (fun s t r hstep hs ih hcap => ?_) h hr hcap
  obtain ⟨hcap', -⟩ := step_inbound hstep hs hcap
  exact .afterStep hstep hs hcap (ih hcap')

/-- Where nothing but a missing byte holds the synchronizer back, the buffered bytes determine no action. -/
theorem acts_eq_nil_of_not_enabled {s : State} (hrun : s.core.run = true) (hevt : s.core.evt = none)
    (hidle : enabled .synchronizer s = false) (cap : Nat) : acts cap s.core.rxq = [] := by
  cases hstate : syncState s.core.rxq with
  | waitMin => exact acts_waitMin hstate
  | awaitingFullFrame => exact acts_awaiting hstate
  | seekingDelimiter => simp [enabled, hrun, hstate] at hidle
  | frameReady => simp [enabled, hrun, hevt, hstate] at hidle

/-- Settles O31, by induction over the run. -/
theorem streamDeterminesSynchronizerActions : Obligations.StreamDeterminesSynchronizerActions := by
  refine ⟨fun n s r hcap h hr => ?_, fun s hrun hevt hidle => acts_eq_nil_of_not_enabled hrun hevt hidle _⟩
  obtain ⟨hacts, hcontents⟩ := runRecord_inbound h hr hcap
  exact ⟨hacts, hcontents⟩

/-! Garbage before a good frame (44_synchronizer.md R251). -/

/-- Each byte that is no delimiter is discarded by one seek, as long as eight bytes are there. -/
theorem acts_garbage_append {cap : Nat} {g f : List Byte} (hg : ∀ b ∈ g, b ≠ sof) (h8 : 8 ≤ f.length) :
    acts cap (g ++ f) = List.replicate g.length .seek ++ acts cap f := by
  induction g with
  | nil => rfl
  | cons b g ih =>
    obtain ⟨hb, hg⟩ := List.forall_mem_cons.mp hg
    have hseek : syncState (b :: g ++ f) = .seekingDelimiter := by
      rw [syncState_eq_seeking]
      exact ⟨by simp only [List.length_append, List.length_cons]; omega, hb⟩
    rw [acts_seeking hseek]
    exact congrArg (SyncAct.seek :: ·) (ih hg)

/-- One whole frame that fits the buffer is one action. -/
theorem acts_of_one_frame {cap : Nat} {f : List Byte} (hsof : byteAt f 0 = sof) (hlen : f.length = declaredLen f + 4)
    (h8 : 8 ≤ f.length) (hcap : f.length ≤ cap) : acts cap f = [.frame f] := by
  have hready : syncState f = .frameReady := syncState_eq_frameReady.mpr ⟨h8, hsof, hlen.ge⟩
  rw [acts_frameReady hready, ← hlen, if_neg (Nat.not_lt.mpr hcap), List.take_length, List.drop_length]
  rfl

/-- A frame that passes every check decodes to `Ok`. -/
theorem decodeFrame_of_checks_pass {p : Params} {t : FrameType} {f : List Byte} (hlen : f.length = declaredLen f + 4)
    (hchk : wellChecksummed f = true) (hreg : registry p (byteAt f 3) = some t) (hmin : minLen t ≤ declaredLen f) :
    ∃ fixed data, decodeFrame p (byteAt f 3) f = some (.ok (byteAt f 3) fixed data) := by
  have hdecl := declaredLen_lt f
  rw [decodeFrame_of_domain p _ (by omega) (by omega), hreg]
  exact ⟨_, _, congrArg some ((decodeAs_of_long_enough rfl (by omega) hmin).trans
    (if_neg (not_not.mpr ((wellChecksummed_iff f).mp hchk))))⟩

/-- Settles O32: the seeks, then the frame, which passes every check. -/
theorem garbageIsDiscardedAndTheFrameDelivered : Obligations.GarbageIsDiscardedAndTheFrameDelivered := by
  intro p g f t hg hsof hlen hchk hreg hmin h8 hcap
  refine ⟨?_, decodeFrame_of_checks_pass hlen hchk hreg hmin⟩
  rw [acts_garbage_append hg h8, acts_of_one_frame hsof hlen h8 hcap]

end Sys2Proof.Machine
end

section
/-! PROOFS. The dispatch multiplexer (45_dispatch_engine.md R280, R281): the registry lookup finds the first entry of its key and
sees no entry of another key, and a decode result's route reads the lookup or the error slot, never both. -/

namespace Sys2Proof.Machine

/-! The lookup. -/

theorem lookupHandler_of_absent {reg : List RegEntry} {t : Byte} (h : ∀ x ∈ reg, x.key ≠ t) :
    lookupHandler reg t = none := by
  rw [lookupHandler, List.find?_eq_none]
  exact fun x hx => by simpa using h x hx

/-- The first entry of the key is found, whatever follows it. -/
theorem lookupHandler_of_first {reg1 : List RegEntry} {t : Byte} (h : ∀ x ∈ reg1, x.key ≠ t) (hid : Byte)
    (reg2 : List RegEntry) : lookupHandler (reg1 ++ { key := t, hid := hid } :: reg2) t = some { key := t, hid := hid } := by
  have hnone : reg1.find? (fun e => e.key == t) = none := lookupHandler_of_absent h
  rw [lookupHandler, List.find?_append, hnone, Option.none_or, List.find?_cons_of_pos (by simp)]

/-- An entry of another key can be left out. -/
theorem lookupHandler_other_key {k t : Byte} (h : k ≠ t) (hid : Byte) (reg1 reg2 : List RegEntry) :
    lookupHandler (reg1 ++ { key := k, hid := hid } :: reg2) t = lookupHandler (reg1 ++ reg2) t := by
  rw [lookupHandler, lookupHandler, List.find?_append, List.find?_append, List.find?_cons_of_neg (by simpa using h)]

/-! The route. -/

theorem route_ok_of_found {reg : List RegEntry} {t : Byte} {e : RegEntry} (h : lookupHandler reg t = some e)
    (fixed data : List Byte) (errh : Option Byte) :
    route (.ok t fixed data) reg errh = { kind := .handler, hid := e.hid, ftype := t, result := .ok fixed data } := by
  rw [route, routeOk, h]

theorem route_ok_of_not_found {reg : List RegEntry} {t : Byte} (h : lookupHandler reg t = none)
    (fixed data : List Byte) (errh : Option Byte) :
    route (.ok t fixed data) reg errh = { kind := .noHandler, hid := 0, ftype := t, result := .ok fixed data } := by
  rw [route, routeOk, h]

/-- Two registries with the same entry for the type route alike. -/
theorem route_ok_congr {reg reg' : List RegEntry} {t : Byte} (h : lookupHandler reg t = lookupHandler reg' t)
    (fixed data : List Byte) (errh : Option Byte) :
    route (.ok t fixed data) reg errh = route (.ok t fixed data) reg' errh := by
  rw [route, route, routeOk, routeOk, h]

/-- DECODE's `Ok` results have supported types, so an unsupported key is never looked up. -/
theorem ne_of_unsupported_of_decodeFrame_eq_ok {p : Params} {k ft t : Byte} {raw fixed data : List Byte}
    (hk : supported p k = false) (h : decodeFrame p ft raw = some (.ok t fixed data)) : k ≠ t := by
  rintro rfl
  obtain ⟨_, hreg, -⟩ := decodeFrame_eq_ok h
  simp [supported, hreg] at hk

/-- Settles O44: an `Ok` result follows the lookup, an error the slot. -/
theorem routeGivesTheTarget : Obligations.RouteGivesTheTarget := by
  refine ⟨fun t h fixed data reg1 reg2 e hother => ⟨?_, ?_⟩, fun c t h a b reg => ⟨rfl, rfl⟩,
    fun p k h ft raw res reg1 reg2 e hk hres => ?_⟩
  · exact route_ok_of_found (lookupHandler_of_first hother h reg2) fixed data e
  · exact route_ok_of_not_found (lookupHandler_of_absent hother) fixed data e
  · cases res with
    | ok t fixed data =>
      have hne : k ≠ t := ne_of_unsupported_of_decodeFrame_eq_ok hk hres
      exact route_ok_congr (lookupHandler_other_key hne h reg1 reg2) fixed data e
    | err c t a b => rfl

end Sys2Proof.Machine
end

section
/-! PROOFS. The ports' valid and ready signals (60_exceptions.md R327, 45_dispatch_engine.md R293, R299), the port steps they gate
(R270), and what the run flag gates (R271). -/

namespace Sys2Proof.Machine

/-! The signals. -/

theorem evtValid_iff (s : State) : evtValid s = true ↔ s.core.evt ≠ none := Option.isSome_iff_ne_none

theorem respValid_iff (s : State) : respValid s = true ↔ ∃ resp, s.core.cu = .busy [] resp := by
  unfold respValid
  split
  case h_1 resp hbusy => simp [hbusy]
  case h_2 b rest resp hbusy => simp [hbusy]
  case h_3 hidle => simp [hidle]

theorem cmdPortReady_iff (s : State) : cmdPortReady s = true ↔ s.core.cu = .idle := by
  rw [cmdPortReady, cmdBusy_eq]
  simp

theorem rxPortReady_iff (s : State) :
    rxPortReady s = true ↔ s.core.run = true ∧ s.core.rxq.length < s.params.rxbufCap := by
  rw [rxPortReady, Bool.and_eq_true, decide_eq_true_eq]

theorem txPortValid_iff (s : State) : txPortValid s = true ↔ s.core.run = true ∧ s.core.txq ≠ [] := by
  simp [txPortValid]

/-! A port's step is enabled where its signal is set and the other side does its part. -/

theorem enabled_rxPort (s : State) : enabled .rxPort s = (rxPortReady s && !s.ports.rxIn.isEmpty) := rfl

theorem enabled_txPort (s : State) : enabled .txPort s = (txPortValid s && s.ports.txReady) := rfl

theorem enabled_eventPort (s : State) : enabled .eventPort s = (evtValid s && s.ports.evtReady) := rfl

theorem enabled_rxPort_of_not_ready {s : State} (h : rxPortReady s = false) : enabled .rxPort s = false := by
  rw [enabled_rxPort, h, Bool.false_and]

theorem enabled_txPort_of_not_valid {s : State} (h : txPortValid s = false) : enabled .txPort s = false := by
  rw [enabled_txPort, h, Bool.false_and]

theorem enabled_eventPort_of_not_valid {s : State} (h : evtValid s = false) : enabled .eventPort s = false := by
  rw [enabled_eventPort, h, Bool.false_and]

/-- Settles O57: each signal's reading, and the three port steps that wait for theirs. -/
theorem validSignalsFollowTheRegisters : Obligations.ValidSignalsFollowTheRegisters := fun s =>
  ⟨evtValid_iff s, respValid_iff s, cmdPortReady_iff s, rxPortReady_iff s, txPortValid_iff s,
    enabled_eventPort_of_not_valid, enabled_rxPort_of_not_ready, enabled_txPort_of_not_valid⟩

/-! The run flag. -/

theorem rxPortReady_of_stopped {s : State} (h : s.core.run = false) : rxPortReady s = false := by
  rw [rxPortReady, h, Bool.false_and]

theorem txPortValid_of_stopped {s : State} (h : s.core.run = false) : txPortValid s = false := by
  rw [txPortValid, h, Bool.false_and]

theorem enabled_synchronizer_of_stopped {s : State} (h : s.core.run = false) : enabled .synchronizer s = false := by
  rw [enabled, h, Bool.false_and]

/-- While reset is asserted the turn of every agent is RESET, in either mode (70_reset_and_hazards.md R360). -/
theorem takeTurn_of_reset {s : State} (a : Agent) (h : s.ports.resetIn = true) :
    takeTurn (.core a) s = .next (resetCore s) := if_pos h

/-- Settles O12: the rx and tx ports stop with their signals, the synchronizer by its own guard; the other agents' guards
do not read the flag. -/
theorem runGatesExactlyThreeAgents : Obligations.RunGatesExactlyThreeAgents := by
  refine ⟨fun s hstopped => ⟨?_, ?_, ?_⟩, fun s v => ⟨rfl, rfl, rfl⟩, fun s a => takeTurn_of_reset a⟩
  · exact enabled_rxPort_of_not_ready (rxPortReady_of_stopped hstopped)
  · exact enabled_synchronizer_of_stopped hstopped
  · exact enabled_txPort_of_not_valid (txPortValid_of_stopped hstopped)

end Sys2Proof.Machine
end

section
/-! PROOFS. The reserved opcodes (45_dispatch_engine.md R288). -/

namespace Sys2Proof.Machine

/-- What a reserved opcode does on an idle unit: the answer BAD_OPCODE, its other response fields 0. -/
theorem whenIdle_badOpcodeEffect {s : State} (h : s.core.cu = .idle) :
    whenIdle badOpcodeEffect s = .next { s with
      core := { s.core with cu := .busy [] { status := .badOpcode, rfid := 0, rlen := 0, rchk := 0 } } } :=
  whenIdle_of_idle h

/-- Settles O41: the twelve opcodes have one meaning. -/
theorem reservedOpcodesAnswerBadOpcode : Obligations.ReservedOpcodesAnswerBadOpcode := by
  rintro s _ data hidle rfl
  have hanswer := whenIdle_badOpcodeEffect hidle
  exact ⟨hanswer, hanswer, hanswer, hanswer, hanswer, hanswer, hanswer, hanswer, hanswer, hanswer, hanswer, hanswer⟩

end Sys2Proof.Machine
end

section
/-! PROOFS. The frames handlers get (60_exceptions.md R325): SYNC_FRAME is the one step that fills an empty event register, its route
names a handler only for an `Ok` result, and an `Ok` result has passed DECODE's checks. -/

namespace Sys2Proof.Machine

/-- Of the agents' effects, SYNC_FRAME's alone puts an event where there was none. -/
theorem AgentEffect.frameEffect_of_new_event {a : Agent} {s t : State} {e : Event} (h : AgentEffect s a t)
    (hempty : s.core.evt = none) (hnew : t.core.evt = some e) : FrameEffect s t := by
  have hwrites : t.core.evt ≠ s.core.evt := by rw [hempty, hnew]; exact Option.some_ne_none e
  cases h
  case syncFrame hframe => exact hframe
  case evtTake => cases hnew
  case cmdAccept c cs hidle hoffered hwhole hexec haccept => exact absurd haccept.evt_eq hwrites
  all_goals exact absurd rfl hwrites

/-- A step that puts an event into the empty register is SYNC_FRAME: the world outside writes no register, and RESET leaves
`evt` empty. -/
theorem step_frameEffect_of_new_event {s t : State} {e : Event} (h : step s = .next t) (hempty : s.core.evt = none)
    (hnew : t.core.evt = some e) : ∃ u, u.core = s.core ∧ u.params = s.params ∧ FrameEffect u t := by
  obtain ⟨u, -, hcore, -, hparams, ⟨o, -, -, rfl⟩ | ⟨a, -, -, -, rfl⟩ | ⟨a, -, -, -, hagent⟩⟩ := step_effect h
  · have hkept : u.core.evt = some e := hnew
    rw [hcore, hempty] at hkept
    cases hkept
  · cases hnew
  · exact ⟨u, hcore, hparams, hagent.frameEffect_of_new_event (hcore ▸ hempty) hnew⟩

/-- Only an `Ok` result is routed to a handler, and the event carries its type and its bytes. -/
theorem eq_ok_of_route_kind_handler {res : Decoded} {reg : List RegEntry} {errh : Option Byte}
    (h : (route res reg errh).kind = .handler) :
    ∃ fixed data, res = .ok (route res reg errh).ftype fixed data ∧ (route res reg errh).result = .ok fixed data := by
  obtain ⟨ft, fixed, data, hok, ⟨x, -, -, hroute⟩ | ⟨-, hroute⟩⟩ | ⟨c, ft, a, b, -, ⟨x, -, hroute⟩ | ⟨-, hroute⟩⟩ :=
    route_cases res reg errh
  · rw [hroute]; exact ⟨fixed, data, hok, rfl⟩
  all_goals rw [hroute] at h; cases h

/-- The handler event SYNC_FRAME writes is DECODE's `Ok` result for the candidate at the head of `rxq`. -/
theorem FrameEffect.decodeFrame_of_handler_event {s t : State} {e : Event} (h : FrameEffect s t) (hevt : t.core.evt = some e)
    (hkind : e.kind = .handler) :
    ∃ ft fixed data, e.result = .ok fixed data ∧
      decodeFrame s.params ft (s.core.rxq.take (declaredLen s.core.rxq + 4)) = some (.ok e.ftype fixed data) := by
  obtain ⟨ft, len, rest, res, hen, -, -, hres⟩ := h
  obtain ⟨-, -, -, hhead⟩ := (frameEnabled_iff _ _).mp hen
  obtain rfl := Option.some.inj hevt
  obtain ⟨fixed, data, hok, hresult⟩ := eq_ok_of_route_kind_handler hkind
  exact ⟨ft, fixed, data, hresult, by rw [hhead, hres, ← hok]⟩

/-- Settles O27: the event is DECODE's `Ok` result for the candidate, which has passed every check (O16). -/
theorem onlyCheckedFramesReachAHandler : Obligations.OnlyCheckedFramesReachAHandler := by
  intro s t e h hempty hnew hkind
  obtain ⟨u, hcore, hparams, hframe⟩ := step_frameEffect_of_new_event h hempty hnew
  obtain ⟨ft, fixed, data, hresult, hdecode⟩ := hframe.decodeFrame_of_handler_event hnew hkind
  rw [hcore, hparams] at hdecode
  obtain ⟨rfl, htype, -, hchk, k, hreg, hmin, -⟩ := decodedPayloadsAreChecked _ _ _ _ _ _ hdecode
  exact ⟨_, fixed, data, k, rfl, hresult, htype.symm, hchk, hreg, hmin⟩

end Sys2Proof.Machine
end

section
/-! PROOFS. RESET (70_reset_and_hazards.md R360) and the reset values of the record and of the outputs derived from it (R361). -/

namespace Sys2Proof.Machine

/-! The step under reset. -/

/-- A turn of the core while reset is asserted is RESET, whichever agent has it. -/
theorem step_of_core_turn_in_reset {s : State} {a : Agent} (h : (nextTurn s).1 = .core a)
    (hreset : s.ports.resetIn = true) : step s = .next (resetCore (nextTurn s).2) := by
  rw [← nextTurn_ports s] at hreset
  rw [step, h, takeTurn_of_reset a hreset]

/-- Settles O9: the turn is RESET, which writes the record's reset literal and no other part of the state. -/
theorem resetClearsTheRecord : Obligations.ResetClearsTheRecord :=
  fun _ _ => step_of_core_turn_in_reset

/-! What the outputs show of the reset record. -/

section
variable {s : State} (h : s.core = CoreState.reset)
include h

/-- The registry read port has no entry to show, whatever the index. -/
theorem registryRead_valid_of_core_eq_reset (i : Byte) : (registryRead s i).valid = false := by
  have hempty : s.core.reg.length ≤ i.toNat := by rw [h]; exact Nat.zero_le _
  rw [registryRead_of_length_le hempty]

theorem evtValid_of_core_eq_reset : evtValid s = false := by
  have hevt : s.core.evt = none := by rw [h, CoreState.reset]
  simp [evtValid, hevt]

theorem cmdPortReady_of_core_eq_reset : cmdPortReady s = true :=
  (cmdPortReady_iff s).mpr (by rw [h, CoreState.reset])

/-- The command unit is idle, so it holds no response. -/
theorem respValid_of_core_eq_reset : respValid s = false := by
  have hidle : s.core.cu = .idle := (cmdPortReady_iff s).mp (cmdPortReady_of_core_eq_reset h)
  simp [respValid, hidle]

theorem run_of_core_eq_reset : s.core.run = false := by rw [h, CoreState.reset]

end

/-- Settles O10: the elements of the record are RESET's literals, the two status words and the signals are read off that
record, and the rx and tx signals are those of the mode STOPPED. -/
theorem resetValuesOfStateAndOutputs : Obligations.ResetValuesOfStateAndOutputs := by
  refine ⟨rfl, fun s => ?_⟩
  have hcore := resetCore_core s
  have hstopped := run_of_core_eq_reset hcore
  exact ⟨rfl, rfl, rfl, hstopped, rfl, rfl, rfl, rfl, hcore, status0_of_core_eq_reset hcore,
    status1_of_core_eq_reset hcore, registryRead_valid_of_core_eq_reset hcore, evtValid_of_core_eq_reset hcore,
    respValid_of_core_eq_reset hcore, rxPortReady_of_stopped hstopped, txPortValid_of_stopped hstopped,
    cmdPortReady_of_core_eq_reset hcore⟩

end Sys2Proof.Machine
end
